-- ==== Sys2Proof/Word.lean ====
section
/-! DEFINITION. The three word sizes of the block (00_scope R8, R9): register words, bytes, command words. -/
namespace Sys2Proof

/-- A register word, a data register or a frequency in Hz: 32 bits, unsigned (R8 `WORD`, R9, R21). -/
abbrev Word := BitVec 32

/-- A byte of a buffer, a payload lane or a data latch (R40, R48). -/
abbrev Byte := BitVec 8

/-- A command word, a payload word or a response word: 64 bits (R9, R91, R97). -/
abbrev CmdWord := BitVec 64

end Sys2Proof
end

