-- ==== Sys2Proof/Syntax.lean ====
section
/-! DEFINITION. The instructions of the block: twelve commands and five events (00_scope R5), their operands as
enumerations (30_encoding R93), and the steps of the hardware agents, which have no encoding (44 R221 to R227). -/
namespace Sys2Proof

/-- `CFG_PLL.src`, the PLL's input oscillator (R93). -/
inductive PllSrc where
  | hsi
  | hse
deriving DecidableEq, Repr, Inhabited

/-- `CFG_PLL.p`, the output prescaler P (R93). -/
inductive PllP where
  | div2
  | div4
  | div6
  | div8
deriving DecidableEq, Repr, Inhabited

/-- `SET_SYSCLK.src`, the system clock source (R93); code 3 is reserved and has no constructor. -/
inductive ClkSrc where
  | hsi
  | hse
  | pll
deriving DecidableEq, Repr, Inhabited

/-- `CFG_AHB.pre`, the nine AHB prescaler settings (R93, R144). -/
inductive AhbPre where
  | div1
  | div2
  | div4
  | div8
  | div16
  | div64
  | div128
  | div256
  | div512
deriving DecidableEq, Repr, Inhabited

/-- `CFG_APB1.pre` and `CFG_APB2.pre`, the five APB prescaler settings (R93, R145). -/
inductive ApbPre where
  | div1
  | div2
  | div4
  | div8
  | div16
deriving DecidableEq, Repr, Inhabited

/-- `SET_AHB_CLK.bank` (R93). -/
inductive AhbBank where
  | bank1
  | bank2
  | bank3
deriving DecidableEq, Repr, Inhabited

/-- `SET_APB_CLK.bank` (R93). -/
inductive ApbBank where
  | bank1
  | bank2
deriving DecidableEq, Repr, Inhabited

/-- `GET_CLK.which` (R93). -/
inductive ClkSel where
  | system
  | ahb
  | apb1
  | apb2
deriving DecidableEq, Repr, Inhabited

/-- `SER_STAT.sel` (R93). -/
inductive StatSel where
  | faults
  | overruns
  | txSize
  | rxSize
  | state
deriving DecidableEq, Repr, Inhabited

/-- The five interrupt causes (R99, R250). -/
inductive Cause where
  | txEmpty
  | rxAvailable
  | overrun
  | modeFault
  | crcError
deriving DecidableEq, Repr, Inhabited

/-- The two faults the serial hardware can detect by itself (R227). -/
inductive LineFault where
  | modf
  | crcerr
deriving DecidableEq, Repr, Inhabited

/-- The steps of the hardware agents `CLKENV` and `SERENV` (R221, R222, R225, R226, R227). -/
inductive EnvStep where
  | lock
  | switch
  | txDone
  | rxByte (b : Byte)
  | fault (f : LineFault)
deriving DecidableEq, Repr, Inhabited

/-- One constructor per row of the opcode table: the twelve commands in R92's order, then the five events of R99. -/
inductive Instr where
  | cfgPll (src : PllSrc) (osc : Word) (m : BitVec 6) (n : BitVec 9) (p : PllP) (q : BitVec 4)
  | setSysclk (src : ClkSrc)
  | cfgAhb (pre : AhbPre)
  | cfgApb1 (pre : ApbPre)
  | cfgApb2 (pre : ApbPre)
  | setAhbClk (bank : AhbBank) (bit : BitVec 5) (en : Bool)
  | setApbClk (bank : ApbBank) (bit : BitVec 5) (en : Bool)
  | getClk (which : ClkSel)
  | serInit (target : Word)
  | serSend (size : BitVec 16) (data : List Byte)
  | serRecv
  | serStat (sel : StatSel)
  | irqTxEmpty
  | irqRxAvailable
  | irqOverrun
  | irqModeFault
  | irqCrcError
deriving DecidableEq, Repr, Inhabited

end Sys2Proof
end

