-- ==== Sys2Proof/Config.lean ====
section
/-! DEFINITION. The parameters of the block as plain data (00_scope R8), the register and field names the descriptor
table is about (10_state R30 to R36), and the free values. Default values and constraints stand in Machine/Params.lean. -/
namespace Sys2Proof

/-- The twelve memory-mapped registers (R30). -/
inductive Reg where
  | rccCr
  | rccPllcfgr
  | rccCfgr
  | rccAhb1enr
  | rccAhb2enr
  | rccAhb3enr
  | rccApb1enr
  | rccApb2enr
  | serCr1
  | serCr2
  | serSr
  | serDr
deriving DecidableEq, Repr, Inhabited

/-- The named bitfields of R31, R32, R33, R35 and R36. -/
inductive Field where
  | pllon
  | pllrdy
  | pllm
  | plln
  | pllp
  | pllsrc
  | pllq
  | sw
  | sws
  | hpre
  | ppre1
  | ppre2
  | br
  | spe
  | errie
  | rxneie
  | txeie
  | rxne
  | txe
  | crcerr
  | modf
  | ovr
deriving DecidableEq, Repr, Inhabited

/-- Who sets the bits of a named field (R31 to R36, "access"): software; the hardware; the hardware, with software only clearing. -/
inductive Access where
  | software
  | hardware
  | clearOnly
deriving DecidableEq, Repr, Inhabited

/-- A Bitfield Descriptor: "(register-name, bit-offset, bit-width)" (R15, R120). -/
structure Desc where
  reg : Reg
  offset : Nat
  width : Nat
deriving DecidableEq, Repr, Inhabited

/-- The descriptor of every named field, register, offset and width: the part of the parameter `FD` that is about fields (R8). `SER_DR`'s
`DATA` has none: the model keeps it at bits 7 to 0, as R36 and R68 (b) print it (DESIGN CHOICE: entry 28). -/
structure FieldTable where
  pllon : Desc
  pllrdy : Desc
  pllm : Desc
  plln : Desc
  pllp : Desc
  pllsrc : Desc
  pllq : Desc
  sw : Desc
  sws : Desc
  hpre : Desc
  ppre1 : Desc
  ppre2 : Desc
  br : Desc
  spe : Desc
  errie : Desc
  rxneie : Desc
  txeie : Desc
  rxne : Desc
  txe : Desc
  crcerr : Desc
  modf : Desc
  ovr : Desc
deriving DecidableEq, Repr, Inhabited

/-- The byte offset of every register from its block's base: the part of the parameter `FD` that places the registers (R30, R61). -/
structure RegOffsets where
  rccCr : Word
  rccPllcfgr : Word
  rccCfgr : Word
  rccAhb1enr : Word
  rccAhb2enr : Word
  rccAhb3enr : Word
  rccApb1enr : Word
  rccApb2enr : Word
  serCr1 : Word
  serCr2 : Word
  serSr : Word
  serDr : Word
deriving DecidableEq, Repr, Inhabited

/-- The clock register block: eight 32-bit words (R20 c, R30). -/
structure RccRegs where
  cr : Word
  pllcfgr : Word
  cfgr : Word
  ahb1enr : Word
  ahb2enr : Word
  ahb3enr : Word
  apb1enr : Word
  apb2enr : Word
deriving DecidableEq, Repr, Inhabited

/-- The serial register block: three stored words and the two data latches behind `SER_DR` (R20 d, R36, R48). -/
structure SerRegs where
  cr1 : Word
  cr2 : Word
  sr : Word
  drRx : Byte
  drTx : Byte
deriving DecidableEq, Repr, Inhabited

/-- The peripheral bus that clocks the serial engine: the parameter `SER_BUS` (R8). -/
inductive ApbBus where
  | apb1
  | apb2
deriving DecidableEq, Repr, Inhabited

/-- `AHB_SHIFT`: the shift count of every AHB prescaler setting but `DIV1`, whose shift is 0 (R8, R144). -/
structure AhbShifts where
  div2 : Nat
  div4 : Nat
  div8 : Nat
  div16 : Nat
  div64 : Nat
  div128 : Nat
  div256 : Nat
  div512 : Nat
deriving DecidableEq, Repr, Inhabited

/-- `APB_SHIFT`: the shift count of every APB prescaler setting but `DIV1`, whose shift is 0 (R8, R145). -/
structure ApbShifts where
  div2 : Nat
  div4 : Nat
  div8 : Nat
  div16 : Nat
deriving DecidableEq, Repr, Inhabited

/-- The implementation parameters of R8, in the table's order. They are plain data carried unchanged by every step
(DESIGN CHOICE, safe: entry 1). `rccOther` and `serOther` give the launch values of the bits no rule names and of the two
data latches (R8 `RCC_OTHER`, `SER_OTHER`; R50). -/
structure Config where
  hsiHz : Word
  hseHz : Word
  hseReady : Bool
  vcoInMin : Nat
  vcoInMax : Nat
  vcoOutMin : Nat
  vcoOutMax : Nat
  mMin : Nat
  mMax : Nat
  nMin : Nat
  nMax : Nat
  qMin : Nat
  qMax : Nat
  rccBase : Word
  serBase : Word
  fd : FieldTable
  regOff : RegOffsets
  serBus : ApbBus
  serGateBank : ApbBank
  serGateBit : BitVec 5
  txCap : Nat
  rxCap : Nat
  ahbShifts : AhbShifts
  apbShifts : ApbShifts
  rccOther : RccRegs
  serOther : SerRegs
deriving DecidableEq, Repr, Inhabited

/-- What an agent may choose to do when nothing is placed: the application's turn, the delivery of a cause, or a hardware step (R6, R99). -/
inductive Move where
  | app
  | irq (c : Cause)
  | env (e : EnvStep)
deriving DecidableEq, Repr, Inhabited

/-- FREE VALUE: which agent moves next where nothing fixes the order (R3, R14, R253, R254), with the byte a line delivers
(R226). Applied to `State.draws`; nothing can evaluate it (entry 7, safe). -/
opaque Config.freeMove : Nat → Move

/-- FREE VALUE: the 32-bit word a register or a response holds where `zext_32` is undefined because the number needs more
than 32 bits (R10). Applied to `State.draws`; nothing can evaluate it (DESIGN CHOICE: entry 12, safe). -/
opaque Config.freeWord : Nat → Word

/-- FREE VALUE: the shift count of a prescaler field's value that is no code of R144 or R145. Only a field wider than the codes
can hold one. Applied to the value; nothing can evaluate it. It is a word, so that `x[4]` to `x[6]` hold it whole (DESIGN CHOICE: entry
25, safe). -/
opaque Config.freeShift : Nat → Word

end Sys2Proof
end

