-- ==== Sys2Proof/WellFormed.lean ====
section
/-! DEFINITION. When an instruction term and a bitfield descriptor are well formed. Reserved operand codes need no check:
an enumerated operand has no constructor for them. -/
namespace Sys2Proof

/-- `SER_SEND`'s data "has exactly `size` bytes" (R94, R100); every other term is well formed by its types. -/
def Instr.wf : Instr → Bool
  | .serSend size data => data.length == size.toNat
  | _ => true

/-- A descriptor fits a 32-bit word and its register is one that field operations may address (R62, R120, R125). -/
def Desc.wf (d : Desc) : Bool :=
  decide (1 ≤ d.width) && decide (d.offset + d.width ≤ 32) && decide (d.reg ≠ .serDr)

/-- `TSTB` takes a field of width one and nothing else (R122). -/
def Desc.tstbOk (d : Desc) : Bool := d.wf && d.width == 1

/-- Two different fields of one register have disjoint bit ranges (R62). -/
def Desc.apart (d e : Desc) : Bool :=
  decide (d.reg ≠ e.reg) || decide (d.offset + d.width ≤ e.offset) || decide (e.offset + e.width ≤ d.offset)

end Sys2Proof
end

