-- ==== Sys2Proof/Decode.lean ====
section
/-! DEFINITION. From the words of the command port and the codes of the event port to instructions, and back
(30_encoding R91 to R99). A command stream is a list of 64-bit words; there is no byte order (20_memory R65). -/
namespace Sys2Proof

/-! Operand codes (R93). The same codes are the register field codes (10_state R32, R33), so `WRF` writes them unchanged. -/

def PllSrc.code : PllSrc → BitVec 1
  | .hsi => 0
  | .hse => 1

def PllSrc.ofCode (c : BitVec 1) : PllSrc := if c = 0 then .hsi else .hse

def PllP.code : PllP → BitVec 2
  | .div2 => 0
  | .div4 => 1
  | .div6 => 2
  | .div8 => 3

def PllP.ofCode (c : BitVec 2) : PllP :=
  match c.toNat with
  | 0 => .div2
  | 1 => .div4
  | 2 => .div6
  | _ => .div8

def ClkSrc.code : ClkSrc → BitVec 2
  | .hsi => 0
  | .hse => 1
  | .pll => 2

def ClkSrc.ofCode (c : BitVec 2) : Option ClkSrc :=
  match c.toNat with
  | 0 => some .hsi
  | 1 => some .hse
  | 2 => some .pll
  | _ => none

def AhbPre.code : AhbPre → BitVec 4
  | .div1 => 0b0000
  | .div2 => 0b1000
  | .div4 => 0b1001
  | .div8 => 0b1010
  | .div16 => 0b1011
  | .div64 => 0b1100
  | .div128 => 0b1101
  | .div256 => 0b1110
  | .div512 => 0b1111

def AhbPre.ofCode (c : BitVec 4) : Option AhbPre :=
  match c.toNat with
  | 0 => some .div1
  | 8 => some .div2
  | 9 => some .div4
  | 10 => some .div8
  | 11 => some .div16
  | 12 => some .div64
  | 13 => some .div128
  | 14 => some .div256
  | 15 => some .div512
  | _ => none

def ApbPre.code : ApbPre → BitVec 3
  | .div1 => 0b000
  | .div2 => 0b100
  | .div4 => 0b101
  | .div8 => 0b110
  | .div16 => 0b111

def ApbPre.ofCode (c : BitVec 3) : Option ApbPre :=
  match c.toNat with
  | 0 => some .div1
  | 4 => some .div2
  | 5 => some .div4
  | 6 => some .div8
  | 7 => some .div16
  | _ => none

def AhbBank.code : AhbBank → BitVec 2
  | .bank1 => 1
  | .bank2 => 2
  | .bank3 => 3

def AhbBank.ofCode (c : BitVec 2) : Option AhbBank :=
  match c.toNat with
  | 1 => some .bank1
  | 2 => some .bank2
  | 3 => some .bank3
  | _ => none

def ApbBank.code : ApbBank → BitVec 2
  | .bank1 => 1
  | .bank2 => 2

def ApbBank.ofCode (c : BitVec 2) : Option ApbBank :=
  match c.toNat with
  | 1 => some .bank1
  | 2 => some .bank2
  | _ => none

def ClkSel.code : ClkSel → BitVec 2
  | .system => 0
  | .ahb => 1
  | .apb1 => 2
  | .apb2 => 3

def ClkSel.ofCode (c : BitVec 2) : ClkSel :=
  match c.toNat with
  | 0 => .system
  | 1 => .ahb
  | 2 => .apb1
  | _ => .apb2

def StatSel.code : StatSel → BitVec 3
  | .faults => 0
  | .overruns => 1
  | .txSize => 2
  | .rxSize => 3
  | .state => 4

def StatSel.ofCode (c : BitVec 3) : Option StatSel :=
  match c.toNat with
  | 0 => some .faults
  | 1 => some .overruns
  | 2 => some .txSize
  | 3 => some .rxSize
  | 4 => some .state
  | _ => none

/-- 1 = enable, 0 = disable (R93). -/
def enCode (en : Bool) : BitVec 1 := if en then 1 else 0

def enOfCode (c : BitVec 1) : Bool := c == 1

/-- The 3-bit cause code (R99). -/
def Cause.code : Cause → BitVec 3
  | .txEmpty => 0
  | .rxAvailable => 1
  | .overrun => 2
  | .modeFault => 3
  | .crcError => 4

/-- Codes 5 to 7 are reserved (R99). -/
def Cause.ofCode (c : BitVec 3) : Option Cause :=
  match c.toNat with
  | 0 => some .txEmpty
  | 1 => some .rxAvailable
  | 2 => some .overrun
  | 3 => some .modeFault
  | 4 => some .crcError
  | _ => none

/-- The event instruction a cause selects (R190, R255). -/
def Cause.instr : Cause → Instr
  | .txEmpty => .irqTxEmpty
  | .rxAvailable => .irqRxAvailable
  | .overrun => .irqOverrun
  | .modeFault => .irqModeFault
  | .crcError => .irqCrcError

/-! The decoder. -/

/-- Why a command is illegal (R96). Each of the four ends in `ILLEGAL_COMMAND`. -/
inductive Illegal where
  | opcode
  | mustBeZero
  | reservedOperand
  | payloadLane
deriving DecidableEq, Repr, Inhabited

/-- What the words on the command port amount to: not a whole command yet, a command, or an illegal command. The words
behind the command's own (R95) are handed back. -/
inductive Decoded where
  | incomplete
  | ok (i : Instr) (rest : List CmdWord)
  | illegal (why : Illegal) (rest : List CmdWord)
deriving DecidableEq, Repr, Inhabited

/-- `cw[63:56]` (R91). -/
def opcode (cw : CmdWord) : BitVec 8 := cw.extractLsb' 56 8

/-- A command that has one word: its must-be-zero bits are checked, then its operand. -/
def checked (cw mbz : CmdWord) (operands : Option Instr) : Except Illegal Instr :=
  if cw &&& mbz ≠ 0 then .error .mustBeZero
  else match operands with
    | some i => .ok i
    | none => .error .reservedOperand

/-- The one-word commands (R92). `SER_SEND`, opcode 0x11, is decoded by `decodeSend`. -/
def decodeHead (cw : CmdWord) : Except Illegal Instr :=
  match (opcode cw).toNat with
  | 0x01 => checked cw 0x0000000300000000#64
      (some (.cfgPll (PllSrc.ofCode (cw.extractLsb' 55 1)) (cw.extractLsb' 0 32) (cw.extractLsb' 34 6)
        (cw.extractLsb' 40 9) (PllP.ofCode (cw.extractLsb' 53 2)) (cw.extractLsb' 49 4)))
  | 0x02 => checked cw 0x00FFFFFFFFFFFFFC#64 ((ClkSrc.ofCode (cw.extractLsb' 0 2)).map .setSysclk)
  | 0x03 => checked cw 0x00FFFFFFFFFFFFF0#64 ((AhbPre.ofCode (cw.extractLsb' 0 4)).map .cfgAhb)
  | 0x04 => checked cw 0x00FFFFFFFFFFFFF8#64 ((ApbPre.ofCode (cw.extractLsb' 0 3)).map .cfgApb1)
  | 0x05 => checked cw 0x00FFFFFFFFFFFFF8#64 ((ApbPre.ofCode (cw.extractLsb' 0 3)).map .cfgApb2)
  | 0x06 => checked cw 0x00FFFFFFFFFFFE80#64
      ((AhbBank.ofCode (cw.extractLsb' 5 2)).map fun b =>
        .setAhbClk b (cw.extractLsb' 0 5) (enOfCode (cw.extractLsb' 8 1)))
  | 0x07 => checked cw 0x00FFFFFFFFFFFE80#64
      ((ApbBank.ofCode (cw.extractLsb' 5 2)).map fun b =>
        .setApbClk b (cw.extractLsb' 0 5) (enOfCode (cw.extractLsb' 8 1)))
  | 0x08 => checked cw 0x00FFFFFFFFFFFFFC#64 (some (.getClk (ClkSel.ofCode (cw.extractLsb' 0 2))))
  | 0x10 => checked cw 0x00FFFFFF00000000#64 (some (.serInit (cw.extractLsb' 0 32)))
  | 0x12 => checked cw 0x00FFFFFFFFFFFFFF#64 (some .serRecv)
  | 0x13 => checked cw 0x00FFFFFFFFFFFFF8#64 ((StatSel.ofCode (cw.extractLsb' 0 3)).map .serStat)
  | _ => .error .opcode

/-- The eight lanes of a payload word, lane 0 first (R94). -/
def wordBytes (w : CmdWord) : List Byte :=
  [w.extractLsb' 0 8, w.extractLsb' 8 8, w.extractLsb' 16 8, w.extractLsb' 24 8,
   w.extractLsb' 32 8, w.extractLsb' 40 8, w.extractLsb' 48 8, w.extractLsb' 56 8]

/-- `ceil(size / 8)`, the number of payload words of a `SER_SEND` (R94). -/
def payloadCount (size : Nat) : Nat := (size + 7) / 8

/-- How many words the command has that begins with `cw`, legal or not (R95). -/
def commandLength (cw : CmdWord) : Nat :=
  if opcode cw = 0x11#8 then 1 + payloadCount (cw.extractLsb' 0 16).toNat else 1

/-- `SER_SEND` from its first word and exactly its payload words (R94, R96). -/
def decodeSend (cw : CmdWord) (payload : List CmdWord) : Except Illegal Instr :=
  let size : BitVec 16 := cw.extractLsb' 0 16
  let bytes := payload.flatMap wordBytes
  if cw &&& 0x00FFFFFFFFFF0000#64 ≠ 0 then .error .mustBeZero
  else if (bytes.drop size.toNat).all (· == 0) then .ok (.serSend size (bytes.take size.toNat))
  else .error .payloadLane

/-- A decoded or illegal command with the words behind it. -/
def withRest (r : Except Illegal Instr) (rest : List CmdWord) : Decoded :=
  match r with
  | .ok i => .ok i rest
  | .error e => .illegal e rest

/-- The decoder: total on any list of words (R95, R96). -/
def decode : List CmdWord → Decoded
  | [] => .incomplete
  | cw :: ws =>
    if opcode cw = 0x11#8 then
      let k := payloadCount (cw.extractLsb' 0 16).toNat
      if ws.length < k then .incomplete
      else withRest (decodeSend cw (ws.take k)) (ws.drop k)
    else withRest (decodeHead cw) ws

/-! The encoder. -/

/-- What reaches the block for one instruction: the words of a command, or the code of an event (R90). -/
inductive PortInput where
  | command (words : List CmdWord)
  | event (code : BitVec 3)
deriving DecidableEq, Repr, Inhabited

/-- Up to eight bytes in a payload word, the first in lane 0; the lanes beyond are zero (R94). -/
def payloadWord (bs : List Byte) : CmdWord :=
  (bs.getD 7 0 ++ bs.getD 6 0 ++ bs.getD 5 0 ++ bs.getD 4 0 ++ bs.getD 3 0 ++ bs.getD 2 0 ++ bs.getD 1 0 ++ bs.getD 0 0 :)

/-- The given number of payload words, eight bytes each (R94). -/
def payloadWords : Nat → List Byte → List CmdWord
  | 0, _ => []
  | k + 1, bs => payloadWord (bs.take 8) :: payloadWords k (bs.drop 8)

/-- The words or the code of an instruction, from the tables of R92, R93, R94 and R99. -/
def encode : Instr → PortInput
  | .cfgPll src osc m n p q => .command [0x01#8 ++ src.code ++ p.code ++ q ++ n ++ m ++ 0#2 ++ osc]
  | .setSysclk src => .command [0x02#8 ++ 0#54 ++ src.code]
  | .cfgAhb pre => .command [0x03#8 ++ 0#52 ++ pre.code]
  | .cfgApb1 pre => .command [0x04#8 ++ 0#53 ++ pre.code]
  | .cfgApb2 pre => .command [0x05#8 ++ 0#53 ++ pre.code]
  | .setAhbClk bank bit en => .command [0x06#8 ++ 0#47 ++ enCode en ++ 0#1 ++ bank.code ++ bit]
  | .setApbClk bank bit en => .command [0x07#8 ++ 0#47 ++ enCode en ++ 0#1 ++ bank.code ++ bit]
  | .getClk which => .command [0x08#8 ++ 0#54 ++ which.code]
  | .serInit target => .command [0x10#8 ++ 0#24 ++ target]
  | .serSend size data => .command ((0x11#8 ++ 0#40 ++ size) :: payloadWords (payloadCount size.toNat) data)
  | .serRecv => .command [0x12#8 ++ 0#56]
  | .serStat sel => .command [0x13#8 ++ 0#53 ++ sel.code]
  | .irqTxEmpty => .event Cause.txEmpty.code
  | .irqRxAvailable => .event Cause.rxAvailable.code
  | .irqOverrun => .event Cause.overrun.code
  | .irqModeFault => .event Cause.modeFault.code
  | .irqCrcError => .event Cause.crcError.code

/-- The one instruction that a port input stands for, if it is one whole legal command or a cause code that is not reserved. -/
def decodePort : PortInput → Option Instr
  | .command ws =>
    match decode ws with
    | .ok i [] => some i
    | _ => none
  | .event code => (Cause.ofCode code).map Cause.instr

/-! The opcode table's numbering: bit 0 is the least significant bit of the first word. A row of at most 8 bits is an event
code, every other row is a command whose missing payload words are zero. -/

/-- The port input that a word of the opcode table stands for; `none` where an event code has more than 3 bits. -/
def tableInput (nbits w : Nat) : Option PortInput :=
  if nbits ≤ 8 then
    if w < 8 then some (.event (BitVec.ofNat 3 w)) else none
  else
    let given := (List.range ((nbits + 63) / 64)).map fun j => BitVec.ofNat 64 ((w % 2 ^ nbits) / 2 ^ (64 * j))
    some (.command (given ++ List.replicate (commandLength (given.headD 0) - given.length) 0))

/-- The instruction the decoder reads from a word of the opcode table. -/
def decodeTableWord (nbits w : Nat) : Option Instr := (tableInput nbits w).bind decodePort

end Sys2Proof
end

