-- ==== Sys2Proof/Machine/Bits.lean ====
section
/-! DEFINITION. Bitfields of a register word (00_scope R9, R10; 40_register_access R120, R121): the word-level half of the
Register Access Layer, with no state. -/
namespace Sys2Proof.Machine

/-- `mask(w) = 2^w - 1` (R10). -/
def mask (w : Nat) : Word := BitVec.ofNat 32 (2 ^ w - 1)

/-- The bits of a word that a field occupies: `mask(F.width) << F.offset` (R121). -/
def fieldMask (d : Desc) : Word := mask d.width <<< d.offset

/-- `(w >> F.offset) & mask(F.width)` (R120). -/
def extractField (d : Desc) (w : Word) : Word := (w >>> d.offset) &&& mask d.width

/-- `(w & ~m) | ((v & mask(F.width)) << F.offset)` (R121). -/
def insertField (d : Desc) (w v : Word) : Word :=
  (w &&& ~~~(fieldMask d)) ||| ((v &&& mask d.width) <<< d.offset)

/-- A full-word write that leaves the bits of `hw` as they are: hardware-owned bits (20_memory R66). -/
def keepBits (hw old new : Word) : Word := (old &&& hw) ||| (new &&& ~~~hw)

/-- One bit as a register value. -/
def bitValue (b : Bool) : Word := if b then 1 else 0

end Sys2Proof.Machine
end

