-- ==== Sys2Proof/Machine/Params.lean ====
section
/-! DEFINITION. The parameters: the descriptor table (00_scope R8), the registers and widths the rules give its fields
(10_state R31 to R36), the constraints of R8 and R62, the reset words of R50, and the default values. -/
namespace Sys2Proof.Machine

/-- The register the rules put a named field in (R31, R32, R33, R35, R36). A launch may place it elsewhere (R8). -/
def fieldReg : Field → Reg
  | .pllon | .pllrdy => .rccCr
  | .pllm | .plln | .pllp | .pllsrc | .pllq => .rccPllcfgr
  | .sw | .sws | .hpre | .ppre1 | .ppre2 => .rccCfgr
  | .br | .spe => .serCr1
  | .errie | .rxneie | .txeie => .serCr2
  | .rxne | .txe | .crcerr | .modf | .ovr => .serSr

/-- The width that holds a named field's legal values (R31, R32, R33, R35, R36). A launch may give it another (R8). -/
def fieldWidth : Field → Nat
  | .pllm => 6
  | .plln => 9
  | .pllp => 2
  | .pllq => 4
  | .sw | .sws => 2
  | .hpre => 4
  | .ppre1 | .ppre2 => 3
  | .br => 3
  | .pllon | .pllrdy | .pllsrc | .spe | .errie | .rxneie | .txeie | .rxne | .txe | .crcerr | .modf | .ovr => 1

/-- Every named field, once. -/
def allFields : List Field :=
  [.pllon, .pllrdy, .pllm, .plln, .pllp, .pllsrc, .pllq, .sw, .sws, .hpre, .ppre1, .ppre2,
   .br, .spe, .errie, .rxneie, .txeie, .rxne, .txe, .crcerr, .modf, .ovr]

/-- Every register, once (R30). -/
def allRegs : List Reg :=
  [.rccCr, .rccPllcfgr, .rccCfgr, .rccAhb1enr, .rccAhb2enr, .rccAhb3enr, .rccApb1enr, .rccApb2enr,
   .serCr1, .serCr2, .serSr, .serDr]

/-- The descriptor of a named field in a table (R8 `FD`). -/
def fieldDesc (o : FieldTable) : Field → Desc
  | .pllon => o.pllon
  | .pllrdy => o.pllrdy
  | .pllm => o.pllm
  | .plln => o.plln
  | .pllp => o.pllp
  | .pllsrc => o.pllsrc
  | .pllq => o.pllq
  | .sw => o.sw
  | .sws => o.sws
  | .hpre => o.hpre
  | .ppre1 => o.ppre1
  | .ppre2 => o.ppre2
  | .br => o.br
  | .spe => o.spe
  | .errie => o.errie
  | .rxneie => o.rxneie
  | .txeie => o.txeie
  | .rxne => o.rxne
  | .txe => o.txe
  | .crcerr => o.crcerr
  | .modf => o.modf
  | .ovr => o.ovr

def regOffset (o : RegOffsets) : Reg → Word
  | .rccCr => o.rccCr
  | .rccPllcfgr => o.rccPllcfgr
  | .rccCfgr => o.rccCfgr
  | .rccAhb1enr => o.rccAhb1enr
  | .rccAhb2enr => o.rccAhb2enr
  | .rccAhb3enr => o.rccAhb3enr
  | .rccApb1enr => o.rccApb1enr
  | .rccApb2enr => o.rccApb2enr
  | .serCr1 => o.serCr1
  | .serCr2 => o.serCr2
  | .serSr => o.serSr
  | .serDr => o.serDr

/-- A register belongs to the RCC block or to the SER block (R30, "owner"). -/
def regOfSer : Reg → Bool
  | .serCr1 | .serCr2 | .serSr | .serDr => true
  | .rccCr | .rccPllcfgr | .rccCfgr | .rccAhb1enr | .rccAhb2enr | .rccAhb3enr | .rccApb1enr | .rccApb2enr => false

/-- The byte address of a register (R30): base plus offset, modulo 2^32 (DESIGN CHOICE: entry 24). R60 has addresses of 32 bits,
R10 adds without wrap-around, and R8 and R62 do not say that a sum stays below 2^32. -/
def regAddr (c : Config) (r : Reg) : Word :=
  (if regOfSer r then c.serBase else c.rccBase) + regOffset c.regOff r

/-- The descriptor of a named field (R8 `FD`). -/
def desc (c : Config) (f : Field) : Desc := fieldDesc c.fd f

/-- The enable register of an AHB bank (R93, R157). -/
def ahbGateReg : AhbBank → Reg
  | .bank1 => .rccAhb1enr
  | .bank2 => .rccAhb2enr
  | .bank3 => .rccAhb3enr

/-- The enable register of an APB bank (R93, R158). -/
def apbGateReg : ApbBank → Reg
  | .bank1 => .rccApb1enr
  | .bank2 => .rccApb2enr

/-- The clock-gate field `G`: one bit of an enable register (R157). -/
def gateDesc (r : Reg) (bit : BitVec 5) : Desc := ⟨r, bit.toNat, 1⟩

/-- The clock gate of the serial peripheral: the parameter `SER_GATE` (R8). -/
def serGate (c : Config) : Desc := gateDesc (apbGateReg c.serGateBank) c.serGateBit

/-! Constraints. -/

def ahbShiftList (t : AhbShifts) : List Nat := [t.div2, t.div4, t.div8, t.div16, t.div64, t.div128, t.div256, t.div512]

def apbShiftList (t : ApbShifts) : List Nat := [t.div2, t.div4, t.div8, t.div16]

/-- "injective on the enumeration" (R8, R144), the shift of `DIV1` being 0. -/
def injectiveWithZero : List Nat → Bool
  | [] => true
  | a :: rest => a != 0 && rest.all (a != ·) && injectiveWithZero rest

/-- The shift tables are injective and their counts are in the ranges of `x[4]`, "0 to 9", and of `x[5]` and `x[6]`, "0 to 4" (R21; entry 20). -/
def shiftsOk (c : Config) : Bool :=
  injectiveWithZero (ahbShiftList c.ahbShifts) && (ahbShiftList c.ahbShifts).all (fun n => decide (n ≤ 9)) &&
  injectiveWithZero (apbShiftList c.apbShifts) && (apbShiftList c.apbShifts).all (fun n => decide (n ≤ 4))

/-- The ranges of the table of R8. -/
def rangesOk (c : Config) : Bool :=
  decide (0 < c.hsiHz.toNat) && decide (0 < c.hseHz.toNat) &&
  decide (c.vcoOutMin ≤ 336000000) && decide (336000000 ≤ c.vcoOutMax) && decide (c.vcoOutMax < 2 ^ 32) &&
  decide (1 ≤ c.mMin) && decide (c.mMin ≤ c.mMax) && decide (c.mMax ≤ 63) &&
  decide (c.nMin ≤ c.nMax) && decide (c.nMax ≤ 511) &&
  decide (c.qMin ≤ c.qMax) && decide (c.qMax ≤ 15) &&
  decide (1 ≤ c.txCap) && decide (c.txCap ≤ 65535) && decide (1 ≤ c.rxCap) && decide (c.rxCap ≤ 65535) && shiftsOk c

/-- The registers a named field may lie in: those of its own engine's block (R71, R120), but the enable registers, all of whose 32 bits are
clock gates (R34, R62), and `SER_DR`, which is no register of fields (R125). -/
def mayHold (f : Field) : Reg → Bool
  | .rccCr | .rccPllcfgr | .rccCfgr => !regOfSer (fieldReg f)
  | .serCr1 | .serCr2 | .serSr => regOfSer (fieldReg f)
  | .rccAhb1enr | .rccAhb2enr | .rccAhb3enr | .rccApb1enr | .rccApb2enr | .serDr => false

/-- Fields fit their word, lie where their engine's fields may lie, and two fields of one register do not overlap (R62); the two
fields that `TSTB` tests are one bit wide (R122, R150, R151). -/
def fieldsOk (c : Config) : Bool :=
  (desc c .pllon).tstbOk && (desc c .pllrdy).tstbOk &&
  allFields.all fun f => (desc c f).wf && mayHold f (desc c f).reg && allFields.all fun g => f == g || (desc c f).apart (desc c g)

/-- Register addresses are multiples of 4 and no two registers share one (R8, R60, R62). A block that runs past the last address and
goes on at 0 is accepted as long as its addresses are (DESIGN CHOICE: entry 24). -/
def addressesOk (c : Config) : Bool :=
  c.rccBase.toNat % 4 == 0 && c.serBase.toNat % 4 == 0 &&
  allRegs.all fun r => (regAddr c r).toNat % 4 == 0 && allRegs.all fun q => r == q || regAddr c r != regAddr c q

/-- `P_FD`: the descriptor table is well formed (R19, R62). -/
def fdOk (c : Config) : Bool := fieldsOk c && addressesOk c

/-- `P_PARAMS` and `P_FD` together (R19): the launches a model accepts (93 U11, U23). -/
def configOk (c : Config) : Bool := rangesOk c && fdOk c

/-- The accepted launches whose table keeps every field in the register R31 to R36 name for it, wide enough for its legal values, and
flags one bit wide: those in which each rule that names a register or a code reads as it stands (entry 13). -/
def layoutOk (c : Config) : Bool :=
  configOk c && allFields.all fun f =>
    (desc c f).reg == fieldReg f && decide (fieldWidth f ≤ (desc c f).width) && (fieldWidth f != 1 || (desc c f).width == 1)

/-! Who may write which bit of a register (R66). -/

/-- Who sets a field's bits: software, the hardware, or the hardware with software only clearing (R31 to R36, "access"). -/
def fieldAccess : Field → Access
  | .pllrdy | .sws | .rxne | .txe | .modf | .ovr => .hardware
  | .crcerr => .clearOnly
  | .pllon | .pllm | .plln | .pllp | .pllsrc | .pllq | .sw | .hpre | .ppre1 | .ppre2
  | .br | .spe | .errie | .rxneie | .txeie => .software

/-- The bits of a register that fields of the given access occupy. -/
def accessMask (c : Config) (a : Access) (r : Reg) : Word :=
  allFields.foldl (fun m f => if fieldAccess f = a ∧ (desc c f).reg = r then m ||| fieldMask (desc c f) else m) 0

/-- The bits that a software write can clear and not set: `CRCERR` (R36, R68 c). -/
def clearOnlyBits (c : Config) (r : Reg) : Word := accessMask c .clearOnly r

/-- The bits that a software write leaves as they are (R66): the hardware's fields; in `SER_SR` the unnamed bits as well. -/
def hardwareBits (c : Config) (r : Reg) : Word :=
  if r = .serSr then ~~~(accessMask c .software r ||| accessMask c .clearOnly r) else accessMask c .hardware r

/-! Reset words (R50): the named fields at their reset values, every other bit as `RCC_OTHER` and `SER_OTHER` say. -/

/-- The reset value of a named field (R31, R32, R33, R35, R36, R50). -/
def resetValue : Field → Word
  | .pllm => 16
  | .plln => 192
  | .pllq => 4
  | .txe => 1
  | .pllon | .pllrdy | .pllp | .pllsrc | .sw | .sws | .hpre | .ppre1 | .ppre2
  | .br | .spe | .errie | .rxneie | .txeie | .rxne | .crcerr | .modf | .ovr => 0

/-- A register's word after reset, from its launch parameter: every named field of it at its reset value. -/
def resetWord (c : Config) (r : Reg) (other : Word) : Word :=
  allFields.foldl (fun w f => if (desc c f).reg = r then insertField (desc c f) w (resetValue f) else w) other

/-- The clock register block after reset (R31 to R34, R50). -/
def resetRcc (c : Config) : RccRegs :=
  { c.rccOther with
    cr := resetWord c .rccCr c.rccOther.cr
    pllcfgr := resetWord c .rccPllcfgr c.rccOther.pllcfgr
    cfgr := resetWord c .rccCfgr c.rccOther.cfgr }

/-- The serial register block after reset (R35, R36, R50). The data latches are launch parameters. -/
def resetSer (c : Config) : SerRegs :=
  { c.serOther with
    cr1 := resetWord c .serCr1 c.serOther.cr1
    cr2 := resetWord c .serCr2 c.serOther.cr2
    sr := resetWord c .serSr c.serOther.sr }

/-! Defaults. -/

/-- The table of R31, R32, R33, R35 and R36: the STM32F4 placement, which the spec names as the default (entry 6). -/
def defaultFields : FieldTable where
  pllon := ⟨.rccCr, 24, 1⟩
  pllrdy := ⟨.rccCr, 25, 1⟩
  pllm := ⟨.rccPllcfgr, 0, 6⟩
  plln := ⟨.rccPllcfgr, 6, 9⟩
  pllp := ⟨.rccPllcfgr, 16, 2⟩
  pllsrc := ⟨.rccPllcfgr, 22, 1⟩
  pllq := ⟨.rccPllcfgr, 24, 4⟩
  sw := ⟨.rccCfgr, 0, 2⟩
  sws := ⟨.rccCfgr, 2, 2⟩
  hpre := ⟨.rccCfgr, 4, 4⟩
  ppre1 := ⟨.rccCfgr, 10, 3⟩
  ppre2 := ⟨.rccCfgr, 13, 3⟩
  br := ⟨.serCr1, 3, 3⟩
  spe := ⟨.serCr1, 6, 1⟩
  errie := ⟨.serCr2, 5, 1⟩
  rxneie := ⟨.serCr2, 6, 1⟩
  txeie := ⟨.serCr2, 7, 1⟩
  rxne := ⟨.serSr, 0, 1⟩
  txe := ⟨.serSr, 1, 1⟩
  crcerr := ⟨.serSr, 4, 1⟩
  modf := ⟨.serSr, 5, 1⟩
  ovr := ⟨.serSr, 6, 1⟩

/-- The register offsets of R30 (entry 6). -/
def defaultRegOffsets : RegOffsets :=
  { rccCr := 0x00, rccPllcfgr := 0x04, rccCfgr := 0x08, rccAhb1enr := 0x30, rccAhb2enr := 0x34, rccAhb3enr := 0x38,
    rccApb1enr := 0x40, rccApb2enr := 0x44, serCr1 := 0x00, serCr2 := 0x04, serSr := 0x08, serDr := 0x0C }

/-- The defaults of R8. The shift tables are those of R144 and R145. `TX_CAP` and `RX_CAP` have none: 4 and 2 are the model's choice (DESIGN CHOICE, entry 2); the
launch values of unnamed bits and data latches are 0 (DESIGN CHOICE, entries 3 and 4). -/
def defaultConfig : Config :=
  { hsiHz := 16000000, hseHz := 8000000, hseReady := true,
    vcoInMin := 2000000, vcoInMax := 4000000, vcoOutMin := 100000000, vcoOutMax := 432000000,
    mMin := 2, mMax := 63, nMin := 50, nMax := 432, qMin := 2, qMax := 15,
    rccBase := 0x40023800, serBase := 0x40013000,
    fd := defaultFields, regOff := defaultRegOffsets,
    serBus := .apb2, serGateBank := .bank2, serGateBit := 12,
    txCap := 4, rxCap := 2, ahbShifts := ⟨1, 2, 3, 4, 6, 7, 8, 9⟩, apbShifts := ⟨1, 2, 3, 4⟩,
    rccOther := ⟨0, 0, 0, 0, 0, 0, 0, 0⟩, serOther := ⟨0, 0, 0, 0, 0⟩ }

end Sys2Proof.Machine
end

