-- ==== Sys2Proof/Machine/State.lean ====
section
/-! DEFINITION. Everything the spec gives the machine, as plain data (10_state R20), the outcomes' reasons, and the state
after reset (R50, R271). -/
namespace Sys2Proof.Machine

/-- Why the model stops at a step whose behaviour the spec leaves undefined and calls a fault (93_implementation_defined).
Each is safe: the model stops where the hardware goes on in a way no source describes. -/
inductive Fault where
  /-- U1, R152, R282: raised by `SET_SYSCLK PLL` while `PLLRDY` is 0. Safe. -/
  | pllNotReady
  /-- U5, R141: raised by `SAVE_CLK` when `SWS` reads 3. Safe. -/
  | reservedClockStatus
  /-- U6, R141: raised by `SAVE_CLK` when `SWS` reads 2 and `PLLM` reads 0. Safe. -/
  | livePllMZero
  /-- U9, R283: raised by `SER_INIT`, `SER_SEND` and every handler step while the clock gate `SER_GATE` is 0. Safe. -/
  | serClockGatedOff
deriving DecidableEq, Repr, Inhabited

/-- Why the model does not accept a program or a launch (93_implementation_defined, "refuse"). Each is safe: nothing is
claimed of such a run. -/
inductive Refusal where
  /-- An instruction without a meaning. No arm of `exec` answers it. Safe. -/
  | notModelled (mnemonic : String)
  /-- U2, R281: raised by `CFG_PLL` while `SW` or `SWS` selects the PLL. Safe. -/
  | pllInUse
  /-- U8, R287: raised by `SER_SEND`, `SER_RECV` and the delivery of a pending cause while `ser_inited` is 0. Safe. -/
  | serNotInitialised
  /-- U8, R287: raised by `SER_INIT` while `ser_inited` is 1. Safe. -/
  | serAlreadyInitialised
  /-- U10, R99: raised when a placed event carries code 5, 6 or 7. Safe. -/
  | reservedEvent
  /-- U11, U23, R8, R62: raised by every step of a machine whose parameters break their constraints. Safe. -/
  | illFormedParameters
deriving DecidableEq, Repr, Inhabited

/-- The sequencer state, which stands for a program counter (R24). -/
inductive Seq where
  | idle
  | pllWait
  | swWait
deriving DecidableEq, Repr, Inhabited

/-- `ser_state` (R45). -/
inductive SerState where
  | idle
  | transmitting
  | receiving
  | error
deriving DecidableEq, Repr, Inhabited

/-- Response status (R98). -/
inductive Status where
  | ok
  | configError
  | bufferFull
  | bufferEmpty
  | illegalCommand
deriving DecidableEq, Repr, Inhabited

/-- What the response port holds (R25, R97). -/
structure Response where
  status : Status
  value : Word
deriving DecidableEq, Repr, Inhabited

/-- A bounded buffer: a capacity and a sequence of bytes, the head first out (R40). -/
structure Fifo where
  cap : Nat
  q : List Byte
deriving DecidableEq, Repr, Inhabited

/-- The Clock Speed Snapshot, `x[0]` to `x[6]` (R21). -/
structure Snapshot where
  systemClock : Word
  ahb : Word
  apb1 : Word
  apb2 : Word
  ahbScaler : Word
  apb1Scaler : Word
  apb2Scaler : Word
deriving DecidableEq, Repr, Inhabited

/-- A step placed from outside: a turn of the application, a code on the event port, or a hardware step (R6, R99, R100). -/
inductive Turn where
  | app
  | event (code : BitVec 3)
  | env (e : EnvStep)
deriving DecidableEq, Repr, Inhabited

/-- The state of the block (R20), its parameters (R8), and the model's own three fields: the words offered on the command
port, the steps placed to come next, and the counter of free values drawn (entries 7, 8, 12). -/
structure State where
  /-- The parameters of R8; no step changes them (R274). -/
  cfg : Config
  /-- `x[0..6]` (R21). -/
  snap : Snapshot
  /-- `x[7]` (R21). -/
  pllOscHz : Word
  /-- `x[8]` (R21, R47). -/
  faultCount : Word
  /-- `x[9]` (R21, R47). -/
  overrunCount : Word
  /-- R24. -/
  seq : Seq
  /-- The command latch; `none` when no command is in flight (R25). -/
  op : Option Instr
  /-- The response port; `none` before the first response (R25, R37). -/
  resp : Option Response
  /-- The clock register block (R30 to R34). -/
  rcc : RccRegs
  /-- The serial register block with `dr_rx` and `dr_tx` (R30, R35, R36, R48). -/
  ser : SerRegs
  /-- R44. -/
  txFifo : Fifo
  /-- R44. -/
  rxFifo : Fifo
  /-- R45. -/
  serState : SerState
  /-- R46. -/
  serInited : Bool
  /-- R49. -/
  inHandler : Bool
  /-- All bytes written to `SER_DR` since reset, oldest first (R48). -/
  txWire : List Byte
  /-- MODEL: words offered on the command port and not yet taken (R90; entry 8). -/
  cmdIn : List CmdWord
  /-- MODEL: the steps placed from outside, the next one first (entry 7). -/
  turns : List Turn
  /-- MODEL: how many free values have been drawn (entries 7, 12). -/
  draws : Nat
deriving DecidableEq, Repr

/-- The state after reset of a machine with the given parameters (R50, R271): nothing offered, nothing placed. -/
def State.resetFrom (c : Config) : State where
  cfg := c
  snap := ⟨c.hsiHz, c.hsiHz, c.hsiHz, c.hsiHz, 0, 0, 0⟩
  pllOscHz := c.hsiHz
  faultCount := 0
  overrunCount := 0
  seq := .idle
  op := none
  resp := none
  rcc := resetRcc c
  ser := resetSer c
  txFifo := ⟨c.txCap, []⟩
  rxFifo := ⟨c.rxCap, []⟩
  serState := .idle
  serInited := false
  inHandler := false
  txWire := []
  cmdIn := []
  turns := []
  draws := 0

/-- The machine right after reset, with the default parameters (R8, R50). -/
def State.reset : State := State.resetFrom defaultConfig

end Sys2Proof.Machine
end

