-- ==== Sys2Proof/Machine/Ops.lean ====
section
/-! DEFINITION. The named operations: register words with their side effects (20_memory R63 to R70), the Register Access
Layer on them (40_register_access R120 to R126), data registers (10_state R21), bounded buffers (R40 to R43), the response
(00_scope R12), and taking an interrupt and returning from it (60_exceptions R250 to R257). -/
namespace Sys2Proof.Machine

/-- The outcome of a meaning. -/
abbrev Result := Host.Outcome State Fault Refusal

/-- Runs `k` on the next state; a stop stays a stop. -/
def andThen (r : Result) (k : State → Result) : Result :=
  match r with
  | .next s => k s
  | .fault f => .fault f
  | .refused why => .refused why

/-! Register words. -/

/-- The current word of a register; for `SER_DR` the word a read returns (R36, R67), with `DATA` at bits 7 to 0 in every launch (DESIGN
CHOICE: entry 28). -/
def State.word (s : State) : Reg → Word
  | .rccCr => s.rcc.cr
  | .rccPllcfgr => s.rcc.pllcfgr
  | .rccCfgr => s.rcc.cfgr
  | .rccAhb1enr => s.rcc.ahb1enr
  | .rccAhb2enr => s.rcc.ahb2enr
  | .rccAhb3enr => s.rcc.ahb3enr
  | .rccApb1enr => s.rcc.apb1enr
  | .rccApb2enr => s.rcc.apb2enr
  | .serCr1 => s.ser.cr1
  | .serCr2 => s.ser.cr2
  | .serSr => s.ser.sr
  | .serDr => s.ser.drRx.setWidth 32

/-- Stores a whole word with no side effect. `SER_DR` has no storage of its own, so storing there changes nothing. -/
def State.setWord (s : State) (r : Reg) (v : Word) : State :=
  match r with
  | .rccCr => { s with rcc := { s.rcc with cr := v } }
  | .rccPllcfgr => { s with rcc := { s.rcc with pllcfgr := v } }
  | .rccCfgr => { s with rcc := { s.rcc with cfgr := v } }
  | .rccAhb1enr => { s with rcc := { s.rcc with ahb1enr := v } }
  | .rccAhb2enr => { s with rcc := { s.rcc with ahb2enr := v } }
  | .rccAhb3enr => { s with rcc := { s.rcc with ahb3enr := v } }
  | .rccApb1enr => { s with rcc := { s.rcc with apb1enr := v } }
  | .rccApb2enr => { s with rcc := { s.rcc with apb2enr := v } }
  | .serCr1 => { s with ser := { s.ser with cr1 := v } }
  | .serCr2 => { s with ser := { s.ser with cr2 := v } }
  | .serSr => { s with ser := { s.ser with sr := v } }
  | .serDr => s

/-- The descriptor of a named field in this machine's `FD`. -/
def State.desc (s : State) (f : Field) : Desc := Machine.desc s.cfg f

/-- The value of a named field, read without a bus access. -/
def State.field (s : State) (f : Field) : Word := extractField (s.desc f) (s.word (s.desc f).reg)

/-- A one-bit named field as a truth value. -/
def State.flag (s : State) (f : Field) : Bool := s.field f == 1

/-- The hardware sets a field it owns: no software write rule applies (44 R220, R224). -/
def State.hwSet (s : State) (f : Field) (v : Word) : State :=
  s.setWord (s.desc f).reg (insertField (s.desc f) (s.word (s.desc f).reg) v)

/-- `RegRead(R)`: one bus read of a whole word. A read of `SER_DR` sets `RXNE <- 0`; no other read changes anything (R67). -/
def regRead (r : Reg) (s : State) : Word × State :=
  match r with
  | .serDr => (s.word .serDr, s.hwSet .rxne 0)
  | r => (s.word r, s)

/-- The word a register holds after a software write (R66, R68 c): the hardware's bits as before, `CRCERR` cleared or left as it is, every
other bit as written. -/
def writtenWord (c : Config) (r : Reg) (old v : Word) : Word :=
  keepBits (hardwareBits c r) old (v &&& (old ||| ~~~(clearOnlyBits c r)))

/-- `RegWrite(R, v)`: one bus write of a whole word, with hardware-owned bits kept (R66) and the side effects of R68. The effects
of a field follow it to the register the descriptor table gives it (entries 13 and 16); `SER_DR`'s `DATA` is at bits 7 to 0 in every launch
(DESIGN CHOICE: entry 28). -/
def regWrite (r : Reg) (v : Word) (s : State) : State :=
  match r with
  | .serDr =>
    let b : Byte := v.setWidth 8
    let s1 := { s with ser := { s.ser with drTx := b }, txWire := s.txWire ++ [b] }
    s1.hwSet .txe 0
  | r =>
    let s1 := s.setWord r (writtenWord s.cfg r (s.word r) v)
    if (s.desc .pllon).reg = r ∧ extractField (s.desc .pllon) v = 0 then s1.hwSet .pllrdy 0 else s1

/-- The register mapped at an address, if any (R60). -/
def regAt (c : Config) (addr : Word) : Option Reg := allRegs.find? fun r => regAddr c r == addr

/-- `MemRead(addr, 4)` (R11). `none`: no rule gives an unmapped address a value and no instruction names one (R64). -/
def memRead (addr : Word) (s : State) : Option (Word × State) := (regAt s.cfg addr).map fun r => regRead r s

/-- `MemWrite(addr, 4, v)` (R11, R66). `none`: as for `memRead` (R64). -/
def memWrite (addr : Word) (v : Word) (s : State) : Option State := (regAt s.cfg addr).map fun r => regWrite r v s

/-! The Register Access Layer. -/

/-- `RDF` with the state its bus read leaves (R120): the state is unchanged but for a descriptor in `SER_DR`, which R125 excludes. -/
def rdfBus (d : Desc) (s : State) : Word × State :=
  let r := regRead d.reg s
  (extractField d r.1, r.2)

/-- `RDF(F)` (R120): the value alone; every descriptor it is used with is outside `SER_DR` (R125). -/
def rdf (d : Desc) (s : State) : Word := (rdfBus d s).1

/-- `WRF(F, v)` (R121): read the full word, replace exactly the field, write the full word back. -/
def wrf (d : Desc) (v : Word) (s : State) : State :=
  let r := regRead d.reg s
  regWrite d.reg (insertField d r.1 v) r.2

/-- `TSTB(F)` (R122). -/
def tstb (d : Desc) (s : State) : Bool := rdf d s == 1

/-- `RDF` of a named field. -/
def rdfF (f : Field) (s : State) : Word := rdf (s.desc f) s

/-- `WRF` of a named field. -/
def wrfF (f : Field) (v : Word) (s : State) : State := wrf (s.desc f) v s

/-- `TSTB` of a named field. -/
def tstbF (f : Field) (s : State) : Bool := tstb (s.desc f) s

/-! Data registers. -/

/-- `x[i]` (R11, R21). -/
def State.x (s : State) (i : Fin 10) : Word :=
  match i with
  | 0 => s.snap.systemClock
  | 1 => s.snap.ahb
  | 2 => s.snap.apb1
  | 3 => s.snap.apb2
  | 4 => s.snap.ahbScaler
  | 5 => s.snap.apb1Scaler
  | 6 => s.snap.apb2Scaler
  | 7 => s.pllOscHz
  | 8 => s.faultCount
  | 9 => s.overrunCount

/-- `x[8] <- (x[8] + 1) mod 2^32` (R47). -/
def countFault (s : State) : State := { s with faultCount := s.faultCount + 1 }

/-- `x[9] <- (x[9] + 1) mod 2^32` (R47). -/
def countOverrun (s : State) : State := { s with overrunCount := s.overrunCount + 1 }

/-- `ser_state <- v` (R45). -/
def setSerState (v : SerState) (s : State) : State := { s with serState := v }

/-- `zext_32(v)` (R10): the number itself where it fits 32 bits; where it does not, R10 leaves it undefined, so the word is
a free value and the draw counter advances (DESIGN CHOICE: entry 12, safe). -/
def zext32 (v : Nat) (s : State) : Word × State :=
  if v < 2 ^ 32 then (BitVec.ofNat 32 v, s) else (Config.freeWord s.draws, { s with draws := s.draws + 1 })

/-! Bounded buffers. -/

/-- `b.size` (R40). -/
def Fifo.size (b : Fifo) : Nat := b.q.length

/-- `b.push(v)` (R41): `none` stands for `full`, and then the buffer is unchanged. -/
def Fifo.push (b : Fifo) (v : Byte) : Option Fifo :=
  if b.size < b.cap then some { b with q := b.q ++ [v] } else none

/-- `b.pop()` (R42): `none` stands for `empty`, and then the buffer is unchanged. -/
def Fifo.pop (b : Fifo) : Option (Byte × Fifo) :=
  match b.q with
  | [] => none
  | v :: rest => some (v, { b with q := rest })

/-- Pushes bytes in order; a push that finds the buffer full leaves it unchanged (R41, R183). -/
def Fifo.pushAll (b : Fifo) (vs : List Byte) : Fifo := vs.foldl (fun b v => (b.push v).getD b) b

/-! Completing a command. -/

/-- The 4-bit status code (R98). -/
def Status.code : Status → BitVec 4
  | .ok => 0
  | .configError => 1
  | .bufferFull => 2
  | .bufferEmpty => 3
  | .illegalCommand => 4

/-- The response word: status in [63:60], zero, value in [31:0] (R97). -/
def Response.toWord (r : Response) : CmdWord := r.status.code ++ 0#28 ++ r.value

/-- `respond(status, value)` (R12): places the response, ends the command in flight, `seq <- IDLE`. -/
def respond (status : Status) (value : Word) (s : State) : State :=
  { s with resp := some ⟨status, value⟩, seq := .idle, op := none }

/-- `raise <Error>` inside a command, the block's synchronous exception (R12, R240): the status of the response, value 0,
`seq <- IDLE`, and no other effect. There is no handler to go to and nothing to return from. -/
def raise (status : Status) (s : State) : State := respond status 0 s

/-- Latches a command that goes on in a wait state: `op <- this command; seq <- S` (R25, R150, R152). -/
def latch (i : Instr) (q : Seq) (s : State) : State := { s with op := some i, seq := q }

/-! Clock gate and interrupts. -/

/-- Bit `SER_GATE` of its enable register (R8, R283). -/
def serGateOn (s : State) : Bool := tstb (serGate s.cfg) s

/-- The flag of a cause in `SER_SR` (R250). -/
def causeFlag : Cause → Field
  | .txEmpty => .txe
  | .rxAvailable => .rxne
  | .overrun => .ovr
  | .modeFault => .modf
  | .crcError => .crcerr

/-- The enable of a cause in `SER_CR2` (R250). -/
def causeEnable : Cause → Field
  | .txEmpty => .txeie
  | .rxAvailable => .rxneie
  | .overrun | .modeFault | .crcError => .errie

/-- "A cause is pending exactly when its flag and its enable are both 1" (R250): level sensitive, recomputed in every state. -/
def pending (c : Cause) (s : State) : Bool := s.flag (causeFlag c) && s.flag (causeEnable c)

/-- Entry (R255): `in_handler <- 1`; nothing is saved. -/
def enterHandler (s : State) : State := { s with inHandler := true }

/-- Return (R256): `in_handler <- 0`; nothing is restored. -/
def leaveHandler (s : State) : State := { s with inHandler := false }

/-- Taking an interrupt, the one operation every event's meaning calls (R190, R250 to R257). A cause that is not pending, or
arrives inside the handler, is not delivered: no move (R252, 93 U19; entry 7). A delivery before a successful `SER_INIT` is refused (R287, U8), one
with the clock gate off faults (R283, U9); otherwise entry, the handler rule and return are one atomic step. -/
def takeInterrupt (c : Cause) (handler : State → State) (s : State) : Result :=
  if s.inHandler || !pending c s then .next s
  else if !s.serInited then .refused .serNotInitialised
  else if !serGateOn s then .fault .serClockGatedOff
  else .next (leaveHandler (handler (enterHandler s)))

end Sys2Proof.Machine
end

