-- ==== Sys2Proof/Machine/Operands.lean ====
section
/-! DEFINITION. Every operand form of the commands (30_encoding R93): what an operand selects and the word it is written as.
There are no register operands, no addressing modes and no scaled immediates (R91). -/
namespace Sys2Proof.Machine

/-- An enumerated operand as the register field code it equals (R93, 10_state R32, R33). -/
def srcWord (src : ClkSrc) : Word := src.code.setWidth 32

def pllSrcWord (src : PllSrc) : Word := src.code.setWidth 32

def pllPWord (p : PllP) : Word := p.code.setWidth 32

def ahbPreWord (pre : AhbPre) : Word := pre.code.setWidth 32

def apbPreWord (pre : ApbPre) : Word := pre.code.setWidth 32

/-- `x[which]`: the code of `GET_CLK.which` is the index of the register (R93, R159). -/
def clkSelIndex (which : ClkSel) : Fin 10 :=
  match which with
  | .system => 0
  | .ahb => 1
  | .apb1 => 2
  | .apb2 => 3

/-- The code of `ser_state` that `SER_STAT STATE` reports (R185). -/
def serStateCode : SerState → Word
  | .idle => 0
  | .transmitting => 1
  | .receiving => 2
  | .error => 3

/-- The number `SER_STAT sel` reports (R93, R185). -/
def statValue (sel : StatSel) (s : State) : Nat :=
  match sel with
  | .faults => (s.x 8).toNat
  | .overruns => (s.x 9).toNat
  | .txSize => s.txFifo.size
  | .rxSize => s.rxFifo.size
  | .state => (serStateCode s.serState).toNat

/-- The clock-gate field of `SET_AHB_CLK` (R157). -/
def ahbGate (bank : AhbBank) (bit : BitVec 5) : Desc := gateDesc (ahbGateReg bank) bit

/-- The clock-gate field of `SET_APB_CLK` (R158). -/
def apbGate (bank : ApbBank) (bit : BitVec 5) : Desc := gateDesc (apbGateReg bank) bit

end Sys2Proof.Machine
end

