-- ==== Sys2Proof/Machine/Flags.lean ====
section
/-! DEFINITION. The block has no condition codes (10_state R37); what it computes are frequencies (41_clock_tree R141 to
R146) and the baud-rate prescaler (42_serial R181). -/
namespace Sys2Proof.Machine

/-- `AHB_SHIFT` on the 4-bit register code (R144): nine settings; a code with its top bit clear is "no division" (93 U14). A
value that is no 4-bit code, which only a wider field can hold, has a free shift (entry 25). -/
def ahbShift (t : AhbShifts) (code : Nat) : Nat :=
  match code with
  | 8 => t.div2
  | 9 => t.div4
  | 10 => t.div8
  | 11 => t.div16
  | 12 => t.div64
  | 13 => t.div128
  | 14 => t.div256
  | 15 => t.div512
  | n => if n < 8 then 0 else (Config.freeShift n).toNat

/-- `APB_SHIFT` on the 3-bit register code (R145); a code with its top bit clear is "no division". A value that is no
3-bit code has a free shift (entry 25). -/
def apbShift (t : ApbShifts) (code : Nat) : Nat :=
  match code with
  | 4 => t.div2
  | 5 => t.div4
  | 6 => t.div8
  | 7 => t.div16
  | n => if n < 4 then 0 else (Config.freeShift n).toNat

/-- `pllfreq(osc, M, N, Pdiv) = ((osc / M) * N) / Pdiv`, left to right on natural numbers (R143). -/
def pllFreq (osc m n pdiv : Nat) : Nat := osc / m * n / pdiv

/-- The divisor value `Pdiv = 2 * (p + 1)` of a 2-bit code (R93, R143). -/
def pDiv (code : Nat) : Nat := 2 * (code + 1)

/-- `pll_valid` (R146), tested in the rule's order so that no division by zero is evaluated. -/
def pllValid (c : Config) (osc m n q : Nat) : Bool :=
  decide (c.mMin ≤ m) && decide (m ≤ c.mMax) &&
  decide (c.nMin ≤ n) && decide (n ≤ c.nMax) &&
  decide (c.qMin ≤ q) && decide (q ≤ c.qMax) &&
  decide (c.vcoInMin ≤ osc / m) && decide (osc / m ≤ c.vcoInMax) &&
  decide (c.vcoOutMin ≤ osc / m * n) && decide (osc / m * n ≤ c.vcoOutMax)

/-- `sys` of R141: the frequency of the source that `SWS` reports, or the reason there is none (93 U5, U6). -/
def systemHz (s : State) : Except Fault Nat :=
  match (rdfF .sws s).toNat with
  | 0 => .ok s.cfg.hsiHz.toNat
  | 1 => .ok s.cfg.hseHz.toNat
  | 2 =>
    let m := (rdfF .pllm s).toNat
    if m = 0 then .error .livePllMZero
    else .ok (pllFreq s.pllOscHz.toNat m (rdfF .plln s).toNat (pDiv (rdfF .pllp s).toNat))
  | _ => .error .reservedClockStatus

/-- `baud_select(f, t)` (R181): the least `k` in 1 to 8 with `f <= t * 2^k`, compared exactly. -/
def baudSelect (f t : Nat) : Option Nat := [1, 2, 3, 4, 5, 6, 7, 8].find? fun k => decide (f ≤ t * 2 ^ k)

/-- The peripheral bus frequency `SER_INIT` reads from the snapshot (R182). -/
def serBusHz (s : State) : Word :=
  match s.cfg.serBus with
  | .apb1 => s.x 2
  | .apb2 => s.x 3

end Sys2Proof.Machine
end

