-- ==== Sys2Proof/Machine/Clock.lean ====
section
/-! DEFINITION. The Clock-Tree Engine: `SAVE_CLK` and the eight clock commands with their wait steps (41_clock_tree). -/
namespace Sys2Proof.Machine

/-- The seven writes of `SAVE_CLK` from a system frequency and three shift counts, in one step (R141). A shift count always fits its data
register: those of an accepted table are at most 9 (R21), and a free one is a word (DESIGN CHOICE: entry 25). -/
def writeSnapshot (sys sa s1 s2 : Nat) (s : State) : State :=
  let x0 := zext32 sys s
  let x1 := zext32 (sys >>> sa) x0.2
  let x2 := zext32 (sys >>> sa >>> s1) x1.2
  let x3 := zext32 (sys >>> sa >>> s2) x2.2
  { x3.2 with snap := ⟨x0.1, x1.1, x2.1, x3.1, BitVec.ofNat 32 sa, BitVec.ofNat 32 s1, BitVec.ofNat 32 s2⟩ }

/-- `SAVE_CLK` (R141): recomputes `x[0..6]` from the live registers and `x[7]`. -/
def saveClk (s : State) : Result :=
  match systemHz s with
  | .error f => .fault f
  | .ok sys =>
    .next (writeSnapshot sys (ahbShift s.cfg.ahbShifts (rdfF .hpre s).toNat) (apbShift s.cfg.apbShifts (rdfF .ppre1 s).toNat)
      (apbShift s.cfg.apbShifts (rdfF .ppre2 s).toNat) s)

/-- The end of every configuring command: `SAVE_CLK; respond(OK, 0)` (R151, R153 to R156). -/
def saveAndRespond (s : State) : Result := andThen (saveClk s) fun t => .next (respond .ok 0 t)

/-- The PLL is selected or active: `SW = 2` or `SWS = 2` (R281). -/
def pllInUse (s : State) : Bool := rdfF .sw s == 2 || rdfF .sws s == 2

/-- The register writes of a valid `CFG_PLL`, in R150's order: stop the PLL if it runs, M, N, P, Q, source, `x[7]`, start. -/
def startPll (src : PllSrc) (osc : Word) (m : BitVec 6) (n : BitVec 9) (p : PllP) (q : BitVec 4) (s : State) : State :=
  let s := if tstbF .pllon s then wrfF .pllon 0 s else s
  let s := wrfF .pllm (m.setWidth 32) s
  let s := wrfF .plln (n.setWidth 32) s
  let s := wrfF .pllp (pllPWord p) s
  let s := wrfF .pllq (q.setWidth 32) s
  let s := wrfF .pllsrc (pllSrcWord src) s
  let s := { s with pllOscHz := osc }
  wrfF .pllon 1 s

/-- `CFG_PLL`, first step (R146, R150). Refused while the PLL is in use (R281, 93 U2; entry 10). -/
def execCfgPll (src : PllSrc) (osc : Word) (m : BitVec 6) (n : BitVec 9) (p : PllP) (q : BitVec 4) (s : State) : Result :=
  if pllInUse s then .refused .pllInUse
  else if pllValid s.cfg osc.toNat m.toNat n.toNat q.toNat then
    .next (latch (.cfgPll src osc m n p q) .pllWait (startPll src osc m n p q s))
  else .next (raise .configError s)

/-- `CFG_PLL`, wait step (R151): repeats without limit while `PLLRDY` is 0. -/
def cfgPllWait (s : State) : Result := if tstbF .pllrdy s then saveAndRespond s else .next s

/-- `SET_SYSCLK`, first step (R152). Selecting a PLL that is not ready faults (93 U1). -/
def execSetSysclk (src : ClkSrc) (s : State) : Result :=
  if src == .pll && !tstbF .pllrdy s then .fault .pllNotReady
  else .next (latch (.setSysclk src) .swWait (wrfF .sw (srcWord src) s))

/-- The target the latch holds for the wait step of `SET_SYSCLK`; `none` for a latch that holds no such command, which no
run reaches (entry 17). -/
def opTarget (s : State) : Option Word :=
  match s.op with
  | some (.setSysclk src) => some (srcWord src)
  | _ => none

/-- `SET_SYSCLK`, wait step (R153): repeats without limit until `SWS` is the target. -/
def setSysclkWait (s : State) : Result := if some (rdfF .sws s) = opTarget s then saveAndRespond s else .next s

/-- `CFG_AHB` (R154). -/
def execCfgAhb (pre : AhbPre) (s : State) : Result := saveAndRespond (wrfF .hpre (ahbPreWord pre) s)

/-- `CFG_APB1` (R155). -/
def execCfgApb1 (pre : ApbPre) (s : State) : Result := saveAndRespond (wrfF .ppre1 (apbPreWord pre) s)

/-- `CFG_APB2` (R156). -/
def execCfgApb2 (pre : ApbPre) (s : State) : Result := saveAndRespond (wrfF .ppre2 (apbPreWord pre) s)

/-- `SET_AHB_CLK` (R157): sets the one bit to `en`; no frequency changes, so no `SAVE_CLK`. -/
def execSetAhbClk (bank : AhbBank) (bit : BitVec 5) (en : Bool) (s : State) : Result :=
  .next (respond .ok 0 (wrf (ahbGate bank bit) (bitValue en) s))

/-- `SET_APB_CLK` (R158). -/
def execSetApbClk (bank : ApbBank) (bit : BitVec 5) (en : Bool) (s : State) : Result :=
  .next (respond .ok 0 (wrf (apbGate bank bit) (bitValue en) s))

/-- `GET_CLK` (R159): the cached snapshot; no register access. -/
def execGetClk (which : ClkSel) (s : State) : Result := .next (respond .ok (s.x (clkSelIndex which)) s)

end Sys2Proof.Machine
end

