-- ==== Sys2Proof/Machine/Irq.lean ====
section
/-! DEFINITION. The interrupt handler's rule for each of the five causes (42_serial R190 to R196). Entry, masking and return
are `takeInterrupt` in Machine/Ops.lean. -/
namespace Sys2Proof.Machine

/-- R191: sends the next byte, or, with the buffer empty, disables the interrupt and goes idle. -/
def handleTxEmpty (s : State) : State :=
  match s.txFifo.pop with
  | none => setSerState .idle (wrfF .txeie 0 s)
  | some (b, rest) => regWrite .serDr (b.setWidth 32) { s with txFifo := rest }

/-- R192: the data register is read whether or not there is room; a byte with no room is dropped and counted in `x[9]`. -/
def handleRxAvailable (s : State) : State :=
  let saved := s.serState
  let r := regRead .serDr (setSerState .receiving s)
  let s := match r.2.rxFifo.push (r.1.setWidth 8) with
    | some b => { r.2 with rxFifo := b }
    | none => countOverrun r.2
  setSerState saved s

/-- The sequence "read the data register, then read the status register", which clears `OVR` (R67, R193). -/
def clearOverrun (s : State) : State :=
  let r := regRead .serDr s
  let r := regRead .serSr r.2
  r.2.hwSet .ovr 0

/-- The sequence "read the status register, then write control register 1" with its own value, which clears `MODF` (R67, R194). -/
def clearModeFault (s : State) : State :=
  let r := regRead .serSr s
  let r := regRead .serCr1 r.2
  (regWrite .serCr1 r.1 r.2).hwSet .modf 0

/-- R193. -/
def handleOverrun (s : State) : State := setSerState .idle (countFault (clearOverrun (setSerState .error s)))

/-- R194. -/
def handleModeFault (s : State) : State := setSerState .idle (countFault (clearModeFault (setSerState .error s)))

/-- R195: writing 0 to `CRCERR` clears it. -/
def handleCrcError (s : State) : State := setSerState .idle (countFault (wrfF .crcerr 0 (setSerState .error s)))

/-- `IRQ.TX_EMPTY` (R191). -/
def execIrqTxEmpty (s : State) : Result := takeInterrupt .txEmpty handleTxEmpty s

/-- `IRQ.RX_AVAILABLE` (R192). -/
def execIrqRxAvailable (s : State) : Result := takeInterrupt .rxAvailable handleRxAvailable s

/-- `IRQ.OVERRUN` (R193). -/
def execIrqOverrun (s : State) : Result := takeInterrupt .overrun handleOverrun s

/-- `IRQ.MODE_FAULT` (R194). -/
def execIrqModeFault (s : State) : Result := takeInterrupt .modeFault handleModeFault s

/-- `IRQ.CRC_ERROR` (R195). -/
def execIrqCrcError (s : State) : Result := takeInterrupt .crcError handleCrcError s

end Sys2Proof.Machine
end

