-- ==== Sys2Proof/Machine/Serial.lean ====
section
/-! DEFINITION. The Serial Engine's four commands (42_serial R182 to R185). -/
namespace Sys2Proof.Machine

/-- The register writes of a successful `SER_INIT`, in R182's order: prescaler, interrupt enables, peripheral enable last. -/
def startSerial (k : Nat) (s : State) : State :=
  let s := wrfF .br (BitVec.ofNat 32 (k - 1)) s
  let s := wrfF .rxneie 1 s
  let s := wrfF .errie 1 s
  let s := wrfF .spe 1 s
  { s with serInited := true, serState := .idle }

/-- `SER_INIT` (R181, R182). A second one after a success is refused (R287, 93 U8); the clock gate off faults (R283, U9). -/
def execSerInit (target : Word) (s : State) : Result :=
  if s.serInited then .refused .serAlreadyInitialised
  else if !serGateOn s then .fault .serClockGatedOff
  else match baudSelect (serBusHz s).toNat target.toNat with
    | none => .next (raise .configError s)
    | some k => .next (respond .ok 0 (startSerial k s))

/-- The effect of a `SER_SEND` that fits: enqueue all, `TXEIE <- 1`, `transmitting` (R183). -/
def enqueue (data : List Byte) (s : State) : State :=
  setSerState .transmitting (wrfF .txeie 1 { s with txFifo := s.txFifo.pushAll data })

/-- `SER_SEND` (R183): all or nothing. Before a successful `SER_INIT` it is refused (93 U8); the clock gate off faults (U9). -/
def execSerSend (size : BitVec 16) (data : List Byte) (s : State) : Result :=
  if !s.serInited then .refused .serNotInitialised
  else if !serGateOn s then .fault .serClockGatedOff
  else if s.txFifo.cap - s.txFifo.size < size.toNat then .next (raise .bufferFull s)
  else .next (respond .ok 0 (enqueue data s))

/-- `SER_RECV` (R184): pops one byte; touches no register, so the clock gate does not matter (93 U9). -/
def execSerRecv (s : State) : Result :=
  if !s.serInited then .refused .serNotInitialised
  else match s.rxFifo.pop with
    | none => .next (raise .bufferEmpty s)
    | some (b, rest) => .next (respond .ok (b.setWidth 32) { s with rxFifo := rest })

/-- `SER_STAT` (R185): reports and changes nothing but the response port; legal before `SER_INIT`. -/
def execSerStat (sel : StatSel) (s : State) : Result :=
  let v := zext32 (statValue sel s) s
  .next (respond .ok v.1 v.2)

end Sys2Proof.Machine
end

