-- ==== Sys2Proof/Machine/Dispatch.lean ====
section
/-! DEFINITION. The one dispatch: each instruction's meaning. A command's meaning is its first step; the wait steps of
`CFG_PLL` and `SET_SYSCLK` are taken by `appStep` in Machine/Agents.lean. -/
namespace Sys2Proof.Machine

def exec (i : Instr) (s : State) : Host.Outcome State Fault Refusal :=
  match i with
  | .cfgPll src osc m n p q => Sys2Proof.Machine.execCfgPll src osc m n p q s
  | .setSysclk src => Sys2Proof.Machine.execSetSysclk src s
  | .cfgAhb pre => Sys2Proof.Machine.execCfgAhb pre s
  | .cfgApb1 pre => Sys2Proof.Machine.execCfgApb1 pre s
  | .cfgApb2 pre => Sys2Proof.Machine.execCfgApb2 pre s
  | .setAhbClk bank bit en => Sys2Proof.Machine.execSetAhbClk bank bit en s
  | .setApbClk bank bit en => Sys2Proof.Machine.execSetApbClk bank bit en s
  | .getClk which => Sys2Proof.Machine.execGetClk which s
  | .serInit target => Sys2Proof.Machine.execSerInit target s
  | .serSend size data => Sys2Proof.Machine.execSerSend size data s
  | .serRecv => Sys2Proof.Machine.execSerRecv s
  | .serStat sel => Sys2Proof.Machine.execSerStat sel s
  | .irqTxEmpty => Sys2Proof.Machine.execIrqTxEmpty s
  | .irqRxAvailable => Sys2Proof.Machine.execIrqRxAvailable s
  | .irqOverrun => Sys2Proof.Machine.execIrqOverrun s
  | .irqModeFault => Sys2Proof.Machine.execIrqModeFault s
  | .irqCrcError => Sys2Proof.Machine.execIrqCrcError s

end Sys2Proof.Machine
end

