-- ==== Sys2Proof/Machine/Env.lean ====
section
/-! DEFINITION. The hardware agents `CLKENV` and `SERENV` (44_hardware_environment). A step that is not enabled is not taken. -/
namespace Sys2Proof.Machine

/-- `osc_ready(PLLSRC)` (R220): the internal oscillator always runs. A value other than 0 and 1, which only a wider field can hold, names
no ready oscillator (DESIGN CHOICE: entry 29). -/
def oscReady (s : State) : Bool := s.field .pllsrc == 0 || (s.field .pllsrc == 1 && s.cfg.hseReady)

/-- `src_ready(SW)` (R222). A value above 3, which only a wider field can hold, is no ready source (DESIGN CHOICE: entry 29). -/
def srcReady (s : State) : Bool :=
  match (s.field .sw).toNat with
  | 0 => true
  | 1 => s.cfg.hseReady
  | 2 => s.flag .pllrdy
  | _ => false

/-- The field `f` of `E_FAULT(f)` (R227). -/
def lineFaultField : LineFault → Field
  | .modf => .modf
  | .crcerr => .crcerr

/-- When a hardware step is enabled (R221, R222, R225, R226, R227). -/
def envEnabled (e : EnvStep) (s : State) : Bool :=
  match e with
  | .lock => s.flag .pllon && s.field .pllrdy == 0 && oscReady s
  | .switch => s.field .sw != s.field .sws && srcReady s
  | .txDone => s.flag .spe && s.field .txe == 0
  | .rxByte _ => s.flag .spe
  | .fault _ => s.flag .spe

/-- The effect of an enabled hardware step (R221, R222, R225, R226, R227). R226 gives `E_RXBYTE` for `RXNE` 0 and 1 only; any other value,
which only a wider field can hold, is taken as a byte waiting: `OVR` is set (DESIGN CHOICE: entry 29). -/
def envEffect (e : EnvStep) (s : State) : State :=
  match e with
  | .lock => s.hwSet .pllrdy 1
  | .switch => s.hwSet .sws (s.field .sw)
  | .txDone => s.hwSet .txe 1
  | .rxByte b =>
    if s.field .rxne = 0 then { s with ser := { s.ser with drRx := b } }.hwSet .rxne 1
    else s.hwSet .ovr 1
  | .fault f => s.hwSet (lineFaultField f) 1

/-- One turn of a hardware agent: no move where its step is not enabled. -/
def envStep (e : EnvStep) (s : State) : State := if envEnabled e s then envEffect e s else s

end Sys2Proof.Machine
end

