-- ==== Sys2Proof/Machine/Agents.lean ====
section
/-! DEFINITION. The four agents' turns (00_scope R6): how a command is taken from the command port (30_encoding R90, R95,
R96; 41 R140), how an event is taken from the event port (R99), and which agent moves next (entry 7). -/
namespace Sys2Proof.Machine

/-- Accepting a command in `IDLE` (R90, R140). With no whole command offered the application takes no step (R265; entry 8); an
illegal command is consumed whole and raises `ILLEGAL_COMMAND` (R95, R96, R244); a legal one runs its first step. -/
def acceptCommand (s : State) : Result :=
  match decode s.cmdIn with
  | .incomplete => .next s
  | .illegal _ rest => .next (raise .illegalCommand { s with cmdIn := rest })
  | .ok i rest => exec i { s with cmdIn := rest }

/-- One turn of agent `APP`: a command in `IDLE`, a poll in a wait state (R24, R25, R151, R153). -/
def appStep (s : State) : Result :=
  match s.seq with
  | .idle => acceptCommand s
  | .pllWait => cfgPllWait s
  | .swWait => setSysclkWait s

/-- One code on the event port (R99): the handler of its cause, or, for a reserved code, a refusal (93 U10). -/
def eventStep (code : BitVec 3) (s : State) : Result :=
  match Cause.ofCode code with
  | some c => exec c.instr s
  | none => .refused .reservedEvent

/-- A freely chosen move as a turn; the dispatcher never produces a reserved code (R99). -/
def moveTurn : Move → Turn
  | .app => .app
  | .irq c => .event c.code
  | .env e => .env e

/-- The turn an agent takes (R6). -/
def takeTurn (t : Turn) (s : State) : Result :=
  match t with
  | .app => appStep s
  | .event code => eventStep code s
  | .env e => .next (envStep e s)

/-- The turn of a machine with legal parameters; any other is refused (R8, R62; 93 U11, U23; entry 11). -/
def checkedTurn (t : Turn) (s : State) : Result := if configOk s.cfg then takeTurn t s else .refused .illFormedParameters

/-- Which agent moves next (R3, R14, R253, R254): the placed turn, or with none placed a free value (entry 7). -/
def turnAt (s : State) : Turn :=
  match s.turns with
  | t :: _ => t
  | [] => moveTurn (Config.freeMove s.draws)

/-- One step: the next turn is taken from the placed ones, or with none placed drawn freely, and the draw counter advances. -/
def runTurn (s : State) : Result :=
  match s.turns with
  | t :: rest => checkedTurn t { s with turns := rest }
  | [] => checkedTurn (moveTurn (Config.freeMove s.draws)) { s with draws := s.draws + 1 }

/-- Makes a cause deliverable: its flag and enable set (R250, R252), the serial engine initialised (R287) and clocked (R283), no handler running. -/
def raiseCause (c : Cause) (s : State) : State :=
  let g := serGate s.cfg
  let s := s.setWord g.reg (insertField g (s.word g.reg) 1)
  let s := (s.hwSet (causeFlag c) 1).hwSet (causeEnable c) 1
  { s with serInited := true, inHandler := false }

/-- Places one port input so that the very next step takes it (entry 9): the words of a command first on the command port, the
sequencer idle and the application's turn next; or an event code next, its cause deliverable. -/
def placeInput (p : PortInput) (s : State) : State :=
  match p with
  | .command ws => { s with seq := .idle, op := none, cmdIn := ws ++ s.cmdIn, turns := .app :: s.turns }
  | .event code =>
    let s := match Cause.ofCode code with
      | some c => raiseCause c s
      | none => s
    { s with turns := .event code :: s.turns }

end Sys2Proof.Machine
end

