-- ==== Sys2Proof/Machine/Step.lean ====
section
/-! DEFINITION. One step of the machine: one atomic transition of one agent (00_scope R3, R14). -/
namespace Sys2Proof.Machine

/-- The next turn is chosen and taken (R3, R6, R14). -/
def step (s : State) : Host.Outcome State Fault Refusal := Sys2Proof.Machine.runTurn s

/-- The state with a word of the opcode table placed where the very next step takes it (entry 9). -/
def State.withFetchWord (s : State) (nbits w : Nat) : State :=
  match tableInput nbits w with
  | some p => placeInput p s
  | none => s

end Sys2Proof.Machine
end

