-- ==== Sys2Proof/Machine/Run.lean ====
section
/-! DEFINITION. Runs and what is observed of them (44_hardware_environment R233): the responses in command order, `tx_wire`, and the final
state of a finite run. -/
namespace Sys2Proof.Machine

/-- The words of a list of commands, as they are offered on the command port (R90, R233). -/
def commandWords (cmds : List Instr) : List CmdWord :=
  cmds.flatMap fun i => match encode i with
    | .command ws => ws
    | .event _ => []

/-- The command the next step takes from the command port: the application's turn, in `IDLE`, with a whole legal command offered (R90, R140). -/
def issued (s : State) : Option Instr :=
  if turnAt s = .app ∧ s.seq = .idle then
    match decode s.cmdIn with
    | .ok i _ => some i
    | .illegal _ _ | .incomplete => none
  else none

/-- A finite run: the states it visits in order, each step giving the next (R233). -/
def IsFiniteRun : List State → Prop
  | [] => False
  | [_] => True
  | s :: t :: rest => step s = .next t ∧ IsFiniteRun (t :: rest)

/-- An infinite run: each state's step gives the next (R233). -/
def IsRun (r : Nat → State) : Prop := ∀ k, step (r k) = .next (r (k + 1))

/-- The first `n` states of a sequence of states. -/
def visitedTo (r : Nat → State) (n : Nat) : List State := (List.range n).map r

/-- The response a step gives, if it gives one. Only a response makes the sequencer idle at the end of a wait state, and in `IDLE` only
one follows a command's words at once (R12, R25). -/
def responded (s t : State) : Option Response :=
  if t.seq = .idle ∧ (s.seq ≠ .idle ∨ t.cmdIn.length < s.cmdIn.length) then t.resp else none

/-- The responses of the steps between the given states, in command order (R233). -/
def responses : List State → List Response
  | s :: t :: rest => (responded s t).toList ++ responses (t :: rest)
  | [_] => []
  | [] => []

/-- What is observed of a run (R233). -/
structure Observation where
  /-- The responses, in command order. -/
  responses : List Response
  /-- The bytes the run's first state had on the wire, and those sent in the run, oldest first. -/
  txWire : List Byte
  /-- The final state, for a finite run. -/
  final : Option State
deriving DecidableEq, Repr

/-- What a list of visited states shows of the wire: that of the last state, since `tx_wire` only grows (R48). -/
def wireOf (states : List State) : List Byte := (states.getLast?.map (fun s => s.txWire)).getD []

/-- The observation of a finite run. -/
def observe (states : List State) : Observation := ⟨responses states, wireOf states, states.getLast?⟩

/-- The observation of an infinite run as far as its first `n` states show it: there is no final state. -/
def observeTo (r : Nat → State) (n : Nat) : Observation := ⟨responses (visitedTo r n), wireOf (visitedTo r n), none⟩

/-- "A run has ended when every command of the list has responded, no cause is pending, `tx_fifo` is empty or `TXEIE = 0`, and no
`CLKENV` step is enabled" (R233), said of its last state: the list is used up and nothing is in flight. -/
def Ended (s : State) : Prop :=
  s.seq = .idle ∧ s.cmdIn = [] ∧ (∀ c, pending c s = false) ∧ (s.txFifo.q = [] ∨ s.field .txeie = 0) ∧
  envEnabled .lock s = false ∧ envEnabled .switch s = false

/-- A finite run under a list of commands that has ended (R233). -/
def EndedRun (cmds : List Instr) (states : List State) : Prop :=
  IsFiniteRun states ∧ (∃ s, states.head? = some s ∧ s.cmdIn = commandWords cmds) ∧ ∃ t, states.getLast? = some t ∧ Ended t

/-- "A run that stops with a command still in a wait state has not ended: it is a hang" (R233): the finite form. -/
def StoppedWaiting (states : List State) : Prop := IsFiniteRun states ∧ ∃ t, states.getLast? = some t ∧ t.seq ≠ .idle

/-- The hang of R246: an infinite run in which no command ever completes again. -/
def Hangs (r : Nat → State) (k : Nat) : Prop := IsRun r ∧ ∀ j, k ≤ j → (r j).seq ≠ .idle

end Sys2Proof.Machine
end

