-- ==== Sys2Proof/Safety.lean ====
section
/-! DEFINITION. The terms claims are stated in: the named premises of a run (00_scope R19), the boot order and the hazards a
program must respect (70 R273, R280 to R289), the invariants of the two engines (10_state R22, 41 R160), the properties of 41 R162, and
fairness (44 R232). Runs are in Machine/Run.lean. -/
namespace Sys2Proof.Safety

open Sys2Proof.Machine

/-! Premises of R19. -/

/-- `P_RESET`: the state is a reset state, for some launch parameters, with the given commands offered and steps placed. -/
def PReset (s : State) : Prop :=
  ∃ c words turns draws, s = { State.resetFrom c with cmdIn := words, turns := turns, draws := draws }

/-- `P_PARAMS` with `P_FD`. -/
def PParams (s : State) : Prop := configOk s.cfg = true

/-- `P_IDLE`: nothing in flight. -/
def PIdle (s : State) : Prop := s.seq = .idle ∧ s.inHandler = false ∧ ∀ c, pending c s = false

/-- `P_NOFAULT` for one step: it records no fault. -/
def NoFault (s : State) : Prop := ∀ f, step s ≠ .fault f

/-- The hazards of R281 to R284 and R287 that issuing a command, or delivering an event, must respect in the state it meets. The
others cannot be violated (R280, R285, R286, R288) or are premises of the launch (R289, `P_FD`). -/
def HazardFree (i : Instr) (s : State) : Prop :=
  match i with
  | .cfgPll .. => pllInUse s = false ∧ s.serInited = false
  | .setSysclk src => (src = .pll → tstbF .pllrdy s = true) ∧ (src = .hse → s.cfg.hseReady = true) ∧ s.serInited = false
  | .cfgAhb _ | .cfgApb1 _ | .cfgApb2 _ => s.serInited = false
  | .setApbClk bank bit en => bank = s.cfg.serGateBank → bit = s.cfg.serGateBit → s.serInited = true → en = true
  | .serInit _ => s.serInited = false ∧ serGateOn s = true
  | .serSend .. => s.serInited = true ∧ serGateOn s = true
  | .serRecv => s.serInited = true
  | .irqTxEmpty | .irqRxAvailable | .irqOverrun | .irqModeFault | .irqCrcError => s.serInited = true ∧ serGateOn s = true
  | .setAhbClk .. | .getClk _ | .serStat _ => True

/-- How far a list of commands has come in the boot order of R273. -/
structure BootStage where
  /-- Step 1: a `CFG_PLL` has been issued. -/
  pllConfigured : Bool
  /-- Step 4: `SER_GATE` has been switched on last. -/
  gateOn : Bool
  /-- Step 5: `SER_INIT` has been issued. -/
  serInitIssued : Bool
deriving DecidableEq, Repr

/-- The boot order of R273 for one more command: the stage after it, or none where the command comes out of order. R273 lists `CFG_PLL`
before `SET_SYSCLK`, and R281 shows a `SET_SYSCLK` of an oscillator before a `CFG_PLL` that changes settings: only `SET_SYSCLK PLL`
has to come after a `CFG_PLL`; `SET_SYSCLK HSI` or `HSE` may come before any (DESIGN CHOICE: entry 26). Clock set-up comes
before `SER_INIT` (R284); `SER_INIT` comes with `SER_GATE` on (R283), a second one only after a `CONFIG_ERROR`, as `HazardFree` asks;
sending and receiving come after it (R287); gates, `GET_CLK` and `SER_STAT` at any point, but for switching `SER_GATE` off once the serial
engine is in use (R18, R283). -/
def bootStep (c : Config) (b : BootStage) (i : Instr) : Option BootStage :=
  match i with
  | .cfgPll .. => if b.serInitIssued then none else some { b with pllConfigured := true }
  | .setSysclk src => if b.serInitIssued || (src == .pll && !b.pllConfigured) then none else some b
  | .cfgAhb _ | .cfgApb1 _ | .cfgApb2 _ => if b.serInitIssued then none else some b
  | .setApbClk bank bit en =>
    if bank = c.serGateBank ∧ bit = c.serGateBit then
      if b.serInitIssued && !en then none else some { b with gateOn := en }
    else some b
  | .serInit _ => if b.gateOn then some { b with serInitIssued := true } else none
  | .serSend .. | .serRecv => if b.serInitIssued then some b else none
  | .setAhbClk .. | .getClk _ | .serStat _ => some b
  | .irqTxEmpty | .irqRxAvailable | .irqOverrun | .irqModeFault | .irqCrcError => none

/-- A list of commands respects the boot order of R273 from a stage on. -/
def bootOrderFrom (c : Config) : BootStage → List Instr → Bool
  | _, [] => true
  | b, i :: rest =>
    match bootStep c b i with
    | some next => bootOrderFrom c next rest
    | none => false

/-- A list of commands respects the boot order of R273 from reset. -/
def bootOrder (c : Config) (cmds : List Instr) : Bool := bootOrderFrom c ⟨false, false, false⟩ cmds

/-- `P_BOOT` (R19): the list of commands respects the boot order, and every command of it that is issued in a state the run visits meets
no hazard there. -/
def PBoot (c : Config) (cmds : List Instr) (visited : State → Prop) : Prop :=
  bootOrder c cmds = true ∧ ∀ s, visited s → ∀ i, issued s = some i → HazardFree i s

/-- `P_BOOT` of a finite run. -/
def PBootFinite (c : Config) (cmds : List Instr) (states : List State) : Prop := PBoot c cmds (· ∈ states)

/-- `P_BOOT` of an infinite run. -/
def PBootRun (c : Config) (cmds : List Instr) (r : Nat → State) : Prop := PBoot c cmds fun s => ∃ k, s = r k

/-! The Clock-Tree Engine's invariants. -/

/-- The snapshot `SAVE_CLK` stores for a system frequency and three shift counts (R141), where the frequency fits 32 bits. -/
def snapshotOf (sys sa s1 s2 : Nat) : Snapshot :=
  ⟨BitVec.ofNat 32 sys, BitVec.ofNat 32 (sys >>> sa), BitVec.ofNat 32 (sys >>> sa >>> s1), BitVec.ofNat 32 (sys >>> sa >>> s2),
   BitVec.ofNat 32 sa, BitVec.ofNat 32 s1, BitVec.ofNat 32 s2⟩

/-- The three live shift counts, from the prescaler fields (R144, R145). -/
def liveShifts (s : State) : Nat × Nat × Nat :=
  (ahbShift s.cfg.ahbShifts (rdfF .hpre s).toNat, apbShift s.cfg.apbShifts (rdfF .ppre1 s).toNat,
   apbShift s.cfg.apbShifts (rdfF .ppre2 s).toNat)

/-- The snapshot the live registers and `x[7]` call for (R22, R141). -/
def liveSnapshot (sys : Nat) (s : State) : Snapshot := snapshotOf sys (liveShifts s).1 (liveShifts s).2.1 (liveShifts s).2.2

/-- The frequency of each clock source: the two parameters (R142), and for the PLL `pllfreq(x[7], M, N, 2 * (P + 1))` of the live fields
(R141, R143). -/
def sourceHz (src : ClkSrc) (s : State) : Nat :=
  match src with
  | .hsi => s.cfg.hsiHz.toNat
  | .hse => s.cfg.hseHz.toNat
  | .pll => s.pllOscHz.toNat / (s.field .pllm).toNat * (s.field .plln).toNat / (2 * ((s.field .pllp).toNat + 1))

/-- `SWS` reports the source, which has a frequency: the PLL has one where `PLLM` is not 0 (R141). -/
def ActiveSource (src : ClkSrc) (s : State) : Prop :=
  s.field .sws = src.code.setWidth 32 ∧ (src = .pll → s.field .pllm ≠ 0)

/-- The frequency of the source that `SWS` reports is `sys`, and it fits a data register (R141). -/
def HasSystemHz (s : State) (sys : Nat) : Prop := (∃ src, ActiveSource src s ∧ sys = sourceHz src s) ∧ sys < 2 ^ 32

/-- The snapshot invariant (R22): `x[0..6]` are what `SAVE_CLK` would compute. -/
def SnapshotFresh (s : State) : Prop := ∃ sys, HasSystemHz s sys ∧ s.snap = liveSnapshot sys s

/-- The latch goes with the sequencer state (R24, R25): nothing in flight in `IDLE`; a `CFG_PLL` in `PLL_WAIT`; a `SET_SYSCLK` in
`SW_WAIT`, whose target is what `SW` selects. -/
def LatchOk (s : State) : Prop :=
  match s.seq, s.op with
  | .idle, none => True
  | .pllWait, some (.cfgPll ..) => True
  | .swWait, some (.setSysclk src) => s.field .sw = srcWord src
  | _, _ => False

/-- The invariants of R160 and R22, with what they need in the two wait states. -/
structure ClockInv (s : State) : Prop where
  /-- The fields lie where R31 to R36 name them, wide enough for their codes. -/
  layout : layoutOk s.cfg = true
  /-- R31, R160 a. -/
  pllOff : s.flag .pllon = false → s.flag .pllrdy = false
  /-- R160 b, and in `PLL_WAIT` as well. -/
  settled : s.seq ≠ .swWait → s.field .sw = s.field .sws
  /-- Code 3 is reserved and a wider field has no further code (R33). -/
  legalSw : (s.field .sw).toNat < 3
  legalSws : (s.field .sws).toNat < 3
  /-- R160 c, for the selected and for the active source. -/
  swReady : s.field .sw = 2 → s.flag .pllrdy = true
  swsReady : s.field .sws = 2 → s.flag .pllrdy = true
  /-- R160 c: a PLL that is on was configured by an accepted `CFG_PLL`. -/
  configured : s.flag .pllon = true →
    ∃ q, pllValid s.cfg s.pllOscHz.toNat (s.field .pllm).toNat (s.field .plln).toNat q = true
  /-- A `CFG_PLL` in flight has set `PLLON`, and the PLL is neither selected nor active. -/
  locking : s.seq = .pllWait → s.flag .pllon = true ∧ s.field .sws ≠ 2
  latch : LatchOk s
  /-- R22, R160 d. -/
  fresh : s.seq = .idle → SnapshotFresh s
  /-- R160 e. -/
  ahbLe : s.snap.ahb ≤ s.snap.systemClock
  apb1Le : s.snap.apb1 ≤ s.snap.ahb
  apb2Le : s.snap.apb2 ≤ s.snap.ahb

/-! The Serial Engine's invariants. -/

/-- What every step of the serial engine keeps: R40 and R44 (sizes and capacities), R45 (only `idle` and `transmitting` persist),
R49 (`in_handler` is 0 between steps), R251 (no enable is set before a successful `SER_INIT`). -/
structure SerialInv (s : State) : Prop where
  /-- As in `ClockInv`. -/
  layout : layoutOk s.cfg = true
  txCap : s.txFifo.cap = s.cfg.txCap
  rxCap : s.rxFifo.cap = s.cfg.rxCap
  txSize : s.txFifo.size ≤ s.txFifo.cap
  rxSize : s.rxFifo.size ≤ s.rxFifo.cap
  persists : s.serState = .idle ∨ s.serState = .transmitting
  masked : s.inHandler = false
  quiet : s.serInited = false → ∀ c, s.flag (causeEnable c) = false
  enabled : s.serInited = true → s.flag .spe = true ∧ s.flag .rxneie = true ∧ s.flag .errie = true

/-- Every byte ever accepted for sending, in order: those on the wire, then those queued (R48, R197). -/
def accepted (s : State) : List Byte := s.txWire ++ s.txFifo.q

/-- The serial side of the state, which no clock command touches (R140, R259). -/
def SameSerial (s t : State) : Prop :=
  t.ser = s.ser ∧ t.txFifo = s.txFifo ∧ t.rxFifo = s.rxFifo ∧ t.serState = s.serState ∧ t.serInited = s.serInited ∧
  t.inHandler = s.inHandler ∧ t.txWire = s.txWire ∧ t.faultCount = s.faultCount ∧ t.overrunCount = s.overrunCount

/-- The application's side of the state, which no handler touches (R255, R259). -/
def SameApp (s t : State) : Prop :=
  t.rcc = s.rcc ∧ t.snap = s.snap ∧ t.pllOscHz = s.pllOscHz ∧ t.seq = s.seq ∧ t.op = s.op ∧ t.resp = s.resp

/-- Two words agree outside a list of named fields. -/
def SameOutsideFields (c : Config) (fs : List Field) (w v : Word) : Prop :=
  ∀ i, (∀ f ∈ fs, i < (desc c f).offset ∨ (desc c f).offset + (desc c f).width ≤ i) → w.getLsbD i = v.getLsbD i

/-- The operand ranges and VCO ranges of R146. -/
def PllRanges (c : Config) (osc m n q : Nat) : Prop :=
  (c.mMin ≤ m ∧ m ≤ c.mMax) ∧ (c.nMin ≤ n ∧ n ≤ c.nMax) ∧ (c.qMin ≤ q ∧ q ≤ c.qMax) ∧
  (c.vcoInMin ≤ osc / m ∧ osc / m ≤ c.vcoInMax) ∧ (c.vcoOutMin ≤ osc / m * n ∧ osc / m * n ≤ c.vcoOutMax)

/-- The shift of each AHB prescaler setting (R144). -/
def ahbPreShift (t : AhbShifts) : AhbPre → Nat
  | .div1 => 0
  | .div2 => t.div2
  | .div4 => t.div4
  | .div8 => t.div8
  | .div16 => t.div16
  | .div64 => t.div64
  | .div128 => t.div128
  | .div256 => t.div256
  | .div512 => t.div512

/-- The shift of each APB prescaler setting (R145). -/
def apbPreShift (t : ApbShifts) : ApbPre → Nat
  | .div1 => 0
  | .div2 => t.div2
  | .div4 => t.div4
  | .div8 => t.div8
  | .div16 => t.div16

/-- The divisor each `P` setting stands for (R93, R143). -/
def pDivisor : PllP → Nat
  | .div2 => 2
  | .div4 => 4
  | .div6 => 6
  | .div8 => 8

/-- A cause the dispatcher may deliver and the serial engine can service (R250, R252, R283, R287). -/
def Deliverable (c : Cause) (s : State) : Prop :=
  s.inHandler = false ∧ s.flag (causeFlag c) = true ∧ s.flag (causeEnable c) = true ∧ s.serInited = true ∧ serGateOn s = true

/-- A `SET_SYSCLK HSE` that waits for an external oscillator that does not run (R246, program P5). -/
structure HungOnHse (s : State) : Prop where
  stopped : s.cfg.hseReady = false
  waiting : s.seq = .swWait
  target : s.op = some (.setSysclk .hse)
  selected : s.field .sw = 1
  elsewhere : s.field .sws ≠ 1

/-- Software can write every bit of the field: the hardware owns none of it (R66). `CRCERR` is not such a field: a write can
clear it and cannot set it (R68 c); neither is any field of `SER_DR`. -/
def SoftwareField (c : Config) (d : Desc) : Prop :=
  d.wf = true ∧ fieldMask d &&& (hardwareBits c d.reg ||| clearOnlyBits c d.reg) = 0

/-! The properties of R162. -/

/-- R162 a: what `GET_CLK SYSTEM` responds is exactly `(oscillator_speed / M) * N / P`. -/
def PllSpeedExact (osc : Word) (m : BitVec 6) (n : BitVec 9) (p : PllP) (s : State) : Prop :=
  s.snap.systemClock.toNat = osc.toNat / m.toNat * n.toNat / pDivisor p

/-- R162 b: what `GET_CLK` responds for a bus is what its live prescaler's shift makes of the clock it derives from: the AHB from the
system clock, both APBs from the AHB. -/
def BusSpeedsExact (s : State) : Prop :=
  s.snap.ahb.toNat = s.snap.systemClock.toNat >>> (liveShifts s).1 ∧
  s.snap.apb1.toNat = (s.snap.systemClock.toNat >>> (liveShifts s).1) >>> (liveShifts s).2.1 ∧
  s.snap.apb2.toNat = (s.snap.systemClock.toNat >>> (liveShifts s).1) >>> (liveShifts s).2.2

/-- R162 c: the command completes in `t`, and the same command again makes no difference. -/
def RepeatsUnchanged (i : Instr) (s t : State) : Prop := exec i s = .next t ∧ exec i t = .next t

/-! Fairness (R232). -/

/-- If a condition stays true from some point on, a turn is eventually taken. -/
def Fair (r : Nat → State) (enabled : State → Prop) (t : Turn) : Prop :=
  ∀ k, (∀ j, k ≤ j → enabled (r j)) → ∃ j, k ≤ j ∧ turnAt (r j) = t

/-- `A_LOCK`. -/
def ALock (r : Nat → State) : Prop := Fair r (fun s => envEnabled .lock s = true) (.env .lock)

/-- `A_SWITCH`. -/
def ASwitch (r : Nat → State) : Prop := Fair r (fun s => envEnabled .switch s = true) (.env .switch)

/-- `A_TX`. -/
def ATx (r : Nat → State) : Prop := Fair r (fun s => envEnabled .txDone s = true) (.env .txDone)

/-- `A_DISPATCH`. -/
def ADispatch (r : Nat → State) : Prop := ∀ c, Fair r (fun s => pending c s = true) (.event c.code)

/-- `A_APP`: the wait step is enabled in both wait states (R151, R153). -/
def AApp (r : Nat → State) : Prop := Fair r (fun s => s.seq ≠ .idle) .app

end Sys2Proof.Safety
end

