-- ==== Sys2Proof/Certificates/Slice0/Obligations.lean ====
section
/-! DEFINITION. The statements for the provers. Each docstring names the rules of spec/ it formalises. A statement whose conclusion
is an equation `t = …` with a record update says with it that everything else is unchanged: its frame. The premise `layoutOk` is that of
entry 13: the descriptor table keeps every field in the register R31 to R36 name, wide enough for its legal values. -/

open Sys2Proof Sys2Proof.Machine Sys2Proof.Safety

/-! Encoding. -/

/-- R92, R93, R94, R99: decoding the words or the code of a well-formed instruction gives it back, with every operand. -/
def Obligations.DecodeEncodeAgree : Prop :=
  ∀ i : Instr, i.wf = true → decodePort (encode i) = some i

/-- R92, R93, R96: each port input has at most one meaning, and only the encoder's words have one. -/
def Obligations.EncodeDecodeAgree : Prop :=
  ∀ (p : PortInput) (i : Instr), decodePort p = some i → encode i = p ∧ i.wf = true

/-- R95: a whole command takes exactly its length in words, legal or not, and hands back the words behind it; with fewer words
offered it is not a command yet. -/
def Obligations.CommandTakesItsLength : Prop :=
  ∀ (cw : CmdWord) (ws : List CmdWord),
    (decode (cw :: ws) = .incomplete ↔ ws.length + 1 < commandLength cw) ∧
    (∀ i rest, decode (cw :: ws) = .ok i rest → rest = (cw :: ws).drop (commandLength cw)) ∧
    (∀ e rest, decode (cw :: ws) = .illegal e rest → rest = (cw :: ws).drop (commandLength cw))

/-- R95: the words of a well-formed command decode to it in front of any other words, which are left for the next command. -/
def Obligations.CommandStreamStaysInStep : Prop :=
  ∀ (i : Instr) (words rest : List CmdWord), i.wf = true → encode i = .command words →
    decode (words ++ rest) = .ok i rest

/-- Words written out from R92 to R94 by hand: the vectors V-ENC-1, V-ENC-9, V-ENC-12 and V-ILL-8 of 95_test_vectors, and an
event code of R99. -/
def Obligations.KnownWordsDecode : Prop :=
  decode [0x01AEA810007A1200] = .ok (.cfgPll .hse 8000000 4 168 .div4 7) [] ∧
  decode [0x070000000000014C] = .ok (.setApbClk .bank2 12 true) [] ∧
  decode [0x1100000000000003, 0x0000000000030201] = .ok (.serSend 3 [1, 2, 3]) [] ∧
  decode [0x06000000000001A0] = .illegal .mustBeZero [] ∧
  decodePort (.event 3) = some .irqModeFault

/-! The step. -/

/-- R14, R90, R140: with the application's turn next and the sequencer idle, the step runs the decoded command, after taking its
words from the command port. -/
def Obligations.StepRunsDecodedCommand : Prop :=
  ∀ (s : State) (later : List Turn) (i : Instr) (rest : List CmdWord),
    configOk s.cfg = true → s.turns = .app :: later → s.seq = .idle → decode s.cmdIn = .ok i rest →
    step s = exec i { s with turns := later, cmdIn := rest }

/-- R96, R244: an illegal command changes nothing but the response port, which reports `ILLEGAL_COMMAND`; its words are consumed. -/
def Obligations.IllegalCommandRaises : Prop :=
  ∀ (s : State) (later : List Turn) (e : Illegal) (rest : List CmdWord),
    configOk s.cfg = true → s.turns = .app :: later → s.seq = .idle → s.op = none → decode s.cmdIn = .illegal e rest →
    step s = .next { s with turns := later, cmdIn := rest, resp := some ⟨.illegalCommand, 0⟩ }

/-- R99, R190, R252: a placed event runs the handler of its cause; a reserved code is refused (93 U10). -/
def Obligations.StepDeliversEvent : Prop :=
  ∀ (s : State) (later : List Turn) (code : BitVec 3),
    configOk s.cfg = true → s.turns = .event code :: later →
    step s = match Cause.ofCode code with
      | some c => exec c.instr { s with turns := later }
      | none => .refused .reservedEvent

/-- The model's own fetch (entry 9): a word of the opcode table that the decoder reads is what the very next step runs, on a state
whose sequencer is idle for a command, or whose cause is deliverable for an event. -/
def Obligations.FetchedWordRuns : Prop :=
  ∀ (s : State) (nbits w : Nat) (i : Instr), configOk s.cfg = true → decodeTableWord nbits w = some i →
    (∀ ws, encode i = .command ws → step (s.withFetchWord nbits w) = exec i { s with seq := .idle, op := none }) ∧
    (∀ c : Cause, i = c.instr → step (s.withFetchWord nbits w) = exec i (raiseCause c s) ∧ Deliverable c (raiseCause c s))

/-- R8, R62, 93 U11 and U23: a machine whose parameters break their constraints takes no step. That every step is refused is the model's
reading of 93 (entry 11, DEDUCED), and the constraints take in the model's own: the ranges of the shift tables (entry 20, DESIGN CHOICE) and
the registers and widths a field may have (entry 13, DEDUCED). -/
def Obligations.IllFormedParametersRefused : Prop :=
  ∀ s : State, configOk s.cfg = false → step s = .refused .illFormedParameters

/-- R274: the parameters never change during a run. -/
def Obligations.ParametersNeverChange : Prop :=
  ∀ s t : State, step s = .next t → t.cfg = s.cfg

/-! Registers. -/

/-- R120 to R123: a field software owns reads back the written value masked to its width; every other field apart from it that
the hardware does not own reads as before; and nothing in the whole state but the one register's word changes, of which every bit outside
the field that the hardware does not own is as before. -/
def Obligations.FieldWriteLaws : Prop :=
  ∀ (s : State) (d : Desc) (v : Word), layoutOk s.cfg = true → SoftwareField s.cfg d →
    rdf d (wrf d v s) = v &&& mask d.width ∧
    (∀ e : Desc, SoftwareField s.cfg e → d.apart e = true → rdf e (wrf d v s) = rdf e s) ∧
    wrf d v s = s.setWord d.reg ((wrf d v s).word d.reg) ∧
    (∀ i, (i < d.offset ∨ d.offset + d.width ≤ i) → (hardwareBits s.cfg d.reg).getLsbD i = false →
      ((wrf d v s).word d.reg).getLsbD i = (s.word d.reg).getLsbD i)

/-- R66: a whole-word write stores the software-writable bits and leaves hardware-owned bits, but for `PLLRDY`, which a write of
`PLLON` 0 clears (R68 a). -/
def Obligations.WordWriteKeepsHardwareBits : Prop :=
  ∀ (s : State) (r : Reg) (v : Word) (i : Nat), layoutOk s.cfg = true → r ≠ .serDr → r ≠ .serSr →
    ((hardwareBits s.cfg r).getLsbD i = false → ((regWrite r v s).word r).getLsbD i = v.getLsbD i) ∧
    ((hardwareBits s.cfg r).getLsbD i = true → (r = .rccCr → extractField (s.desc .pllon) v ≠ 0) →
      ((regWrite r v s).word r).getLsbD i = (s.word r).getLsbD i)

/-- R68: the four writes with side effects, each with all it changes. For a descriptor table other than the default, that a write of
`SER_SR` decides `CRCERR` by the bit at the table's place of it, where R68 (c) says `v[4]`, is the model's reading (entry 16, DEDUCED); that
`SER_DR`'s `DATA` is at bits 7 to 0 in every launch is its choice (entry 28, DESIGN CHOICE). -/
def Obligations.WriteSideEffects : Prop :=
  ∀ (s : State) (v : Word), layoutOk s.cfg = true →
    ((extractField (s.desc .pllon) v = 0 → (regWrite .rccCr v s).field .pllrdy = 0) ∧
      (extractField (s.desc .pllon) v ≠ 0 → (regWrite .rccCr v s).field .pllrdy = s.field .pllrdy) ∧
      SameOutsideFields s.cfg [.pllrdy] v (regWrite .rccCr v s).rcc.cr ∧
      regWrite .rccCr v s = { s with rcc := { s.rcc with cr := (regWrite .rccCr v s).rcc.cr } }) ∧
    ((regWrite .serDr v s).ser.drTx = v.setWidth 8 ∧ (regWrite .serDr v s).field .txe = 0 ∧
      (regWrite .serDr v s).txWire = s.txWire ++ [v.setWidth 8] ∧
      SameOutsideFields s.cfg [.txe] s.ser.sr (regWrite .serDr v s).ser.sr ∧
      regWrite .serDr v s = { s with
        ser := { s.ser with drTx := (regWrite .serDr v s).ser.drTx, sr := (regWrite .serDr v s).ser.sr },
        txWire := (regWrite .serDr v s).txWire }) ∧
    ((regWrite .serSr v s).field .crcerr = s.field .crcerr &&& extractField (s.desc .crcerr) v ∧
      SameOutsideFields s.cfg [.crcerr] s.ser.sr (regWrite .serSr v s).ser.sr ∧
      regWrite .serSr v s = { s with ser := { s.ser with sr := (regWrite .serSr v s).ser.sr } }) ∧
    ((regWrite .rccCfgr v s).field .sws = s.field .sws ∧
      SameOutsideFields s.cfg [.sws] v (regWrite .rccCfgr v s).rcc.cfgr ∧
      regWrite .rccCfgr v s = { s with rcc := { s.rcc with cfgr := (regWrite .rccCfgr v s).rcc.cfgr } })

/-- R67: a read of `SER_DR` returns `dr_rx` and clears `RXNE`; any other read returns the word and changes nothing. That `dr_rx` stands in
bits 7 to 0 in every launch is the model's choice (entry 28, DESIGN CHOICE). -/
def Obligations.ReadSideEffects : Prop :=
  ∀ s : State, layoutOk s.cfg = true →
    ((regRead .serDr s).1 = s.ser.drRx.setWidth 32 ∧ (regRead .serDr s).2.field .rxne = 0 ∧
      SameOutsideFields s.cfg [.rxne] s.ser.sr (regRead .serDr s).2.ser.sr ∧
      (regRead .serDr s).2 = { s with ser := { s.ser with sr := (regRead .serDr s).2.ser.sr } }) ∧
    (∀ r : Reg, r ≠ .serDr → regRead r s = (s.word r, s))

/-- R68 b, R70: writing a word that agrees with a register's software-writable bits changes nothing, except to `SER_DR`, which always
transmits. The hardware invariant of R31 stands as a premise for `RCC_CR`. That the byte transmitted is in bits 7 to 0 in every launch is the
model's choice (entry 28, DESIGN CHOICE). -/
def Obligations.RewriteChangesNothing : Prop :=
  ∀ (s : State) (r : Reg) (v : Word), layoutOk s.cfg = true → (s.flag .pllon = false → s.flag .pllrdy = false) →
    (∀ i, (hardwareBits s.cfg r).getLsbD i = false → v.getLsbD i = (s.word r).getLsbD i) →
    if r = .serDr then (regWrite r v s).txWire = s.txWire ++ [v.setWidth 8] else regWrite r v s = s

/-- R60, R64: each register is mapped at its address, and no other address is mapped. For a block that runs past the last address the
addresses are the model's choice (entry 24, DESIGN CHOICE). -/
def Obligations.AddressMap : Prop :=
  ∀ (s : State) (a v : Word), configOk s.cfg = true →
    (∀ r : Reg, memRead (regAddr s.cfg r) s = some (regRead r s) ∧ memWrite (regAddr s.cfg r) v s = some (regWrite r v s)) ∧
    ((∀ r : Reg, a ≠ regAddr s.cfg r) → memRead a s = none ∧ memWrite a v s = none)

/-- R41, R42: a push appends at the tail or finds the buffer full; a pop takes the head or finds it empty; neither changes the
capacity, and what does not fit changes nothing. -/
def Obligations.BufferContract : Prop :=
  ∀ (b : Fifo) (v : Byte), b.size ≤ b.cap →
    (b.size = b.cap → b.push v = none) ∧
    (b.size ≠ b.cap → b.push v = some ⟨b.cap, b.q ++ [v]⟩) ∧
    (b.size = 0 → b.pop = none) ∧
    (∀ first later, b.q = first :: later → b.pop = some (first, ⟨b.cap, later⟩))

/-! Reset. -/

/-- R50, R271: every piece of state the table gives a value; bits no rule names hold `RCC_OTHER` and `SER_OTHER`. -/
def Obligations.ResetValues : Prop :=
  ∀ (c : Config) (s : State), layoutOk c = true → s = State.resetFrom c →
    (s.x 0 = c.hsiHz ∧ s.x 1 = c.hsiHz ∧ s.x 2 = c.hsiHz ∧ s.x 3 = c.hsiHz ∧ s.x 4 = 0 ∧ s.x 5 = 0 ∧ s.x 6 = 0 ∧
      s.x 7 = c.hsiHz ∧ s.x 8 = 0 ∧ s.x 9 = 0) ∧
    s.seq = .idle ∧
    (s.field .pllon = 0 ∧ s.field .pllrdy = 0) ∧
    (s.field .pllm = 16 ∧ s.field .plln = 192 ∧ s.field .pllp = 0 ∧ s.field .pllsrc = 0 ∧ s.field .pllq = 4) ∧
    (s.field .sw = 0 ∧ s.field .sws = 0 ∧ s.field .hpre = 0 ∧ s.field .ppre1 = 0 ∧ s.field .ppre2 = 0) ∧
    (s.rcc.ahb1enr = c.rccOther.ahb1enr ∧ s.rcc.ahb2enr = c.rccOther.ahb2enr ∧ s.rcc.ahb3enr = c.rccOther.ahb3enr ∧
      s.rcc.apb1enr = c.rccOther.apb1enr ∧ s.rcc.apb2enr = c.rccOther.apb2enr) ∧
    (s.field .br = 0 ∧ s.field .spe = 0 ∧ s.field .errie = 0 ∧ s.field .rxneie = 0 ∧ s.field .txeie = 0) ∧
    (s.field .rxne = 0 ∧ s.field .txe = 1 ∧ s.field .crcerr = 0 ∧ s.field .modf = 0 ∧ s.field .ovr = 0) ∧
    (SameOutsideFields c [.pllon, .pllrdy] c.rccOther.cr s.rcc.cr ∧
      SameOutsideFields c [.pllm, .plln, .pllp, .pllsrc, .pllq] c.rccOther.pllcfgr s.rcc.pllcfgr ∧
      SameOutsideFields c [.sw, .sws, .hpre, .ppre1, .ppre2] c.rccOther.cfgr s.rcc.cfgr ∧
      SameOutsideFields c [.br, .spe] c.serOther.cr1 s.ser.cr1 ∧
      SameOutsideFields c [.errie, .rxneie, .txeie] c.serOther.cr2 s.ser.cr2 ∧
      SameOutsideFields c [.rxne, .txe, .crcerr, .modf, .ovr] c.serOther.sr s.ser.sr) ∧
    s.txFifo = ⟨c.txCap, []⟩ ∧ s.rxFifo = ⟨c.rxCap, []⟩ ∧ s.serState = .idle ∧ s.serInited = false ∧ s.inHandler = false ∧
    s.txWire = []

/-- R22, R160, R271 and R40, R45, R49, R251: the reset state meets the invariants of both engines. -/
def Obligations.ResetMeetsInvariants : Prop :=
  ∀ c : Config, layoutOk c = true → ClockInv (State.resetFrom c) ∧ SerialInv (State.resetFrom c)

/-! Invariants every step keeps. -/

/-- R22, R160: the clock engine's invariants hold after every step that completes: no refused hazard, no recorded fault. -/
def Obligations.ClockInvariantsKept : Prop :=
  ∀ s t : State, ClockInv s → step s = .next t → ClockInv t

/-- R40, R44, R45, R49, R251: the serial engine's invariants hold after every step. -/
def Obligations.SerialInvariantsKept : Prop :=
  ∀ s t : State, SerialInv s → step s = .next t → SerialInv t

/-- R197, R183, R191: bytes leave in the order they were accepted. A step either accepts nothing, or is a `SER_SEND` that succeeds and
accepts exactly its data at the end; and it sends at most one byte, the oldest queued. -/
def Obligations.BytesSentInOrder : Prop :=
  ∀ s t : State, step s = .next t →
    (accepted t = accepted s ∨
      ∃ size data rest, turnAt s = .app ∧ s.seq = .idle ∧ decode s.cmdIn = .ok (.serSend size data) rest ∧
        t.resp = some ⟨.ok, 0⟩ ∧ t.txWire = s.txWire ∧ t.txFifo.q = s.txFifo.q ++ data) ∧
    (t.txWire = s.txWire ∨ ∃ b, s.txFifo.q = b :: t.txFifo.q ∧ t.txWire = s.txWire ++ [b])

/-- R197, R184, R192: received bytes are queued at the end, by the handler only, and taken from the front, by `SER_RECV` only, which
reports them. -/
def Obligations.BytesReceivedInOrder : Prop :=
  ∀ s t : State, step s = .next t →
    t.rxFifo.q = s.rxFifo.q ∨
    (turnAt s = .event Cause.rxAvailable.code ∧ s.flag .rxne = true ∧ t.rxFifo.q = s.rxFifo.q ++ [s.ser.drRx]) ∨
    (∃ b rest, turnAt s = .app ∧ s.seq = .idle ∧ decode s.cmdIn = .ok .serRecv rest ∧
      s.rxFifo.q = b :: t.rxFifo.q ∧ t.resp = some ⟨.ok, b.setWidth 32⟩)

/-- R25, R246, R254: while a command waits no word of another is taken; every step leaves it waiting, but for the poll that completes it. -/
def Obligations.OneCommandAtATime : Prop :=
  ∀ s t : State, step s = .next t → s.seq ≠ .idle →
    t.cmdIn = s.cmdIn ∧
    ((t.seq = s.seq ∧ t.op = s.op ∧ t.resp = s.resp) ∨
      (turnAt s = .app ∧ t.seq = .idle ∧ t.op = none ∧ t.resp = some ⟨.ok, 0⟩))

/-- R46, R274: `ser_inited` rises once, with a `SER_INIT` that responds `OK`, and never falls. -/
def Obligations.InitialisedOnce : Prop :=
  ∀ s t : State, step s = .next t →
    t.serInited = s.serInited ∨
    (s.serInited = false ∧ t.serInited = true ∧ turnAt s = .app ∧ s.seq = .idle ∧
      ∃ target rest, decode s.cmdIn = .ok (.serInit target) rest ∧ t.resp = some ⟨.ok, 0⟩)

/-- R21, R47, R245: `x[8]` rises by one, wrapping, with a serviced fault cause and in no other step; `x[9]` with a received byte
that found the buffer full. -/
def Obligations.CountersCountEvents : Prop :=
  ∀ s t : State, step s = .next t →
    (t.faultCount = s.faultCount ∨
      (t.faultCount = s.faultCount + 1 ∧
        ∃ c : Cause, (c = .overrun ∨ c = .modeFault ∨ c = .crcError) ∧ turnAt s = .event c.code ∧ s.flag (causeFlag c) = true)) ∧
    (t.overrunCount = s.overrunCount ∨
      (t.overrunCount = s.overrunCount + 1 ∧ turnAt s = .event Cause.rxAvailable.code ∧ s.rxFifo.cap ≤ s.rxFifo.size))

/-- R255, R259: a handler step leaves everything of the application's context, and the ports, as they were. -/
def Obligations.HandlerLeavesApplication : Prop :=
  ∀ (c : Cause) (s t : State), configOk s.cfg = true → exec c.instr s = .next t →
    SameApp s t ∧ t.inHandler = s.inHandler ∧ t.serInited = s.serInited ∧ t.cmdIn = s.cmdIn ∧ t.turns = s.turns ∧ t.draws = s.draws

/-- R140, R259: a clock command and its wait steps leave everything of the serial engine as it was. -/
def Obligations.ClockCommandsLeaveSerial : Prop :=
  ∀ s t : State, configOk s.cfg = true →
    (∀ src osc m n p q, exec (.cfgPll src osc m n p q) s = .next t → SameSerial s t) ∧
    (∀ src, exec (.setSysclk src) s = .next t → SameSerial s t) ∧
    (∀ pre, exec (.cfgAhb pre) s = .next t → SameSerial s t) ∧
    (∀ pre, exec (.cfgApb1 pre) s = .next t → SameSerial s t) ∧
    (∀ pre, exec (.cfgApb2 pre) s = .next t → SameSerial s t) ∧
    (∀ bank bit en, exec (.setAhbClk bank bit en) s = .next t → SameSerial s t) ∧
    (∀ bank bit en, exec (.setApbClk bank bit en) s = .next t → SameSerial s t) ∧
    (∀ which, exec (.getClk which) s = .next t → SameSerial s t) ∧
    (cfgPllWait s = .next t → SameSerial s t) ∧ (setSysclkWait s = .next t → SameSerial s t)

/-- R97, R98, R247: which command can respond with which status; and the response word: the status code, 0 to 4 in R98's order, in bits 63
to 60, zeros in bits 59 to 32, the value in bits 31 to 0. -/
def Obligations.StatusSummary : Prop :=
  (∀ r : Response,
    r.toWord.extractLsb' 60 4 = (match r.status with
      | .ok => 0
      | .configError => 1
      | .bufferFull => 2
      | .bufferEmpty => 3
      | .illegalCommand => 4) ∧
    r.toWord.extractLsb' 32 28 = 0 ∧ r.toWord.extractLsb' 0 32 = r.value) ∧
  ∀ (i : Instr) (s t : State), exec i s = .next t →
    match i with
    | .cfgPll .. => (t.seq = .pllWait ∧ t.resp = s.resp) ∨ t.resp = some ⟨.configError, 0⟩
    | .setSysclk _ => t.seq = .swWait ∧ t.resp = s.resp
    | .cfgAhb _ | .cfgApb1 _ | .cfgApb2 _ | .setAhbClk .. | .setApbClk .. => t.resp = some ⟨.ok, 0⟩
    | .getClk _ | .serStat _ => ∃ v, t.resp = some ⟨.ok, v⟩
    | .serInit _ => t.resp = some ⟨.ok, 0⟩ ∨ t.resp = some ⟨.configError, 0⟩
    | .serSend .. => t.resp = some ⟨.ok, 0⟩ ∨ t.resp = some ⟨.bufferFull, 0⟩
    | .serRecv => (∃ v, t.resp = some ⟨.ok, v⟩) ∨ t.resp = some ⟨.bufferEmpty, 0⟩
    | .irqTxEmpty | .irqRxAvailable | .irqOverrun | .irqModeFault | .irqCrcError => t.resp = s.resp

/-! The clock commands. -/

/-- R146, R150, R281: `CFG_PLL`, first step: refused while the PLL is in use; a range error changes nothing but the response; a valid
one writes exactly the five fields, `x[7]` and `PLLON`, and waits. That a PLL in use is refused before the range is looked at is the
model's choice (entry 10, DESIGN CHOICE). -/
def Obligations.CfgPllEffect : Prop :=
  ∀ (s : State) (src : PllSrc) (osc : Word) (m : BitVec 6) (n : BitVec 9) (p : PllP) (q : BitVec 4), layoutOk s.cfg = true →
    (s.field .sw = 2 ∨ s.field .sws = 2 → exec (.cfgPll src osc m n p q) s = .refused .pllInUse) ∧
    (s.field .sw ≠ 2 → s.field .sws ≠ 2 → ¬ PllRanges s.cfg osc.toNat m.toNat n.toNat q.toNat →
      exec (.cfgPll src osc m n p q) s = .next { s with resp := some ⟨.configError, 0⟩, seq := .idle, op := none }) ∧
    (s.field .sw ≠ 2 → s.field .sws ≠ 2 → PllRanges s.cfg osc.toNat m.toNat n.toNat q.toNat →
      ∃ t, exec (.cfgPll src osc m n p q) s = .next t ∧
        t.field .pllm = m.setWidth 32 ∧ t.field .plln = n.setWidth 32 ∧ t.field .pllp = p.code.setWidth 32 ∧
        t.field .pllq = q.setWidth 32 ∧ t.field .pllsrc = src.code.setWidth 32 ∧ t.field .pllon = 1 ∧
        ((s.flag .pllon = false → s.flag .pllrdy = false) → t.field .pllrdy = 0) ∧
        SameOutsideFields s.cfg [.pllm, .plln, .pllp, .pllq, .pllsrc] s.rcc.pllcfgr t.rcc.pllcfgr ∧
        SameOutsideFields s.cfg [.pllon, .pllrdy] s.rcc.cr t.rcc.cr ∧
        t = { s with
          rcc := { s.rcc with cr := t.rcc.cr, pllcfgr := t.rcc.pllcfgr }, pllOscHz := osc, seq := .pllWait,
          op := some (.cfgPll src osc m n p q) })

/-- R141, R142, R143, R151: `CFG_PLL`, wait step: nothing while `PLLRDY` is 0; otherwise `SAVE_CLK` with the frequency R141 to R143 give the active
source and `OK`, or the fault of `SAVE_CLK` for a clock status or a divisor with no meaning. A frequency of more than 32 bits, which R141 says no hazard-free run reaches, leaves the snapshot open,
and that the command still completes then is the model's choice (entry 12, DESIGN CHOICE). -/
def Obligations.CfgPllWaitEffect : Prop :=
  ∀ (s : State) (later : List Turn), layoutOk s.cfg = true → s.seq = .pllWait → s.turns = .app :: later →
    (s.flag .pllrdy = false → step s = .next { s with turns := later }) ∧
    (s.flag .pllrdy = true → 2 < (s.field .sws).toNat → step s = .fault .reservedClockStatus) ∧
    (s.flag .pllrdy = true → s.field .sws = 2 → s.field .pllm = 0 → step s = .fault .livePllMZero) ∧
    (∀ src, s.flag .pllrdy = true → ActiveSource src s → ∃ snap draws,
      step s = .next { s with turns := later, snap := snap, draws := draws, resp := some ⟨.ok, 0⟩, seq := .idle, op := none } ∧
      (sourceHz src s < 2 ^ 32 → snap = liveSnapshot (sourceHz src s) s ∧ draws = s.draws))

/-- R152, R282: `SET_SYSCLK`, first step: selecting a PLL that is not ready faults; otherwise exactly the field `SW` is written. -/
def Obligations.SetSysclkEffect : Prop :=
  ∀ (s : State) (src : ClkSrc), layoutOk s.cfg = true →
    (src = .pll → s.flag .pllrdy = false → exec (.setSysclk src) s = .fault .pllNotReady) ∧
    ((src = .pll → s.flag .pllrdy = true) →
      ∃ t, exec (.setSysclk src) s = .next t ∧ t.field .sw = src.code.setWidth 32 ∧
        SameOutsideFields s.cfg [.sw] s.rcc.cfgr t.rcc.cfgr ∧
        t = { s with rcc := { s.rcc with cfgr := t.rcc.cfgr }, seq := .swWait, op := some (.setSysclk src) })

/-- R141, R142, R143, R153: `SET_SYSCLK`, wait step: nothing until `SWS` is the latched target; then `SAVE_CLK` with the target's
frequency (`HSI_HZ`, `HSE_HZ`, or the PLL's from `x[7]` and the live fields) and `OK`, or the fault of `SAVE_CLK` for a divisor with no meaning. (A clock status with no meaning is no target, so the poll waits there.) A frequency of more than 32 bits leaves
the snapshot open, and that the command still completes then is the model's choice (entry 12, DESIGN CHOICE). -/
def Obligations.SetSysclkWaitEffect : Prop :=
  ∀ (s : State) (later : List Turn) (src : ClkSrc), layoutOk s.cfg = true → s.seq = .swWait → s.turns = .app :: later →
    s.op = some (.setSysclk src) →
    (s.field .sws ≠ src.code.setWidth 32 → step s = .next { s with turns := later }) ∧
    (src = .pll → s.field .sws = 2 → s.field .pllm = 0 → step s = .fault .livePllMZero) ∧
    (ActiveSource src s → ∃ snap draws,
      step s = .next { s with turns := later, snap := snap, draws := draws, resp := some ⟨.ok, 0⟩, seq := .idle, op := none } ∧
      (sourceHz src s < 2 ^ 32 → snap = liveSnapshot (sourceHz src s) s ∧ draws = s.draws))

/-- R141, R142, R143, R154: `CFG_AHB` writes exactly `HPRE` and recomputes the snapshot from the active source's
frequency with the setting's shift; or it stops with the fault of
`SAVE_CLK` for a clock status or a divisor with no meaning. A frequency of more than 32 bits leaves the snapshot open,
and that the command still completes then is the model's choice (entry 12, DESIGN CHOICE). -/
def Obligations.CfgAhbEffect : Prop :=
  ∀ (s : State) (pre : AhbPre), layoutOk s.cfg = true →
    (2 < (s.field .sws).toNat → exec (.cfgAhb pre) s = .fault .reservedClockStatus) ∧
    (s.field .sws = 2 → s.field .pllm = 0 → exec (.cfgAhb pre) s = .fault .livePllMZero) ∧
    (∀ src, ActiveSource src s →
      ∃ t, exec (.cfgAhb pre) s = .next t ∧ t.field .hpre = pre.code.setWidth 32 ∧
        SameOutsideFields s.cfg [.hpre] s.rcc.cfgr t.rcc.cfgr ∧
        t = { s with
          rcc := { s.rcc with cfgr := t.rcc.cfgr }, snap := t.snap, draws := t.draws, resp := some ⟨.ok, 0⟩, seq := .idle, op := none } ∧
        (sourceHz src s < 2 ^ 32 →
          t.snap = snapshotOf (sourceHz src s) (ahbPreShift s.cfg.ahbShifts pre) (liveShifts s).2.1 (liveShifts s).2.2 ∧ t.draws = s.draws))

/-- R22, R141, R142, R143, R155: `CFG_APB1` writes exactly `PPRE1` and recomputes the snapshot from the active source's
frequency; with a fresh snapshot only `x[2]` and `x[5]` change; or it stops with the fault of
`SAVE_CLK` for a clock status or a divisor with no meaning. A frequency of more than 32 bits leaves the snapshot open,
and that the command still completes then is the model's choice (entry 12, DESIGN CHOICE). -/
def Obligations.CfgApb1Effect : Prop :=
  ∀ (s : State) (pre : ApbPre), layoutOk s.cfg = true →
    (2 < (s.field .sws).toNat → exec (.cfgApb1 pre) s = .fault .reservedClockStatus) ∧
    (s.field .sws = 2 → s.field .pllm = 0 → exec (.cfgApb1 pre) s = .fault .livePllMZero) ∧
    (∀ src, ActiveSource src s →
      ∃ t, exec (.cfgApb1 pre) s = .next t ∧ t.field .ppre1 = pre.code.setWidth 32 ∧
        SameOutsideFields s.cfg [.ppre1] s.rcc.cfgr t.rcc.cfgr ∧
        t = { s with
          rcc := { s.rcc with cfgr := t.rcc.cfgr }, snap := t.snap, draws := t.draws, resp := some ⟨.ok, 0⟩, seq := .idle, op := none } ∧
        (sourceHz src s < 2 ^ 32 →
          t.snap = snapshotOf (sourceHz src s) (liveShifts s).1 (apbPreShift s.cfg.apbShifts pre) (liveShifts s).2.2 ∧ t.draws = s.draws) ∧
        (SnapshotFresh s → t.snap = { s.snap with apb1 := t.snap.apb1, apb1Scaler := t.snap.apb1Scaler }))

/-- R22, R141, R142, R143, R156: `CFG_APB2` writes exactly `PPRE2` and recomputes the snapshot from the active source's
frequency; with a fresh snapshot only `x[3]` and `x[6]` change; or it stops with the fault of
`SAVE_CLK` for a clock status or a divisor with no meaning. A frequency of more than 32 bits leaves the snapshot open,
and that the command still completes then is the model's choice (entry 12, DESIGN CHOICE). -/
def Obligations.CfgApb2Effect : Prop :=
  ∀ (s : State) (pre : ApbPre), layoutOk s.cfg = true →
    (2 < (s.field .sws).toNat → exec (.cfgApb2 pre) s = .fault .reservedClockStatus) ∧
    (s.field .sws = 2 → s.field .pllm = 0 → exec (.cfgApb2 pre) s = .fault .livePllMZero) ∧
    (∀ src, ActiveSource src s →
      ∃ t, exec (.cfgApb2 pre) s = .next t ∧ t.field .ppre2 = pre.code.setWidth 32 ∧
        SameOutsideFields s.cfg [.ppre2] s.rcc.cfgr t.rcc.cfgr ∧
        t = { s with
          rcc := { s.rcc with cfgr := t.rcc.cfgr }, snap := t.snap, draws := t.draws, resp := some ⟨.ok, 0⟩, seq := .idle, op := none } ∧
        (sourceHz src s < 2 ^ 32 →
          t.snap = snapshotOf (sourceHz src s) (liveShifts s).1 (liveShifts s).2.1 (apbPreShift s.cfg.apbShifts pre) ∧ t.draws = s.draws) ∧
        (SnapshotFresh s → t.snap = { s.snap with apb2 := t.snap.apb2, apb2Scaler := t.snap.apb2Scaler }))

/-- R144, R145 with 93 U14: every prescaler setting's code has its own shift, a code with its top bit clear has shift 0, and the
default tables are the rules'. -/
def Obligations.ShiftTables : Prop :=
  (∀ c : Config, configOk c = true →
    (∀ p q : AhbPre, ahbShift c.ahbShifts p.code.toNat = ahbShift c.ahbShifts q.code.toNat → p = q) ∧
    (∀ p q : ApbPre, apbShift c.apbShifts p.code.toNat = apbShift c.apbShifts q.code.toNat → p = q) ∧
    (∀ code : BitVec 4, code.msb = false → ahbShift c.ahbShifts code.toNat = 0) ∧
    (∀ code : BitVec 3, code.msb = false → apbShift c.apbShifts code.toNat = 0)) ∧
  (∀ p : AhbPre, ahbShift State.reset.cfg.ahbShifts p.code.toNat = match p with
    | .div1 => 0
    | .div2 => 1
    | .div4 => 2
    | .div8 => 3
    | .div16 => 4
    | .div64 => 6
    | .div128 => 7
    | .div256 => 8
    | .div512 => 9) ∧
  (∀ p : ApbPre, apbShift State.reset.cfg.apbShifts p.code.toNat = match p with
    | .div1 => 0
    | .div2 => 1
    | .div4 => 2
    | .div8 => 3
    | .div16 => 4)

/-- R157, R162 c: `SET_AHB_CLK` sets the one bit to `en`, keeps the other 31, and a second one changes nothing. -/
def Obligations.SetAhbClkEffect : Prop :=
  ∀ (s : State) (bank : AhbBank) (bit : BitVec 5) (en : Bool), configOk s.cfg = true →
    ∃ t, exec (.setAhbClk bank bit en) s = .next t ∧
      (∀ i, i < 32 → (t.word (ahbGateReg bank)).getLsbD i = if i = bit.toNat then en else (s.word (ahbGateReg bank)).getLsbD i) ∧
      t = { s.setWord (ahbGateReg bank) (t.word (ahbGateReg bank)) with resp := some ⟨.ok, 0⟩, seq := .idle, op := none } ∧
      RepeatsUnchanged (.setAhbClk bank bit en) s t

/-- R158: `SET_APB_CLK`, likewise. -/
def Obligations.SetApbClkEffect : Prop :=
  ∀ (s : State) (bank : ApbBank) (bit : BitVec 5) (en : Bool), configOk s.cfg = true →
    ∃ t, exec (.setApbClk bank bit en) s = .next t ∧
      (∀ i, i < 32 → (t.word (apbGateReg bank)).getLsbD i = if i = bit.toNat then en else (s.word (apbGateReg bank)).getLsbD i) ∧
      t = { s.setWord (apbGateReg bank) (t.word (apbGateReg bank)) with resp := some ⟨.ok, 0⟩, seq := .idle, op := none } ∧
      RepeatsUnchanged (.setApbClk bank bit en) s t

/-- R159: `GET_CLK` responds the cached register and changes nothing else. With R162 b, where the snapshot is fresh, as it is whenever the
sequencer is idle (R160 d): the bus speeds it responds are exactly those the live prescalers' shifts make of the system clock. -/
def Obligations.GetClkEffect : Prop :=
  ∀ (s : State) (which : ClkSel),
    exec (.getClk which) s = .next { s with
      resp := some ⟨.ok, match which with
        | .system => s.snap.systemClock
        | .ahb => s.snap.ahb
        | .apb1 => s.snap.apb1
        | .apb2 => s.snap.apb2⟩,
      seq := .idle, op := none } ∧
    (SnapshotFresh s → BusSpeedsExact s)

/-- R162 a, T1: after `CFG_PLL` and `SET_SYSCLK PLL`, with the lock and the switch between, the system frequency is exactly
`(oscillator_speed / M) * N / P`. -/
def Obligations.PllBringUp : Prop :=
  ∀ (s : State) (src : PllSrc) (osc : Word) (m : BitVec 6) (n : BitVec 9) (p : PllP) (q : BitVec 4),
    layoutOk s.cfg = true → s.field .sw ≠ 2 → s.field .sws = s.field .sw → (s.field .sws).toNat < 3 →
    (s.flag .pllon = false → s.flag .pllrdy = false) →
    (src = .hsi ∨ s.cfg.hseReady = true) → PllRanges s.cfg osc.toNat m.toNat n.toNat q.toNat →
    ∃ t1 t3 t4 t6 t7,
      exec (.cfgPll src osc m n p q) s = .next t1 ∧
      cfgPllWait (envStep .lock t1) = .next t3 ∧
      exec (.setSysclk .pll) t3 = .next t4 ∧
      setSysclkWait (envStep .switch t4) = .next t6 ∧
      exec (.getClk .system) t6 = .next t7 ∧
      t7.resp = some ⟨.ok, t7.snap.systemClock⟩ ∧ PllSpeedExact osc m n p t7

/-! The serial commands. -/

/-- R181: the least power-of-two prescaler whose exact rate does not exceed the target, or none. -/
def Obligations.BaudSelectLeast : Prop :=
  ∀ f t : Nat,
    (∀ k, baudSelect f t = some k ↔ (1 ≤ k ∧ k ≤ 8 ∧ f ≤ t * 2 ^ k ∧ ∀ j, 1 ≤ j → j < k → t * 2 ^ j < f)) ∧
    (baudSelect f t = none ↔ ∀ k, 1 ≤ k → k ≤ 8 → t * 2 ^ k < f)

/-- R182, R241, R283, R287: `SER_INIT`: refused after a success; faults with the clock gate off; `CONFIG_ERROR` with no change when no
prescaler will do; otherwise exactly `BR`, the two enables, `SPE`, `ser_inited` and `ser_state`. The order of the three stops is the model's
choice (entry 10, DESIGN CHOICE). -/
def Obligations.SerInitEffect : Prop :=
  ∀ (s : State) (target f : Word), layoutOk s.cfg = true → f = (if s.cfg.serBus = .apb1 then s.snap.apb1 else s.snap.apb2) →
    (s.serInited = true → exec (.serInit target) s = .refused .serAlreadyInitialised) ∧
    (s.serInited = false → serGateOn s = false → exec (.serInit target) s = .fault .serClockGatedOff) ∧
    (s.serInited = false → serGateOn s = true → baudSelect f.toNat target.toNat = none →
      exec (.serInit target) s = .next { s with resp := some ⟨.configError, 0⟩, seq := .idle, op := none }) ∧
    (∀ k, s.serInited = false → serGateOn s = true → baudSelect f.toNat target.toNat = some k →
      ∃ t, exec (.serInit target) s = .next t ∧ (t.field .br).toNat + 1 = k ∧
        t.field .rxneie = 1 ∧ t.field .errie = 1 ∧ t.field .spe = 1 ∧
        SameOutsideFields s.cfg [.br, .spe] s.ser.cr1 t.ser.cr1 ∧
        SameOutsideFields s.cfg [.rxneie, .errie] s.ser.cr2 t.ser.cr2 ∧
        t = { s with
          ser := { s.ser with cr1 := t.ser.cr1, cr2 := t.ser.cr2 }, serInited := true, serState := .idle,
          resp := some ⟨.ok, 0⟩, seq := .idle, op := none })

/-- R183, R242: `SER_SEND`: refused before a successful `SER_INIT`; faults with the clock gate off; `BUFFER_FULL` with nothing
enqueued; otherwise all bytes enqueued in order, exactly `TXEIE` set, `transmitting`. The order of the three stops is the model's choice
(entry 10, DESIGN CHOICE). -/
def Obligations.SerSendEffect : Prop :=
  ∀ (s : State) (size : BitVec 16) (data : List Byte), layoutOk s.cfg = true → data.length = size.toNat →
    s.txFifo.size ≤ s.txFifo.cap →
    (s.serInited = false → exec (.serSend size data) s = .refused .serNotInitialised) ∧
    (s.serInited = true → serGateOn s = false → exec (.serSend size data) s = .fault .serClockGatedOff) ∧
    (s.serInited = true → serGateOn s = true → s.txFifo.cap < s.txFifo.size + size.toNat →
      exec (.serSend size data) s = .next { s with resp := some ⟨.bufferFull, 0⟩, seq := .idle, op := none }) ∧
    (s.serInited = true → serGateOn s = true → s.txFifo.size + size.toNat ≤ s.txFifo.cap →
      ∃ t, exec (.serSend size data) s = .next t ∧ t.field .txeie = 1 ∧
        SameOutsideFields s.cfg [.txeie] s.ser.cr2 t.ser.cr2 ∧
        t = { s with
          ser := { s.ser with cr2 := t.ser.cr2 }, txFifo := { s.txFifo with q := s.txFifo.q ++ data }, serState := .transmitting,
          resp := some ⟨.ok, 0⟩, seq := .idle, op := none })

/-- R184, R243, R287: `SER_RECV`: refused before a successful `SER_INIT`; `BUFFER_EMPTY`, or the oldest byte. That the refusal comes before
`BUFFER_EMPTY` is the model's choice (entry 10, DESIGN CHOICE). -/
def Obligations.SerRecvEffect : Prop :=
  ∀ s : State,
    (s.serInited = false → exec .serRecv s = .refused .serNotInitialised) ∧
    (s.serInited = true → s.rxFifo.q = [] →
      exec .serRecv s = .next { s with resp := some ⟨.bufferEmpty, 0⟩, seq := .idle, op := none }) ∧
    (∀ b rest, s.serInited = true → s.rxFifo.q = b :: rest →
      exec .serRecv s = .next { s with
        rxFifo := { s.rxFifo with q := rest }, resp := some ⟨.ok, b.setWidth 32⟩, seq := .idle, op := none })

/-- R185: `SER_STAT` responds a counter, a size or the code of `ser_state` and changes nothing else. The sizes fit by the
invariant of R40 and R8, which stands as a premise. -/
def Obligations.SerStatEffect : Prop :=
  ∀ (s : State) (sel : StatSel), s.txFifo.size ≤ 65535 → s.rxFifo.size ≤ 65535 →
    exec (.serStat sel) s = .next { s with
      resp := some ⟨.ok, match sel with
        | .faults => s.faultCount
        | .overruns => s.overrunCount
        | .txSize => BitVec.ofNat 32 s.txFifo.q.length
        | .rxSize => BitVec.ofNat 32 s.rxFifo.q.length
        | .state => match s.serState with
          | .idle => 0
          | .transmitting => 1
          | .receiving => 2
          | .error => 3⟩,
      seq := .idle, op := none }

/-! The events. -/

/-- R252, R283, R287 with 93 U8, U9, U19: an event that is not pending, or falls inside the handler, makes no move; a pending one is
refused before a successful `SER_INIT` and faults with the clock gate off. -/
def Obligations.UndeliverableEvents : Prop :=
  ∀ (c : Cause) (s : State),
    (s.flag (causeFlag c) = false ∨ s.flag (causeEnable c) = false ∨ s.inHandler = true → exec c.instr s = .next s) ∧
    (s.flag (causeFlag c) = true → s.flag (causeEnable c) = true → s.inHandler = false → s.serInited = false →
      exec c.instr s = .refused .serNotInitialised) ∧
    (s.flag (causeFlag c) = true → s.flag (causeEnable c) = true → s.inHandler = false → s.serInited = true →
      serGateOn s = false → exec c.instr s = .fault .serClockGatedOff)

/-- R191: `IRQ.TX_EMPTY`: with a byte queued the oldest goes to `dr_tx` and the wire and `TXE` falls; with none the interrupt is
disabled and the state is idle. -/
def Obligations.IrqTxEmptyEffect : Prop :=
  ∀ s : State, layoutOk s.cfg = true → Deliverable .txEmpty s →
    (s.txFifo.q = [] →
      ∃ t, exec .irqTxEmpty s = .next t ∧ t.field .txeie = 0 ∧ SameOutsideFields s.cfg [.txeie] s.ser.cr2 t.ser.cr2 ∧
        t = { s with ser := { s.ser with cr2 := t.ser.cr2 }, serState := .idle }) ∧
    (∀ b rest, s.txFifo.q = b :: rest →
      ∃ t, exec .irqTxEmpty s = .next t ∧ t.field .txe = 0 ∧ SameOutsideFields s.cfg [.txe] s.ser.sr t.ser.sr ∧
        t = { s with
          ser := { s.ser with sr := t.ser.sr, drTx := b }, txFifo := { s.txFifo with q := rest }, txWire := s.txWire ++ [b] })

/-- R192: `IRQ.RX_AVAILABLE`: `RXNE` falls; the byte is queued where there is room, and dropped and counted in `x[9]` where there is none. -/
def Obligations.IrqRxAvailableEffect : Prop :=
  ∀ s : State, layoutOk s.cfg = true → Deliverable .rxAvailable s →
    ∃ t, exec .irqRxAvailable s = .next t ∧ t.field .rxne = 0 ∧ SameOutsideFields s.cfg [.rxne] s.ser.sr t.ser.sr ∧
      t = { s with
        ser := { s.ser with sr := t.ser.sr },
        rxFifo := if s.rxFifo.size < s.rxFifo.cap then { s.rxFifo with q := s.rxFifo.q ++ [s.ser.drRx] } else s.rxFifo,
        overrunCount := if s.rxFifo.size < s.rxFifo.cap then s.overrunCount else s.overrunCount + 1 }

/-- R193: `IRQ.OVERRUN`: `OVR` and `RXNE` fall, `x[8]` counts, idle; the waiting byte is discarded. -/
def Obligations.IrqOverrunEffect : Prop :=
  ∀ s : State, layoutOk s.cfg = true → Deliverable .overrun s →
    ∃ t, exec .irqOverrun s = .next t ∧ t.field .ovr = 0 ∧ t.field .rxne = 0 ∧
      SameOutsideFields s.cfg [.ovr, .rxne] s.ser.sr t.ser.sr ∧
      t = { s with ser := { s.ser with sr := t.ser.sr }, faultCount := s.faultCount + 1, serState := .idle }

/-- R194: `IRQ.MODE_FAULT`: exactly `MODF` falls, `SER_CR1` keeps its value, `x[8]` counts, idle. -/
def Obligations.IrqModeFaultEffect : Prop :=
  ∀ s : State, layoutOk s.cfg = true → Deliverable .modeFault s →
    ∃ t, exec .irqModeFault s = .next t ∧ t.field .modf = 0 ∧ SameOutsideFields s.cfg [.modf] s.ser.sr t.ser.sr ∧
      t = { s with ser := { s.ser with sr := t.ser.sr }, faultCount := s.faultCount + 1, serState := .idle }

/-- R195: `IRQ.CRC_ERROR`: exactly `CRCERR` falls, `x[8]` counts, idle. -/
def Obligations.IrqCrcErrorEffect : Prop :=
  ∀ s : State, layoutOk s.cfg = true → Deliverable .crcError s →
    ∃ t, exec .irqCrcError s = .next t ∧ t.field .crcerr = 0 ∧ SameOutsideFields s.cfg [.crcerr] s.ser.sr t.ser.sr ∧
      t = { s with ser := { s.ser with sr := t.ser.sr }, faultCount := s.faultCount + 1, serState := .idle }

/-- R253: with a byte waiting and an overrun pending, the order of delivery decides whether the byte is kept; the fault count rises
by one either way. -/
def Obligations.OverrunOrderMatters : Prop :=
  ∀ s : State, layoutOk s.cfg = true → Deliverable .rxAvailable s → Deliverable .overrun s → s.rxFifo.size < s.rxFifo.cap →
    ∃ t u v, exec .irqRxAvailable s = .next t ∧ exec .irqOverrun t = .next u ∧ exec .irqOverrun s = .next v ∧
      u.rxFifo.q = s.rxFifo.q ++ [s.ser.drRx] ∧ v.rxFifo.q = s.rxFifo.q ∧ pending .rxAvailable v = false ∧
      u.faultCount = s.faultCount + 1 ∧ v.faultCount = s.faultCount + 1

/-! The hardware agents. -/

/-- R221: `E_LOCK`. -/
def Obligations.LockStep : Prop :=
  ∀ s : State, layoutOk s.cfg = true →
    (s.field .pllon = 1 ∧ s.field .pllrdy = 0 ∧ (s.field .pllsrc = 0 ∨ s.cfg.hseReady = true) →
      (envStep .lock s).field .pllrdy = 1 ∧ SameOutsideFields s.cfg [.pllrdy] s.rcc.cr (envStep .lock s).rcc.cr ∧
      envStep .lock s = { s with rcc := { s.rcc with cr := (envStep .lock s).rcc.cr } }) ∧
    (¬ (s.field .pllon = 1 ∧ s.field .pllrdy = 0 ∧ (s.field .pllsrc = 0 ∨ s.cfg.hseReady = true)) → envStep .lock s = s)

/-- R222: `E_SWITCH`. In a field `SW` wider than two bits a value above 3 is no ready source by the model's choice (entry 29, DESIGN CHOICE). -/
def Obligations.SwitchStep : Prop :=
  ∀ s : State, layoutOk s.cfg = true →
    (s.field .sw ≠ s.field .sws →
      (s.field .sw = 0 ∨ (s.field .sw = 1 ∧ s.cfg.hseReady = true) ∨ (s.field .sw = 2 ∧ s.field .pllrdy = 1)) →
      (envStep .switch s).field .sws = s.field .sw ∧ SameOutsideFields s.cfg [.sws] s.rcc.cfgr (envStep .switch s).rcc.cfgr ∧
      envStep .switch s = { s with rcc := { s.rcc with cfgr := (envStep .switch s).rcc.cfgr } }) ∧
    (s.field .sw = s.field .sws ∨
      ¬ (s.field .sw = 0 ∨ (s.field .sw = 1 ∧ s.cfg.hseReady = true) ∨ (s.field .sw = 2 ∧ s.field .pllrdy = 1)) →
      envStep .switch s = s)

/-- R225, R226, R227: the steps of the serial hardware; none is enabled while `SPE` is 0. -/
def Obligations.SerialHardwareSteps : Prop :=
  ∀ (s : State) (b : Byte) (f : LineFault), layoutOk s.cfg = true →
    (s.field .spe = 0 → envStep .txDone s = s ∧ envStep (.rxByte b) s = s ∧ envStep (.fault f) s = s) ∧
    (s.field .txe = 1 → envStep .txDone s = s) ∧
    (s.field .spe = 1 → s.field .txe = 0 →
      (envStep .txDone s).field .txe = 1 ∧ SameOutsideFields s.cfg [.txe] s.ser.sr (envStep .txDone s).ser.sr ∧
      envStep .txDone s = { s with ser := { s.ser with sr := (envStep .txDone s).ser.sr } }) ∧
    (s.field .spe = 1 → s.field .rxne = 0 →
      (envStep (.rxByte b) s).field .rxne = 1 ∧ SameOutsideFields s.cfg [.rxne] s.ser.sr (envStep (.rxByte b) s).ser.sr ∧
      envStep (.rxByte b) s = { s with ser := { s.ser with sr := (envStep (.rxByte b) s).ser.sr, drRx := b } }) ∧
    (s.field .spe = 1 → s.field .rxne = 1 →
      (envStep (.rxByte b) s).field .ovr = 1 ∧ SameOutsideFields s.cfg [.ovr] s.ser.sr (envStep (.rxByte b) s).ser.sr ∧
      envStep (.rxByte b) s = { s with ser := { s.ser with sr := (envStep (.rxByte b) s).ser.sr } }) ∧
    (s.field .spe = 1 →
      (envStep (.fault f) s).field (lineFaultField f) = 1 ∧
      SameOutsideFields s.cfg [lineFaultField f] s.ser.sr (envStep (.fault f) s).ser.sr ∧
      envStep (.fault f) s = { s with ser := { s.ser with sr := (envStep (.fault f) s).ser.sr } })

/-! Waiting: the hang, and completion under fairness. -/

/-- R246, U3, P5: a switch to an external oscillator that does not run never completes: every step leaves it waiting, and no response
is produced. -/
def Obligations.UnreadyOscillatorHangs : Prop :=
  ∀ s t : State, HungOnHse s → step s = .next t → HungOnHse t ∧ t.resp = s.resp ∧ t.cmdIn = s.cmdIn

/-- R151, R221, R232: under `A_LOCK` and `A_APP` a `CFG_PLL` whose oscillator runs completes with `OK`. -/
def Obligations.CfgPllCompletesFairly : Prop :=
  ∀ (r : Nat → State) (k : Nat), IsRun r → ALock r → AApp r → ClockInv (r k) → (r k).seq = .pllWait →
    ((r k).field .pllsrc = 0 ∨ (r k).cfg.hseReady = true) →
    ∃ j, k ≤ j ∧ (r j).seq = .idle ∧ (r j).resp = some ⟨.ok, 0⟩

/-- R153, R222, R232: under `A_SWITCH` and `A_APP` a `SET_SYSCLK` whose source runs completes with `OK`. -/
def Obligations.SetSysclkCompletesFairly : Prop :=
  ∀ (r : Nat → State) (k : Nat), IsRun r → ASwitch r → AApp r → ClockInv (r k) → (r k).seq = .swWait →
    ((r k).field .sw = 1 → (r k).cfg.hseReady = true) →
    ∃ j, k ≤ j ∧ (r j).seq = .idle ∧ (r j).resp = some ⟨.ok, 0⟩
end

