-- ==== Sys2Proof/Laws/Bits.lean ====
section
/-! SUPPORT. Bit by bit: what masks, field extraction, field insertion and hardware-kept bits do. -/
namespace Sys2Proof.Machine

theorem getLsbD_mask (w i : Nat) : (mask w).getLsbD i = (decide (i < 32) && decide (i < w)) := by
  simp [mask, BitVec.getLsbD_ofNat, Nat.testBit_two_pow_sub_one]

theorem getLsbD_fieldMask (d : Desc) (i : Nat) :
    (fieldMask d).getLsbD i = (decide (i < 32) && decide (d.offset ≤ i) && decide (i < d.offset + d.width)) := by
  rw [fieldMask, BitVec.getLsbD_shiftLeft, getLsbD_mask]
  have h2 : d.offset ≤ i → (i - d.offset < d.width ↔ i < d.offset + d.width) := by omega
  have h3 : i < 32 → i - d.offset < 32 := by omega
  by_cases h : i < 32 <;> by_cases h1 : d.offset ≤ i <;> simp [h, h1, h2, h3]

theorem getLsbD_extractField (d : Desc) (w : Word) (i : Nat) :
    (extractField d w).getLsbD i = (decide (i < d.width) && w.getLsbD (d.offset + i)) := by
  rw [extractField, BitVec.getLsbD_and, BitVec.getLsbD_ushiftRight, getLsbD_mask]
  by_cases h : i < 32
  · simp [h, Bool.and_comm]
  · have : w.getLsbD (d.offset + i) = false := BitVec.getLsbD_of_ge _ _ (by omega)
    simp [this]

/-- Inside the field a word that has had a field replaced holds the value, outside it the old word. -/
theorem getLsbD_insertField (d : Desc) (w v : Word) (i : Nat) :
    (insertField d w v).getLsbD i =
      if d.offset ≤ i ∧ i < d.offset + d.width then decide (i < 32) && v.getLsbD (i - d.offset) else w.getLsbD i := by
  rw [insertField, BitVec.getLsbD_or, BitVec.getLsbD_and, BitVec.getLsbD_not, getLsbD_fieldMask, BitVec.getLsbD_shiftLeft,
    BitVec.getLsbD_and, getLsbD_mask]
  by_cases h : i < 32
  · by_cases h1 : d.offset ≤ i <;> by_cases h2 : i < d.offset + d.width
    · have h3 : i - d.offset < 32 := by omega
      have h4 : i - d.offset < d.width := by omega
      simp [h, h1, h2, h3, h4]
    · have h4 : ¬ i - d.offset < d.width := by omega
      simp [h, h1, h2, h4]
    · simp [h, h1]
    · simp [h, h1]
  · have hw : w.getLsbD i = false := BitVec.getLsbD_of_ge _ _ (by omega)
    simp [h, hw]

theorem getLsbD_keepBits (hw old new : Word) (i : Nat) :
    (keepBits hw old new).getLsbD i = if hw.getLsbD i then old.getLsbD i else new.getLsbD i := by
  rw [keepBits, BitVec.getLsbD_or, BitVec.getLsbD_and, BitVec.getLsbD_and, BitVec.getLsbD_not]
  by_cases h : i < 32
  · cases hw.getLsbD i <;> simp [h]
  · have h1 : hw.getLsbD i = false := BitVec.getLsbD_of_ge _ _ (by omega)
    have h2 : new.getLsbD i = false := BitVec.getLsbD_of_ge _ _ (by omega)
    simp [h1, h2]

theorem desc_wf_iff (d : Desc) : d.wf = true ↔ 1 ≤ d.width ∧ d.offset + d.width ≤ 32 ∧ d.reg ≠ .serDr := by
  simp [Desc.wf, and_assoc]

/-- A field reads back what was put in it, masked to its width (R123 a, at word level). -/
theorem extract_insert_same (d : Desc) (w v : Word) (h : d.offset + d.width ≤ 32) :
    extractField d (insertField d w v) = v &&& mask d.width := by
  apply BitVec.eq_of_getLsbD_eq
  intro i hi
  rw [getLsbD_extractField, getLsbD_insertField, BitVec.getLsbD_and, getLsbD_mask]
  by_cases h1 : i < d.width
  · have h2 : d.offset + i < d.offset + d.width := by omega
    have h3 : d.offset + i < 32 := by omega
    simp [h1, h3, hi]
  · simp [h1]

/-- A field that lies apart from the one replaced reads as before (R123 b, at word level). -/
theorem extract_insert_apart (d e : Desc) (w v : Word)
    (h : d.offset + d.width ≤ e.offset ∨ e.offset + e.width ≤ d.offset) :
    extractField e (insertField d w v) = extractField e w := by
  apply BitVec.eq_of_getLsbD_eq
  intro i _
  rw [getLsbD_extractField, getLsbD_extractField, getLsbD_insertField]
  by_cases h1 : i < e.width
  · have : ¬ (d.offset ≤ e.offset + i ∧ e.offset + i < d.offset + d.width) := by omega
    simp [this]
  · simp [h1]

/-- Keeping the bits of one field does not show in a field apart from it. -/
theorem extract_keep_apart (d e : Desc) (old new : Word)
    (h : d.offset + d.width ≤ e.offset ∨ e.offset + e.width ≤ d.offset) :
    extractField e (keepBits (fieldMask d) old new) = extractField e new := by
  apply BitVec.eq_of_getLsbD_eq
  intro i _
  rw [getLsbD_extractField, getLsbD_extractField, getLsbD_keepBits, getLsbD_fieldMask]
  by_cases h1 : i < e.width
  · have : ¬ (d.offset ≤ e.offset + i ∧ e.offset + i < d.offset + d.width) := by omega
    rw [if_neg (by simp; omega)]
  · simp [h1]

/-- A kept field reads as in the old word. -/
theorem extract_keep_same (d : Desc) (old new : Word) (h : d.offset + d.width ≤ 32) :
    extractField d (keepBits (fieldMask d) old new) = extractField d old := by
  apply BitVec.eq_of_getLsbD_eq
  intro i _
  rw [getLsbD_extractField, getLsbD_extractField, getLsbD_keepBits, getLsbD_fieldMask]
  by_cases h1 : i < d.width
  · rw [if_pos (by simp; omega)]
  · simp [h1]

/-- Putting back what a field holds changes nothing (20_memory R70, at word level). -/
theorem insert_extract_self (d : Desc) (w : Word) : insertField d w (extractField d w) = w := by
  apply BitVec.eq_of_getLsbD_eq
  intro i hi
  rw [getLsbD_insertField]
  split
  · rename_i h
    rw [getLsbD_extractField, show d.offset + (i - d.offset) = i by omega]
    have : i - d.offset < d.width := by omega
    simp [this, hi]
  · rfl

theorem keepBits_self (hw w : Word) : keepBits hw w w = w := by
  apply BitVec.eq_of_getLsbD_eq
  intro i _
  rw [getLsbD_keepBits]
  split <;> rfl

/-- A field of width `w` is a number below `2^w`. -/
theorem extractField_lt (d : Desc) (w : Word) (h : d.width ≤ 32) : (extractField d w).toNat < 2 ^ d.width := by
  rw [extractField, BitVec.toNat_and, mask]
  have h1 : (BitVec.ofNat 32 (2 ^ d.width - 1)).toNat = 2 ^ d.width - 1 := by
    have : 2 ^ d.width ≤ 2 ^ 32 := Nat.pow_le_pow_right (by omega) h
    have h2 : 0 < 2 ^ d.width := Nat.two_pow_pos _
    simp only [BitVec.toNat_ofNat]
    exact Nat.mod_eq_of_lt (by omega)
  rw [h1]
  have h2 : 0 < 2 ^ d.width := Nat.two_pow_pos _
  have := @Nat.and_le_right (BitVec.toNat (w >>> d.offset)) (2 ^ d.width - 1)
  omega

/-- A value narrower than the field survives the mask. -/
theorem and_mask_of_lt (v : Word) (w : Nat) (h : v.toNat < 2 ^ w) : v &&& mask w = v := by
  apply BitVec.eq_of_getLsbD_eq
  intro i hi
  rw [BitVec.getLsbD_and, getLsbD_mask]
  by_cases h1 : i < w
  · simp [h1, hi]
  · have : v.getLsbD i = false := by
      rw [← BitVec.testBit_toNat]
      exact Nat.testBit_lt_two_pow (Nat.lt_of_lt_of_le h (Nat.pow_le_pow_right (by omega) (by omega)))
    simp [this]

/-- Keeping a field of a word and inserting into it are the same thing where the new word came from the old one: a software
write of a field leaves a hardware-owned field apart from it alone. -/
theorem keep_insert_apart (d e : Desc) (w v : Word)
    (h : d.offset + d.width ≤ e.offset ∨ e.offset + e.width ≤ d.offset) :
    keepBits (fieldMask e) w (insertField d w v) = insertField d w v := by
  apply BitVec.eq_of_getLsbD_eq
  intro i _
  rw [getLsbD_keepBits, getLsbD_fieldMask, getLsbD_insertField]
  by_cases h1 : d.offset ≤ i ∧ i < d.offset + d.width
  · rw [if_neg (by simp; omega)]
  · simp [h1]

end Sys2Proof.Machine
end

