-- ==== Sys2Proof/Laws/Codes.lean ====
section
/-! SUPPORT. The operand codes of 30_encoding R93 and the cause codes of R99, in both directions. -/
namespace Sys2Proof

theorem PllSrc.ofCode_code (src : PllSrc) : PllSrc.ofCode src.code = src := by cases src <;> rfl

theorem PllSrc.code_ofCode (c : BitVec 1) : (PllSrc.ofCode c).code = c := by revert c; decide

theorem PllP.ofCode_code (p : PllP) : PllP.ofCode p.code = p := by cases p <;> rfl

theorem PllP.code_ofCode (c : BitVec 2) : (PllP.ofCode c).code = c := by revert c; decide

theorem ClkSrc.ofCode_code (src : ClkSrc) : ClkSrc.ofCode src.code = some src := by cases src <;> rfl

theorem ClkSrc.code_of_ofCode (c : BitVec 2) (src : ClkSrc) (h : ClkSrc.ofCode c = some src) : src.code = c := by
  cases src <;> revert c <;> decide

theorem AhbPre.ofCode_code (pre : AhbPre) : AhbPre.ofCode pre.code = some pre := by cases pre <;> rfl

theorem AhbPre.code_of_ofCode (c : BitVec 4) (pre : AhbPre) (h : AhbPre.ofCode c = some pre) : pre.code = c := by
  cases pre <;> revert c <;> decide

theorem ApbPre.ofCode_code (pre : ApbPre) : ApbPre.ofCode pre.code = some pre := by cases pre <;> rfl

theorem ApbPre.code_of_ofCode (c : BitVec 3) (pre : ApbPre) (h : ApbPre.ofCode c = some pre) : pre.code = c := by
  cases pre <;> revert c <;> decide

theorem AhbBank.ofCode_code (bank : AhbBank) : AhbBank.ofCode bank.code = some bank := by cases bank <;> rfl

theorem AhbBank.code_of_ofCode (c : BitVec 2) (bank : AhbBank) (h : AhbBank.ofCode c = some bank) : bank.code = c := by
  cases bank <;> revert c <;> decide

theorem ApbBank.ofCode_code (bank : ApbBank) : ApbBank.ofCode bank.code = some bank := by cases bank <;> rfl

theorem ApbBank.code_of_ofCode (c : BitVec 2) (bank : ApbBank) (h : ApbBank.ofCode c = some bank) : bank.code = c := by
  cases bank <;> revert c <;> decide

theorem ClkSel.ofCode_code (which : ClkSel) : ClkSel.ofCode which.code = which := by cases which <;> rfl

theorem ClkSel.code_ofCode (c : BitVec 2) : (ClkSel.ofCode c).code = c := by revert c; decide

theorem StatSel.ofCode_code (sel : StatSel) : StatSel.ofCode sel.code = some sel := by cases sel <;> rfl

theorem StatSel.code_of_ofCode (c : BitVec 3) (sel : StatSel) (h : StatSel.ofCode c = some sel) : sel.code = c := by
  cases sel <;> revert c <;> decide

theorem enOfCode_enCode (en : Bool) : enOfCode (enCode en) = en := by cases en <;> rfl

theorem enCode_enOfCode (c : BitVec 1) : enCode (enOfCode c) = c := by revert c; decide

theorem Cause.ofCode_code (c : Cause) : Cause.ofCode c.code = some c := by cases c <;> rfl

theorem Cause.code_of_ofCode (code : BitVec 3) (c : Cause) (h : Cause.ofCode code = some c) : c.code = code := by
  cases c <;> revert code <;> decide

/-- Different causes select different instructions. -/
theorem Cause.instr_injective (c d : Cause) (h : c.instr = d.instr) : c = d := by cases c <;> cases d <;> first | rfl | cases h

end Sys2Proof
end

