-- ==== Sys2Proof/Laws/State.lean ====
section
/-! SUPPORT. One lemma per field per update: what each shared operation leaves alone, so that no proof unfolds a record update. -/
namespace Sys2Proof.Machine

/-! `State.setWord` -/

@[simp] theorem setWord_cfg (s : State) (r : Reg) (v : Word) : (s.setWord r v).cfg = s.cfg := by cases r <;> rfl

@[simp] theorem setWord_snap (s : State) (r : Reg) (v : Word) : (s.setWord r v).snap = s.snap := by cases r <;> rfl

@[simp] theorem setWord_pllOscHz (s : State) (r : Reg) (v : Word) : (s.setWord r v).pllOscHz = s.pllOscHz := by cases r <;> rfl

@[simp] theorem setWord_faultCount (s : State) (r : Reg) (v : Word) : (s.setWord r v).faultCount = s.faultCount := by cases r <;> rfl

@[simp] theorem setWord_overrunCount (s : State) (r : Reg) (v : Word) : (s.setWord r v).overrunCount = s.overrunCount := by cases r <;> rfl

@[simp] theorem setWord_seq (s : State) (r : Reg) (v : Word) : (s.setWord r v).seq = s.seq := by cases r <;> rfl

@[simp] theorem setWord_op (s : State) (r : Reg) (v : Word) : (s.setWord r v).op = s.op := by cases r <;> rfl

@[simp] theorem setWord_resp (s : State) (r : Reg) (v : Word) : (s.setWord r v).resp = s.resp := by cases r <;> rfl

@[simp] theorem setWord_txFifo (s : State) (r : Reg) (v : Word) : (s.setWord r v).txFifo = s.txFifo := by cases r <;> rfl

@[simp] theorem setWord_rxFifo (s : State) (r : Reg) (v : Word) : (s.setWord r v).rxFifo = s.rxFifo := by cases r <;> rfl

@[simp] theorem setWord_serState (s : State) (r : Reg) (v : Word) : (s.setWord r v).serState = s.serState := by cases r <;> rfl

@[simp] theorem setWord_serInited (s : State) (r : Reg) (v : Word) : (s.setWord r v).serInited = s.serInited := by cases r <;> rfl

@[simp] theorem setWord_inHandler (s : State) (r : Reg) (v : Word) : (s.setWord r v).inHandler = s.inHandler := by cases r <;> rfl

@[simp] theorem setWord_txWire (s : State) (r : Reg) (v : Word) : (s.setWord r v).txWire = s.txWire := by cases r <;> rfl

@[simp] theorem setWord_cmdIn (s : State) (r : Reg) (v : Word) : (s.setWord r v).cmdIn = s.cmdIn := by cases r <;> rfl

@[simp] theorem setWord_turns (s : State) (r : Reg) (v : Word) : (s.setWord r v).turns = s.turns := by cases r <;> rfl

@[simp] theorem setWord_draws (s : State) (r : Reg) (v : Word) : (s.setWord r v).draws = s.draws := by cases r <;> rfl

/-! `State.hwSet` -/

@[simp] theorem hwSet_cfg (s : State) (f : Field) (v : Word) : (s.hwSet f v).cfg = s.cfg := setWord_cfg _ _ _

@[simp] theorem hwSet_snap (s : State) (f : Field) (v : Word) : (s.hwSet f v).snap = s.snap := setWord_snap _ _ _

@[simp] theorem hwSet_pllOscHz (s : State) (f : Field) (v : Word) : (s.hwSet f v).pllOscHz = s.pllOscHz := setWord_pllOscHz _ _ _

@[simp] theorem hwSet_faultCount (s : State) (f : Field) (v : Word) : (s.hwSet f v).faultCount = s.faultCount := setWord_faultCount _ _ _

@[simp] theorem hwSet_overrunCount (s : State) (f : Field) (v : Word) : (s.hwSet f v).overrunCount = s.overrunCount := setWord_overrunCount _ _ _

@[simp] theorem hwSet_seq (s : State) (f : Field) (v : Word) : (s.hwSet f v).seq = s.seq := setWord_seq _ _ _

@[simp] theorem hwSet_op (s : State) (f : Field) (v : Word) : (s.hwSet f v).op = s.op := setWord_op _ _ _

@[simp] theorem hwSet_resp (s : State) (f : Field) (v : Word) : (s.hwSet f v).resp = s.resp := setWord_resp _ _ _

@[simp] theorem hwSet_txFifo (s : State) (f : Field) (v : Word) : (s.hwSet f v).txFifo = s.txFifo := setWord_txFifo _ _ _

@[simp] theorem hwSet_rxFifo (s : State) (f : Field) (v : Word) : (s.hwSet f v).rxFifo = s.rxFifo := setWord_rxFifo _ _ _

@[simp] theorem hwSet_serState (s : State) (f : Field) (v : Word) : (s.hwSet f v).serState = s.serState := setWord_serState _ _ _

@[simp] theorem hwSet_serInited (s : State) (f : Field) (v : Word) : (s.hwSet f v).serInited = s.serInited := setWord_serInited _ _ _

@[simp] theorem hwSet_inHandler (s : State) (f : Field) (v : Word) : (s.hwSet f v).inHandler = s.inHandler := setWord_inHandler _ _ _

@[simp] theorem hwSet_txWire (s : State) (f : Field) (v : Word) : (s.hwSet f v).txWire = s.txWire := setWord_txWire _ _ _

@[simp] theorem hwSet_cmdIn (s : State) (f : Field) (v : Word) : (s.hwSet f v).cmdIn = s.cmdIn := setWord_cmdIn _ _ _

@[simp] theorem hwSet_turns (s : State) (f : Field) (v : Word) : (s.hwSet f v).turns = s.turns := setWord_turns _ _ _

@[simp] theorem hwSet_draws (s : State) (f : Field) (v : Word) : (s.hwSet f v).draws = s.draws := setWord_draws _ _ _

/-! `respond` -/

@[simp] theorem respond_cfg (s : State) (st : Status) (v : Word) : (respond st v s).cfg = s.cfg := rfl

@[simp] theorem respond_snap (s : State) (st : Status) (v : Word) : (respond st v s).snap = s.snap := rfl

@[simp] theorem respond_pllOscHz (s : State) (st : Status) (v : Word) : (respond st v s).pllOscHz = s.pllOscHz := rfl

@[simp] theorem respond_faultCount (s : State) (st : Status) (v : Word) : (respond st v s).faultCount = s.faultCount := rfl

@[simp] theorem respond_overrunCount (s : State) (st : Status) (v : Word) : (respond st v s).overrunCount = s.overrunCount := rfl

@[simp] theorem respond_rcc (s : State) (st : Status) (v : Word) : (respond st v s).rcc = s.rcc := rfl

@[simp] theorem respond_ser (s : State) (st : Status) (v : Word) : (respond st v s).ser = s.ser := rfl

@[simp] theorem respond_txFifo (s : State) (st : Status) (v : Word) : (respond st v s).txFifo = s.txFifo := rfl

@[simp] theorem respond_rxFifo (s : State) (st : Status) (v : Word) : (respond st v s).rxFifo = s.rxFifo := rfl

@[simp] theorem respond_serState (s : State) (st : Status) (v : Word) : (respond st v s).serState = s.serState := rfl

@[simp] theorem respond_serInited (s : State) (st : Status) (v : Word) : (respond st v s).serInited = s.serInited := rfl

@[simp] theorem respond_inHandler (s : State) (st : Status) (v : Word) : (respond st v s).inHandler = s.inHandler := rfl

@[simp] theorem respond_txWire (s : State) (st : Status) (v : Word) : (respond st v s).txWire = s.txWire := rfl

@[simp] theorem respond_cmdIn (s : State) (st : Status) (v : Word) : (respond st v s).cmdIn = s.cmdIn := rfl

@[simp] theorem respond_turns (s : State) (st : Status) (v : Word) : (respond st v s).turns = s.turns := rfl

@[simp] theorem respond_draws (s : State) (st : Status) (v : Word) : (respond st v s).draws = s.draws := rfl

/-! `raise` -/

@[simp] theorem raise_cfg (s : State) (st : Status) : (raise st s).cfg = s.cfg := rfl

@[simp] theorem raise_snap (s : State) (st : Status) : (raise st s).snap = s.snap := rfl

@[simp] theorem raise_pllOscHz (s : State) (st : Status) : (raise st s).pllOscHz = s.pllOscHz := rfl

@[simp] theorem raise_faultCount (s : State) (st : Status) : (raise st s).faultCount = s.faultCount := rfl

@[simp] theorem raise_overrunCount (s : State) (st : Status) : (raise st s).overrunCount = s.overrunCount := rfl

@[simp] theorem raise_rcc (s : State) (st : Status) : (raise st s).rcc = s.rcc := rfl

@[simp] theorem raise_ser (s : State) (st : Status) : (raise st s).ser = s.ser := rfl

@[simp] theorem raise_txFifo (s : State) (st : Status) : (raise st s).txFifo = s.txFifo := rfl

@[simp] theorem raise_rxFifo (s : State) (st : Status) : (raise st s).rxFifo = s.rxFifo := rfl

@[simp] theorem raise_serState (s : State) (st : Status) : (raise st s).serState = s.serState := rfl

@[simp] theorem raise_serInited (s : State) (st : Status) : (raise st s).serInited = s.serInited := rfl

@[simp] theorem raise_inHandler (s : State) (st : Status) : (raise st s).inHandler = s.inHandler := rfl

@[simp] theorem raise_txWire (s : State) (st : Status) : (raise st s).txWire = s.txWire := rfl

@[simp] theorem raise_cmdIn (s : State) (st : Status) : (raise st s).cmdIn = s.cmdIn := rfl

@[simp] theorem raise_turns (s : State) (st : Status) : (raise st s).turns = s.turns := rfl

@[simp] theorem raise_draws (s : State) (st : Status) : (raise st s).draws = s.draws := rfl

/-! `latch` -/

@[simp] theorem latch_cfg (s : State) (i : Instr) (q : Seq) : (latch i q s).cfg = s.cfg := rfl

@[simp] theorem latch_snap (s : State) (i : Instr) (q : Seq) : (latch i q s).snap = s.snap := rfl

@[simp] theorem latch_pllOscHz (s : State) (i : Instr) (q : Seq) : (latch i q s).pllOscHz = s.pllOscHz := rfl

@[simp] theorem latch_faultCount (s : State) (i : Instr) (q : Seq) : (latch i q s).faultCount = s.faultCount := rfl

@[simp] theorem latch_overrunCount (s : State) (i : Instr) (q : Seq) : (latch i q s).overrunCount = s.overrunCount := rfl

@[simp] theorem latch_resp (s : State) (i : Instr) (q : Seq) : (latch i q s).resp = s.resp := rfl

@[simp] theorem latch_rcc (s : State) (i : Instr) (q : Seq) : (latch i q s).rcc = s.rcc := rfl

@[simp] theorem latch_ser (s : State) (i : Instr) (q : Seq) : (latch i q s).ser = s.ser := rfl

@[simp] theorem latch_txFifo (s : State) (i : Instr) (q : Seq) : (latch i q s).txFifo = s.txFifo := rfl

@[simp] theorem latch_rxFifo (s : State) (i : Instr) (q : Seq) : (latch i q s).rxFifo = s.rxFifo := rfl

@[simp] theorem latch_serState (s : State) (i : Instr) (q : Seq) : (latch i q s).serState = s.serState := rfl

@[simp] theorem latch_serInited (s : State) (i : Instr) (q : Seq) : (latch i q s).serInited = s.serInited := rfl

@[simp] theorem latch_inHandler (s : State) (i : Instr) (q : Seq) : (latch i q s).inHandler = s.inHandler := rfl

@[simp] theorem latch_txWire (s : State) (i : Instr) (q : Seq) : (latch i q s).txWire = s.txWire := rfl

@[simp] theorem latch_cmdIn (s : State) (i : Instr) (q : Seq) : (latch i q s).cmdIn = s.cmdIn := rfl

@[simp] theorem latch_turns (s : State) (i : Instr) (q : Seq) : (latch i q s).turns = s.turns := rfl

@[simp] theorem latch_draws (s : State) (i : Instr) (q : Seq) : (latch i q s).draws = s.draws := rfl

/-! `countFault` -/

@[simp] theorem countFault_cfg (s : State) : (countFault s).cfg = s.cfg := rfl

@[simp] theorem countFault_snap (s : State) : (countFault s).snap = s.snap := rfl

@[simp] theorem countFault_pllOscHz (s : State) : (countFault s).pllOscHz = s.pllOscHz := rfl

@[simp] theorem countFault_overrunCount (s : State) : (countFault s).overrunCount = s.overrunCount := rfl

@[simp] theorem countFault_seq (s : State) : (countFault s).seq = s.seq := rfl

@[simp] theorem countFault_op (s : State) : (countFault s).op = s.op := rfl

@[simp] theorem countFault_resp (s : State) : (countFault s).resp = s.resp := rfl

@[simp] theorem countFault_rcc (s : State) : (countFault s).rcc = s.rcc := rfl

@[simp] theorem countFault_ser (s : State) : (countFault s).ser = s.ser := rfl

@[simp] theorem countFault_txFifo (s : State) : (countFault s).txFifo = s.txFifo := rfl

@[simp] theorem countFault_rxFifo (s : State) : (countFault s).rxFifo = s.rxFifo := rfl

@[simp] theorem countFault_serState (s : State) : (countFault s).serState = s.serState := rfl

@[simp] theorem countFault_serInited (s : State) : (countFault s).serInited = s.serInited := rfl

@[simp] theorem countFault_inHandler (s : State) : (countFault s).inHandler = s.inHandler := rfl

@[simp] theorem countFault_txWire (s : State) : (countFault s).txWire = s.txWire := rfl

@[simp] theorem countFault_cmdIn (s : State) : (countFault s).cmdIn = s.cmdIn := rfl

@[simp] theorem countFault_turns (s : State) : (countFault s).turns = s.turns := rfl

@[simp] theorem countFault_draws (s : State) : (countFault s).draws = s.draws := rfl

/-! `countOverrun` -/

@[simp] theorem countOverrun_cfg (s : State) : (countOverrun s).cfg = s.cfg := rfl

@[simp] theorem countOverrun_snap (s : State) : (countOverrun s).snap = s.snap := rfl

@[simp] theorem countOverrun_pllOscHz (s : State) : (countOverrun s).pllOscHz = s.pllOscHz := rfl

@[simp] theorem countOverrun_faultCount (s : State) : (countOverrun s).faultCount = s.faultCount := rfl

@[simp] theorem countOverrun_seq (s : State) : (countOverrun s).seq = s.seq := rfl

@[simp] theorem countOverrun_op (s : State) : (countOverrun s).op = s.op := rfl

@[simp] theorem countOverrun_resp (s : State) : (countOverrun s).resp = s.resp := rfl

@[simp] theorem countOverrun_rcc (s : State) : (countOverrun s).rcc = s.rcc := rfl

@[simp] theorem countOverrun_ser (s : State) : (countOverrun s).ser = s.ser := rfl

@[simp] theorem countOverrun_txFifo (s : State) : (countOverrun s).txFifo = s.txFifo := rfl

@[simp] theorem countOverrun_rxFifo (s : State) : (countOverrun s).rxFifo = s.rxFifo := rfl

@[simp] theorem countOverrun_serState (s : State) : (countOverrun s).serState = s.serState := rfl

@[simp] theorem countOverrun_serInited (s : State) : (countOverrun s).serInited = s.serInited := rfl

@[simp] theorem countOverrun_inHandler (s : State) : (countOverrun s).inHandler = s.inHandler := rfl

@[simp] theorem countOverrun_txWire (s : State) : (countOverrun s).txWire = s.txWire := rfl

@[simp] theorem countOverrun_cmdIn (s : State) : (countOverrun s).cmdIn = s.cmdIn := rfl

@[simp] theorem countOverrun_turns (s : State) : (countOverrun s).turns = s.turns := rfl

@[simp] theorem countOverrun_draws (s : State) : (countOverrun s).draws = s.draws := rfl

/-! `setSerState` -/

@[simp] theorem setSerState_cfg (s : State) (v : SerState) : (setSerState v s).cfg = s.cfg := rfl

@[simp] theorem setSerState_snap (s : State) (v : SerState) : (setSerState v s).snap = s.snap := rfl

@[simp] theorem setSerState_pllOscHz (s : State) (v : SerState) : (setSerState v s).pllOscHz = s.pllOscHz := rfl

@[simp] theorem setSerState_faultCount (s : State) (v : SerState) : (setSerState v s).faultCount = s.faultCount := rfl

@[simp] theorem setSerState_overrunCount (s : State) (v : SerState) : (setSerState v s).overrunCount = s.overrunCount := rfl

@[simp] theorem setSerState_seq (s : State) (v : SerState) : (setSerState v s).seq = s.seq := rfl

@[simp] theorem setSerState_op (s : State) (v : SerState) : (setSerState v s).op = s.op := rfl

@[simp] theorem setSerState_resp (s : State) (v : SerState) : (setSerState v s).resp = s.resp := rfl

@[simp] theorem setSerState_rcc (s : State) (v : SerState) : (setSerState v s).rcc = s.rcc := rfl

@[simp] theorem setSerState_ser (s : State) (v : SerState) : (setSerState v s).ser = s.ser := rfl

@[simp] theorem setSerState_txFifo (s : State) (v : SerState) : (setSerState v s).txFifo = s.txFifo := rfl

@[simp] theorem setSerState_rxFifo (s : State) (v : SerState) : (setSerState v s).rxFifo = s.rxFifo := rfl

@[simp] theorem setSerState_serInited (s : State) (v : SerState) : (setSerState v s).serInited = s.serInited := rfl

@[simp] theorem setSerState_inHandler (s : State) (v : SerState) : (setSerState v s).inHandler = s.inHandler := rfl

@[simp] theorem setSerState_txWire (s : State) (v : SerState) : (setSerState v s).txWire = s.txWire := rfl

@[simp] theorem setSerState_cmdIn (s : State) (v : SerState) : (setSerState v s).cmdIn = s.cmdIn := rfl

@[simp] theorem setSerState_turns (s : State) (v : SerState) : (setSerState v s).turns = s.turns := rfl

@[simp] theorem setSerState_draws (s : State) (v : SerState) : (setSerState v s).draws = s.draws := rfl

/-! `enterHandler` -/

@[simp] theorem enterHandler_cfg (s : State) : (enterHandler s).cfg = s.cfg := rfl

@[simp] theorem enterHandler_snap (s : State) : (enterHandler s).snap = s.snap := rfl

@[simp] theorem enterHandler_pllOscHz (s : State) : (enterHandler s).pllOscHz = s.pllOscHz := rfl

@[simp] theorem enterHandler_faultCount (s : State) : (enterHandler s).faultCount = s.faultCount := rfl

@[simp] theorem enterHandler_overrunCount (s : State) : (enterHandler s).overrunCount = s.overrunCount := rfl

@[simp] theorem enterHandler_seq (s : State) : (enterHandler s).seq = s.seq := rfl

@[simp] theorem enterHandler_op (s : State) : (enterHandler s).op = s.op := rfl

@[simp] theorem enterHandler_resp (s : State) : (enterHandler s).resp = s.resp := rfl

@[simp] theorem enterHandler_rcc (s : State) : (enterHandler s).rcc = s.rcc := rfl

@[simp] theorem enterHandler_ser (s : State) : (enterHandler s).ser = s.ser := rfl

@[simp] theorem enterHandler_txFifo (s : State) : (enterHandler s).txFifo = s.txFifo := rfl

@[simp] theorem enterHandler_rxFifo (s : State) : (enterHandler s).rxFifo = s.rxFifo := rfl

@[simp] theorem enterHandler_serState (s : State) : (enterHandler s).serState = s.serState := rfl

@[simp] theorem enterHandler_serInited (s : State) : (enterHandler s).serInited = s.serInited := rfl

@[simp] theorem enterHandler_txWire (s : State) : (enterHandler s).txWire = s.txWire := rfl

@[simp] theorem enterHandler_cmdIn (s : State) : (enterHandler s).cmdIn = s.cmdIn := rfl

@[simp] theorem enterHandler_turns (s : State) : (enterHandler s).turns = s.turns := rfl

@[simp] theorem enterHandler_draws (s : State) : (enterHandler s).draws = s.draws := rfl

/-! `leaveHandler` -/

@[simp] theorem leaveHandler_cfg (s : State) : (leaveHandler s).cfg = s.cfg := rfl

@[simp] theorem leaveHandler_snap (s : State) : (leaveHandler s).snap = s.snap := rfl

@[simp] theorem leaveHandler_pllOscHz (s : State) : (leaveHandler s).pllOscHz = s.pllOscHz := rfl

@[simp] theorem leaveHandler_faultCount (s : State) : (leaveHandler s).faultCount = s.faultCount := rfl

@[simp] theorem leaveHandler_overrunCount (s : State) : (leaveHandler s).overrunCount = s.overrunCount := rfl

@[simp] theorem leaveHandler_seq (s : State) : (leaveHandler s).seq = s.seq := rfl

@[simp] theorem leaveHandler_op (s : State) : (leaveHandler s).op = s.op := rfl

@[simp] theorem leaveHandler_resp (s : State) : (leaveHandler s).resp = s.resp := rfl

@[simp] theorem leaveHandler_rcc (s : State) : (leaveHandler s).rcc = s.rcc := rfl

@[simp] theorem leaveHandler_ser (s : State) : (leaveHandler s).ser = s.ser := rfl

@[simp] theorem leaveHandler_txFifo (s : State) : (leaveHandler s).txFifo = s.txFifo := rfl

@[simp] theorem leaveHandler_rxFifo (s : State) : (leaveHandler s).rxFifo = s.rxFifo := rfl

@[simp] theorem leaveHandler_serState (s : State) : (leaveHandler s).serState = s.serState := rfl

@[simp] theorem leaveHandler_serInited (s : State) : (leaveHandler s).serInited = s.serInited := rfl

@[simp] theorem leaveHandler_txWire (s : State) : (leaveHandler s).txWire = s.txWire := rfl

@[simp] theorem leaveHandler_cmdIn (s : State) : (leaveHandler s).cmdIn = s.cmdIn := rfl

@[simp] theorem leaveHandler_turns (s : State) : (leaveHandler s).turns = s.turns := rfl

@[simp] theorem leaveHandler_draws (s : State) : (leaveHandler s).draws = s.draws := rfl

/-! What the updates do set. -/

@[simp] theorem respond_resp (s : State) (st : Status) (v : Word) : (respond st v s).resp = some ⟨st, v⟩ := rfl

@[simp] theorem respond_seq (s : State) (st : Status) (v : Word) : (respond st v s).seq = .idle := rfl

@[simp] theorem respond_op (s : State) (st : Status) (v : Word) : (respond st v s).op = none := rfl

@[simp] theorem raise_resp (s : State) (st : Status) : (raise st s).resp = some ⟨st, 0⟩ := rfl

@[simp] theorem raise_seq (s : State) (st : Status) : (raise st s).seq = .idle := rfl

@[simp] theorem raise_op (s : State) (st : Status) : (raise st s).op = none := rfl

@[simp] theorem latch_seq (s : State) (i : Instr) (q : Seq) : (latch i q s).seq = q := rfl

@[simp] theorem latch_op (s : State) (i : Instr) (q : Seq) : (latch i q s).op = some i := rfl

@[simp] theorem countFault_faultCount (s : State) : (countFault s).faultCount = s.faultCount + 1 := rfl

@[simp] theorem countOverrun_overrunCount (s : State) : (countOverrun s).overrunCount = s.overrunCount + 1 := rfl

@[simp] theorem setSerState_serState (s : State) (v : SerState) : (setSerState v s).serState = v := rfl

@[simp] theorem enterHandler_inHandler (s : State) : (enterHandler s).inHandler = true := rfl

@[simp] theorem leaveHandler_inHandler (s : State) : (leaveHandler s).inHandler = false := rfl

/-- A stored word reads back, and no other register's word changes; `SER_DR` stores nothing. -/
theorem word_setWord (s : State) (r q : Reg) (v : Word) :
    (s.setWord r v).word q = if q = r ∧ r ≠ .serDr then v else s.word q := by
  cases r <;> cases q <;> rfl

/-- A store into the clock block leaves the serial block alone. -/
theorem setWord_ser_of_rcc (s : State) (r : Reg) (v : Word) (h : regOfSer r = false) : (s.setWord r v).ser = s.ser := by
  cases r <;> simp_all [regOfSer, State.setWord]

/-- A store into the serial block leaves the clock block alone. -/
theorem setWord_rcc_of_ser (s : State) (r : Reg) (v : Word) (h : regOfSer r = true) : (s.setWord r v).rcc = s.rcc := by
  cases r <;> simp_all [regOfSer, State.setWord]

/-- A store of a word changes no data latch. -/
@[simp] theorem setWord_drRx (s : State) (r : Reg) (v : Word) : (s.setWord r v).ser.drRx = s.ser.drRx := by cases r <;> rfl

@[simp] theorem setWord_drTx (s : State) (r : Reg) (v : Word) : (s.setWord r v).ser.drTx = s.ser.drTx := by cases r <;> rfl

/-- A store is nothing but a change of the two register blocks. -/
theorem setWord_eq (s : State) (r : Reg) (v : Word) :
    s.setWord r v = { s with rcc := (s.setWord r v).rcc, ser := (s.setWord r v).ser } := by cases r <;> rfl

@[simp] theorem field_respond (s : State) (st : Status) (v : Word) (f : Field) : (respond st v s).field f = s.field f := rfl

@[simp] theorem field_raise (s : State) (st : Status) (f : Field) : (raise st s).field f = s.field f := rfl

@[simp] theorem field_latch (s : State) (i : Instr) (q : Seq) (f : Field) : (latch i q s).field f = s.field f := rfl

@[simp] theorem field_countFault (s : State) (f : Field) : (countFault s).field f = s.field f := rfl

@[simp] theorem field_countOverrun (s : State) (f : Field) : (countOverrun s).field f = s.field f := rfl

@[simp] theorem field_setSerState (s : State) (v : SerState) (f : Field) : (setSerState v s).field f = s.field f := rfl

@[simp] theorem field_enterHandler (s : State) (f : Field) : (enterHandler s).field f = s.field f := rfl

@[simp] theorem field_leaveHandler (s : State) (f : Field) : (leaveHandler s).field f = s.field f := rfl

end Sys2Proof.Machine
end

