-- ==== Sys2Proof/Laws/Registers.lean ====
section
/-! SUPPORT. Register accesses: what a bus read or write can change, and how named fields behave under hardware and software
writes of a machine whose descriptor table is well formed (20_memory R62, R66 to R68; 40_register_access R120 to R123). -/
namespace Sys2Proof.Machine

/-! What a bus access leaves alone. -/

@[simp] theorem regRead_cfg (r : Reg) (s : State) : (regRead r s).2.cfg = s.cfg := by
  cases r <;> simp [regRead]

@[simp] theorem regRead_snap (r : Reg) (s : State) : (regRead r s).2.snap = s.snap := by
  cases r <;> simp [regRead]

@[simp] theorem regRead_pllOscHz (r : Reg) (s : State) : (regRead r s).2.pllOscHz = s.pllOscHz := by
  cases r <;> simp [regRead]

@[simp] theorem regRead_faultCount (r : Reg) (s : State) : (regRead r s).2.faultCount = s.faultCount := by
  cases r <;> simp [regRead]

@[simp] theorem regRead_overrunCount (r : Reg) (s : State) : (regRead r s).2.overrunCount = s.overrunCount := by
  cases r <;> simp [regRead]

@[simp] theorem regRead_seq (r : Reg) (s : State) : (regRead r s).2.seq = s.seq := by
  cases r <;> simp [regRead]

@[simp] theorem regRead_op (r : Reg) (s : State) : (regRead r s).2.op = s.op := by
  cases r <;> simp [regRead]

@[simp] theorem regRead_resp (r : Reg) (s : State) : (regRead r s).2.resp = s.resp := by
  cases r <;> simp [regRead]

@[simp] theorem regRead_txFifo (r : Reg) (s : State) : (regRead r s).2.txFifo = s.txFifo := by
  cases r <;> simp [regRead]

@[simp] theorem regRead_rxFifo (r : Reg) (s : State) : (regRead r s).2.rxFifo = s.rxFifo := by
  cases r <;> simp [regRead]

@[simp] theorem regRead_serState (r : Reg) (s : State) : (regRead r s).2.serState = s.serState := by
  cases r <;> simp [regRead]

@[simp] theorem regRead_serInited (r : Reg) (s : State) : (regRead r s).2.serInited = s.serInited := by
  cases r <;> simp [regRead]

@[simp] theorem regRead_inHandler (r : Reg) (s : State) : (regRead r s).2.inHandler = s.inHandler := by
  cases r <;> simp [regRead]

@[simp] theorem regRead_cmdIn (r : Reg) (s : State) : (regRead r s).2.cmdIn = s.cmdIn := by
  cases r <;> simp [regRead]

@[simp] theorem regRead_turns (r : Reg) (s : State) : (regRead r s).2.turns = s.turns := by
  cases r <;> simp [regRead]

@[simp] theorem regRead_draws (r : Reg) (s : State) : (regRead r s).2.draws = s.draws := by
  cases r <;> simp [regRead]

@[simp] theorem regRead_txWire (r : Reg) (s : State) : (regRead r s).2.txWire = s.txWire := by
  cases r <;> simp [regRead]

@[simp] theorem regWrite_cfg (r : Reg) (v : Word) (s : State) : (regWrite r v s).cfg = s.cfg := by
  cases r <;> simp only [regWrite] <;> (try split) <;> simp

@[simp] theorem regWrite_snap (r : Reg) (v : Word) (s : State) : (regWrite r v s).snap = s.snap := by
  cases r <;> simp only [regWrite] <;> (try split) <;> simp

@[simp] theorem regWrite_pllOscHz (r : Reg) (v : Word) (s : State) : (regWrite r v s).pllOscHz = s.pllOscHz := by
  cases r <;> simp only [regWrite] <;> (try split) <;> simp

@[simp] theorem regWrite_faultCount (r : Reg) (v : Word) (s : State) : (regWrite r v s).faultCount = s.faultCount := by
  cases r <;> simp only [regWrite] <;> (try split) <;> simp

@[simp] theorem regWrite_overrunCount (r : Reg) (v : Word) (s : State) : (regWrite r v s).overrunCount = s.overrunCount := by
  cases r <;> simp only [regWrite] <;> (try split) <;> simp

@[simp] theorem regWrite_seq (r : Reg) (v : Word) (s : State) : (regWrite r v s).seq = s.seq := by
  cases r <;> simp only [regWrite] <;> (try split) <;> simp

@[simp] theorem regWrite_op (r : Reg) (v : Word) (s : State) : (regWrite r v s).op = s.op := by
  cases r <;> simp only [regWrite] <;> (try split) <;> simp

@[simp] theorem regWrite_resp (r : Reg) (v : Word) (s : State) : (regWrite r v s).resp = s.resp := by
  cases r <;> simp only [regWrite] <;> (try split) <;> simp

@[simp] theorem regWrite_txFifo (r : Reg) (v : Word) (s : State) : (regWrite r v s).txFifo = s.txFifo := by
  cases r <;> simp only [regWrite] <;> (try split) <;> simp

@[simp] theorem regWrite_rxFifo (r : Reg) (v : Word) (s : State) : (regWrite r v s).rxFifo = s.rxFifo := by
  cases r <;> simp only [regWrite] <;> (try split) <;> simp

@[simp] theorem regWrite_serState (r : Reg) (v : Word) (s : State) : (regWrite r v s).serState = s.serState := by
  cases r <;> simp only [regWrite] <;> (try split) <;> simp

@[simp] theorem regWrite_serInited (r : Reg) (v : Word) (s : State) : (regWrite r v s).serInited = s.serInited := by
  cases r <;> simp only [regWrite] <;> (try split) <;> simp

@[simp] theorem regWrite_inHandler (r : Reg) (v : Word) (s : State) : (regWrite r v s).inHandler = s.inHandler := by
  cases r <;> simp only [regWrite] <;> (try split) <;> simp

@[simp] theorem regWrite_cmdIn (r : Reg) (v : Word) (s : State) : (regWrite r v s).cmdIn = s.cmdIn := by
  cases r <;> simp only [regWrite] <;> (try split) <;> simp

@[simp] theorem regWrite_turns (r : Reg) (v : Word) (s : State) : (regWrite r v s).turns = s.turns := by
  cases r <;> simp only [regWrite] <;> (try split) <;> simp

@[simp] theorem regWrite_draws (r : Reg) (v : Word) (s : State) : (regWrite r v s).draws = s.draws := by
  cases r <;> simp only [regWrite] <;> (try split) <;> simp

@[simp] theorem wrf_cfg (d : Desc) (v : Word) (s : State) : (wrf d v s).cfg = s.cfg := by simp [wrf]

@[simp] theorem wrf_snap (d : Desc) (v : Word) (s : State) : (wrf d v s).snap = s.snap := by simp [wrf]

@[simp] theorem wrf_pllOscHz (d : Desc) (v : Word) (s : State) : (wrf d v s).pllOscHz = s.pllOscHz := by simp [wrf]

@[simp] theorem wrf_faultCount (d : Desc) (v : Word) (s : State) : (wrf d v s).faultCount = s.faultCount := by simp [wrf]

@[simp] theorem wrf_overrunCount (d : Desc) (v : Word) (s : State) : (wrf d v s).overrunCount = s.overrunCount := by simp [wrf]

@[simp] theorem wrf_seq (d : Desc) (v : Word) (s : State) : (wrf d v s).seq = s.seq := by simp [wrf]

@[simp] theorem wrf_op (d : Desc) (v : Word) (s : State) : (wrf d v s).op = s.op := by simp [wrf]

@[simp] theorem wrf_resp (d : Desc) (v : Word) (s : State) : (wrf d v s).resp = s.resp := by simp [wrf]

@[simp] theorem wrf_txFifo (d : Desc) (v : Word) (s : State) : (wrf d v s).txFifo = s.txFifo := by simp [wrf]

@[simp] theorem wrf_rxFifo (d : Desc) (v : Word) (s : State) : (wrf d v s).rxFifo = s.rxFifo := by simp [wrf]

@[simp] theorem wrf_serState (d : Desc) (v : Word) (s : State) : (wrf d v s).serState = s.serState := by simp [wrf]

@[simp] theorem wrf_serInited (d : Desc) (v : Word) (s : State) : (wrf d v s).serInited = s.serInited := by simp [wrf]

@[simp] theorem wrf_inHandler (d : Desc) (v : Word) (s : State) : (wrf d v s).inHandler = s.inHandler := by simp [wrf]

@[simp] theorem wrf_cmdIn (d : Desc) (v : Word) (s : State) : (wrf d v s).cmdIn = s.cmdIn := by simp [wrf]

@[simp] theorem wrf_turns (d : Desc) (v : Word) (s : State) : (wrf d v s).turns = s.turns := by simp [wrf]

@[simp] theorem wrf_draws (d : Desc) (v : Word) (s : State) : (wrf d v s).draws = s.draws := by simp [wrf]

@[simp] theorem wrfF_cfg (f : Field) (v : Word) (s : State) : (wrfF f v s).cfg = s.cfg := by simp [wrfF]

@[simp] theorem wrfF_snap (f : Field) (v : Word) (s : State) : (wrfF f v s).snap = s.snap := by simp [wrfF]

@[simp] theorem wrfF_pllOscHz (f : Field) (v : Word) (s : State) : (wrfF f v s).pllOscHz = s.pllOscHz := by simp [wrfF]

@[simp] theorem wrfF_faultCount (f : Field) (v : Word) (s : State) : (wrfF f v s).faultCount = s.faultCount := by simp [wrfF]

@[simp] theorem wrfF_overrunCount (f : Field) (v : Word) (s : State) : (wrfF f v s).overrunCount = s.overrunCount := by simp [wrfF]

@[simp] theorem wrfF_seq (f : Field) (v : Word) (s : State) : (wrfF f v s).seq = s.seq := by simp [wrfF]

@[simp] theorem wrfF_op (f : Field) (v : Word) (s : State) : (wrfF f v s).op = s.op := by simp [wrfF]

@[simp] theorem wrfF_resp (f : Field) (v : Word) (s : State) : (wrfF f v s).resp = s.resp := by simp [wrfF]

@[simp] theorem wrfF_txFifo (f : Field) (v : Word) (s : State) : (wrfF f v s).txFifo = s.txFifo := by simp [wrfF]

@[simp] theorem wrfF_rxFifo (f : Field) (v : Word) (s : State) : (wrfF f v s).rxFifo = s.rxFifo := by simp [wrfF]

@[simp] theorem wrfF_serState (f : Field) (v : Word) (s : State) : (wrfF f v s).serState = s.serState := by simp [wrfF]

@[simp] theorem wrfF_serInited (f : Field) (v : Word) (s : State) : (wrfF f v s).serInited = s.serInited := by simp [wrfF]

@[simp] theorem wrfF_inHandler (f : Field) (v : Word) (s : State) : (wrfF f v s).inHandler = s.inHandler := by simp [wrfF]

@[simp] theorem wrfF_cmdIn (f : Field) (v : Word) (s : State) : (wrfF f v s).cmdIn = s.cmdIn := by simp [wrfF]

@[simp] theorem wrfF_turns (f : Field) (v : Word) (s : State) : (wrfF f v s).turns = s.turns := by simp [wrfF]

@[simp] theorem wrfF_draws (f : Field) (v : Word) (s : State) : (wrfF f v s).draws = s.draws := by simp [wrfF]

/-! Reads. -/

/-- Outside `SER_DR` a read changes nothing (R67). -/
theorem regRead_of_ne (r : Reg) (s : State) (h : r ≠ .serDr) : regRead r s = (s.word r, s) := by cases r <;> simp_all [regRead]

@[simp] theorem regRead_fst (r : Reg) (s : State) : (regRead r s).1 = s.word r := by cases r <;> rfl

@[simp] theorem fieldReg_ne_serDr (f : Field) : fieldReg f ≠ .serDr := by cases f <;> decide

theorem rdf_eq (d : Desc) (s : State) : rdf d s = extractField d (s.word d.reg) := by simp [rdf, rdfBus]

/-- Reading a named field over the bus gives the field (R120). -/
theorem rdfF_eq_field (f : Field) (s : State) : rdfF f s = s.field f := rdf_eq _ _

theorem tstbF_eq_flag (f : Field) (s : State) : tstbF f s = s.flag f := by
  simp [tstbF, tstb, State.flag, ← rdfF_eq_field, rdfF]

/-- `RDF` outside `SER_DR` leaves the state as it is (R120, R125). -/
theorem rdfBus_snd (d : Desc) (s : State) (h : d.reg ≠ .serDr) : (rdfBus d s).2 = s := by simp [rdfBus, regRead_of_ne _ _ h]

/-! The descriptor table of an accepted machine (R62). -/

theorem mem_allFields (f : Field) : f ∈ allFields := by cases f <;> decide

theorem configOk_fields (c : Config) (h : configOk c = true) : fieldsOk c = true := by
  simp only [configOk, fdOk, Bool.and_eq_true] at h
  exact h.2.1

/-- In an accepted machine every named field fits its word, lies where it may, and lies apart from every other. -/
theorem desc_checked (c : Config) (h : configOk c = true) (f : Field) :
    (desc c f).wf = true ∧ mayHold f (desc c f).reg = true ∧ ∀ g, f ≠ g → (desc c f).apart (desc c g) = true := by
  have := configOk_fields c h
  simp only [fieldsOk, Bool.and_eq_true, List.all_eq_true, Bool.or_eq_true, beq_iff_eq] at this
  have := this.2 f (mem_allFields f)
  exact ⟨this.1.1, this.1.2, fun g hne => (this.2 g (mem_allFields g)).resolve_left hne⟩

theorem desc_wf (c : Config) (h : configOk c = true) (f : Field) : (desc c f).wf = true := (desc_checked c h f).1

theorem desc_fits (c : Config) (h : configOk c = true) (f : Field) : (desc c f).offset + (desc c f).width ≤ 32 :=
  ((desc_wf_iff _).1 (desc_wf c h f)).2.1

theorem desc_pos (c : Config) (h : configOk c = true) (f : Field) : 1 ≤ (desc c f).width := ((desc_wf_iff _).1 (desc_wf c h f)).1

theorem desc_ne_serDr (c : Config) (h : configOk c = true) (f : Field) : (desc c f).reg ≠ .serDr :=
  ((desc_wf_iff _).1 (desc_wf c h f)).2.2

/-- No named field lies in an enable register: all its bits are clock gates (R34). -/
theorem desc_ne_gate (c : Config) (h : configOk c = true) (f : Field) :
    (desc c f).reg ≠ .rccAhb1enr ∧ (desc c f).reg ≠ .rccAhb2enr ∧ (desc c f).reg ≠ .rccAhb3enr ∧ (desc c f).reg ≠ .rccApb1enr ∧
    (desc c f).reg ≠ .rccApb2enr := by
  have := (desc_checked c h f).2.1
  generalize (desc c f).reg = r at this
  cases r <;> simp_all [mayHold]

/-- Every named field lies in its own engine's block (R71, R120). -/
theorem desc_block (c : Config) (h : configOk c = true) (f : Field) : regOfSer (desc c f).reg = regOfSer (fieldReg f) := by
  have := (desc_checked c h f).2.1
  generalize (desc c f).reg = r at this
  cases r <;> simp_all [mayHold, regOfSer]

/-- In an accepted machine two named fields of one register lie apart. -/
theorem desc_apart (c : Config) (h : configOk c = true) (f g : Field) (hne : f ≠ g) (hr : (desc c f).reg = (desc c g).reg) :
    (desc c f).offset + (desc c f).width ≤ (desc c g).offset ∨ (desc c g).offset + (desc c g).width ≤ (desc c f).offset := by
  simpa [Desc.apart, hr] using (desc_checked c h f).2.2 g hne

/-! The table that keeps the rules' registers and widths (R31 to R36). -/

theorem layoutOk_configOk (c : Config) (h : layoutOk c = true) : configOk c = true := by
  simp only [layoutOk, Bool.and_eq_true] at h
  exact h.1

theorem layoutOk_field (c : Config) (h : layoutOk c = true) (f : Field) :
    (desc c f).reg = fieldReg f ∧ fieldWidth f ≤ (desc c f).width ∧ (fieldWidth f = 1 → (desc c f).width = 1) := by
  simp only [layoutOk, Bool.and_eq_true, List.all_eq_true, beq_iff_eq, decide_eq_true_eq, Bool.or_eq_true, bne_iff_ne] at h
  have := h.2 f (mem_allFields f)
  exact ⟨this.1.1, this.1.2, fun hw => this.2.resolve_left (not_not_intro hw)⟩

theorem desc_reg (s : State) (h : layoutOk s.cfg = true) (f : Field) : (s.desc f).reg = fieldReg f := (layoutOk_field s.cfg h f).1

/-- A value that fits a field's legal values is stored whole. -/
theorem and_mask_desc (s : State) (h : layoutOk s.cfg = true) (f : Field) (v : Word) (hv : v.toNat < 2 ^ fieldWidth f) :
    v &&& mask (s.desc f).width = v :=
  and_mask_of_lt _ _ (Nat.lt_of_lt_of_le hv (Nat.pow_le_pow_right (by omega) (layoutOk_field s.cfg h f).2.1))

/-- A one-bit value is stored whole in every field. -/
theorem and_mask_bit (s : State) (h : configOk s.cfg = true) (f : Field) (v : Word) (hv : v.toNat < 2) :
    v &&& mask (s.desc f).width = v :=
  and_mask_of_lt _ _ (Nat.lt_of_lt_of_le hv (Nat.pow_le_pow_right (n := 2) (by omega) (desc_pos s.cfg h f)))

/-! Writes. -/

theorem wrf_of_ne (d : Desc) (v : Word) (s : State) (h : d.reg ≠ .serDr) :
    wrf d v s = regWrite d.reg (insertField d (s.word d.reg) v) s := by simp [wrf, regRead_of_ne _ _ h]

/-- A write outside `SER_DR`: the word, and `PLLRDY` with it where the write stops the PLL (R66, R68). -/
theorem regWrite_of_ne (r : Reg) (v : Word) (s : State) (h : r ≠ .serDr) :
    regWrite r v s =
      if (s.desc .pllon).reg = r ∧ extractField (s.desc .pllon) v = 0 then
        (s.setWord r (writtenWord s.cfg r (s.word r) v)).hwSet .pllrdy 0
      else s.setWord r (writtenWord s.cfg r (s.word r) v) := by
  cases r <;> first | rfl | exact absurd rfl h

/-- Storing a word in a block changes nothing but that block. -/
theorem setWord_eq_of_rcc (s : State) (r : Reg) (v : Word) (h : regOfSer r = false) :
    s.setWord r v = { s with rcc := (s.setWord r v).rcc } := by
  cases r <;> first | rfl | cases h

theorem setWord_eq_of_ser (s : State) (r : Reg) (v : Word) (h : regOfSer r = true) :
    s.setWord r v = { s with ser := (s.setWord r v).ser } := by
  cases r <;> first | rfl | cases h

/-- A hardware write is nothing but a change of one register word. -/
theorem hwSet_eq_of_rcc (f : Field) (v : Word) (s : State) (hc : configOk s.cfg = true) (h : regOfSer (fieldReg f) = false) :
    s.hwSet f v = { s with rcc := (s.hwSet f v).rcc } := setWord_eq_of_rcc _ _ _ ((desc_block s.cfg hc f).trans h)

theorem hwSet_eq_of_ser (f : Field) (v : Word) (s : State) (hc : configOk s.cfg = true) (h : regOfSer (fieldReg f) = true) :
    s.hwSet f v = { s with ser := (s.hwSet f v).ser } := setWord_eq_of_ser _ _ _ ((desc_block s.cfg hc f).trans h)

/-- A write into the clock block changes nothing but the clock block. -/
theorem regWrite_eq_of_rcc (r : Reg) (v : Word) (s : State) (hc : configOk s.cfg = true) (h : regOfSer r = false) :
    regWrite r v s = { s with rcc := (regWrite r v s).rcc } := by
  rw [regWrite_of_ne r v s (by rintro rfl; cases h)]
  split
  · rw [hwSet_eq_of_rcc .pllrdy 0 _ (by simpa using hc) rfl, setWord_eq_of_rcc _ _ _ h]
  · exact setWord_eq_of_rcc _ _ _ h

/-- A write into the serial block other than of the data register changes nothing but the serial block's words. -/
theorem regWrite_eq_of_ser (r : Reg) (v : Word) (s : State) (hc : configOk s.cfg = true) (h : regOfSer r = true) (hd : r ≠ .serDr) :
    regWrite r v s = { s with ser := (regWrite r v s).ser } := by
  rw [regWrite_of_ne r v s hd, if_neg]
  · exact setWord_eq_of_ser _ _ _ h
  · rintro ⟨rfl, -⟩
    exact Bool.noConfusion (h.symm.trans (desc_block s.cfg hc .pllon))

/-- A field write in the clock block changes nothing but the clock block. -/
theorem wrf_eq_of_rcc (d : Desc) (v : Word) (s : State) (hc : configOk s.cfg = true) (h : regOfSer d.reg = false) :
    wrf d v s = { s with rcc := (wrf d v s).rcc } := by
  rw [wrf_of_ne _ _ _ (by intro e; rw [e] at h; cases h)]
  exact regWrite_eq_of_rcc _ _ _ hc h

/-- A field write in the serial block changes nothing but the serial block's words. -/
theorem wrf_eq_of_ser (d : Desc) (v : Word) (s : State) (hc : configOk s.cfg = true) (h : regOfSer d.reg = true) (hd : d.reg ≠ .serDr) :
    wrf d v s = { s with ser := (wrf d v s).ser } := by
  rw [wrf_of_ne _ _ _ hd]
  exact regWrite_eq_of_ser _ _ _ hc h hd

theorem wrfF_eq_of_rcc (f : Field) (v : Word) (s : State) (hc : configOk s.cfg = true) (h : regOfSer (fieldReg f) = false) :
    wrfF f v s = { s with rcc := (wrfF f v s).rcc } := wrf_eq_of_rcc _ _ _ hc ((desc_block s.cfg hc f).trans h)

theorem wrfF_eq_of_ser (f : Field) (v : Word) (s : State) (hc : configOk s.cfg = true) (h : regOfSer (fieldReg f) = true) :
    wrfF f v s = { s with ser := (wrfF f v s).ser } :=
  wrf_eq_of_ser _ _ _ hc ((desc_block s.cfg hc f).trans h) (desc_ne_serDr s.cfg hc f)

/-- A serial field write or hardware step leaves the clock block, and the other way round. -/
theorem wrfF_rcc (f : Field) (v : Word) (s : State) (hc : configOk s.cfg = true) (h : regOfSer (fieldReg f) = true) :
    (wrfF f v s).rcc = s.rcc := by rw [wrfF_eq_of_ser f v s hc h]

theorem wrfF_ser (f : Field) (v : Word) (s : State) (hc : configOk s.cfg = true) (h : regOfSer (fieldReg f) = false) :
    (wrfF f v s).ser = s.ser := by rw [wrfF_eq_of_rcc f v s hc h]

theorem hwSet_rcc (f : Field) (v : Word) (s : State) (hc : configOk s.cfg = true) (h : regOfSer (fieldReg f) = true) :
    (s.hwSet f v).rcc = s.rcc := by rw [hwSet_eq_of_ser f v s hc h]

theorem hwSet_ser (f : Field) (v : Word) (s : State) (hc : configOk s.cfg = true) (h : regOfSer (fieldReg f) = false) :
    (s.hwSet f v).ser = s.ser := by rw [hwSet_eq_of_rcc f v s hc h]

/-- No field write reaches the wire log: the data register is never a field (R125). -/
theorem wrfF_txWire (f : Field) (v : Word) (s : State) (hc : configOk s.cfg = true) : (wrfF f v s).txWire = s.txWire := by
  cases h : regOfSer (fieldReg f)
  · rw [wrfF_eq_of_rcc f v s hc h]
  · rw [wrfF_eq_of_ser f v s hc h]

/-- No read reaches the clock block. -/
theorem regRead_rcc (r : Reg) (s : State) (hc : configOk s.cfg = true) : (regRead r s).2.rcc = s.rcc := by
  cases r <;> first | rfl | exact hwSet_rcc .rxne 0 s hc rfl

/-- A field depends only on the parameters and the two register blocks. -/
theorem field_congr (s t : State) (f : Field) (hc : t.cfg = s.cfg) (hr : t.rcc = s.rcc) (hs : t.ser = s.ser) : t.field f = s.field f := by
  have hw (r : Reg) : t.word r = s.word r := by cases r <;> simp [State.word, hr, hs]
  simp [State.field, State.desc, hc, hw]

/-! Named fields under a hardware write. -/

theorem field_hwSet_same (s : State) (h : configOk s.cfg = true) (f : Field) (v : Word) :
    (s.hwSet f v).field f = v &&& mask (s.desc f).width := by
  simp only [State.field, State.hwSet, word_setWord, State.desc, setWord_cfg]
  rw [if_pos ⟨trivial, desc_ne_serDr s.cfg h f⟩]
  exact extract_insert_same _ _ _ (desc_fits s.cfg h f)

theorem field_hwSet_other (s : State) (h : configOk s.cfg = true) (f g : Field) (v : Word) (hne : f ≠ g) :
    (s.hwSet f v).field g = s.field g := by
  simp only [State.field, State.hwSet, word_setWord, State.desc, setWord_cfg]
  split
  · rename_i hr
    rw [extract_insert_apart _ _ _ _ (desc_apart s.cfg h f g hne hr.1.symm), hr.1]
  · rfl

theorem flag_hwSet_other (s : State) (h : configOk s.cfg = true) (f g : Field) (v : Word) (hne : f ≠ g) :
    (s.hwSet f v).flag g = s.flag g := by simp [State.flag, field_hwSet_other s h f g v hne]

/-- A flag the hardware sets to a bit holds that bit, whatever the field's width. -/
theorem field_hwSet_bit (s : State) (h : configOk s.cfg = true) (f : Field) (v : Word) (hv : v.toNat < 2) : (s.hwSet f v).field f = v := by
  rw [field_hwSet_same s h, and_mask_bit s h f v hv]

/-! Who owns which bit (R66), in the rules' layout. -/

theorem clearOnlyBits_rules (c : Config) (h : layoutOk c = true) (r : Reg) :
    clearOnlyBits c r = if r = .serSr then fieldMask (desc c .crcerr) else 0 := by
  have hl f := (layoutOk_field c h f).1
  cases r <;> simp [clearOnlyBits, accessMask, allFields, fieldAccess, hl, fieldReg]

/-- The hardware owns `PLLRDY` in `RCC_CR`, `SWS` in `RCC_CFGR`, all of `SER_SR` but `CRCERR`, and nothing else. -/
theorem hardwareBits_rules (c : Config) (h : layoutOk c = true) (r : Reg) :
    hardwareBits c r = match r with
      | .rccCr => fieldMask (desc c .pllrdy)
      | .rccCfgr => fieldMask (desc c .sws)
      | .serSr => ~~~(fieldMask (desc c .crcerr))
      | .rccPllcfgr | .rccAhb1enr | .rccAhb2enr | .rccAhb3enr | .rccApb1enr | .rccApb2enr | .serCr1 | .serCr2 | .serDr => 0 := by
  have hl f := (layoutOk_field c h f).1
  cases r <;> simp [hardwareBits, accessMask, allFields, fieldAccess, hl, fieldReg]

/-- In an enable register software writes every bit, whatever the layout (R34). -/
theorem accessMask_gate (c : Config) (h : configOk c = true) (a : Access) (r : Reg)
    (hr : r = .rccAhb1enr ∨ r = .rccAhb2enr ∨ r = .rccAhb3enr ∨ r = .rccApb1enr ∨ r = .rccApb2enr) : accessMask c a r = 0 := by
  have hl f : (desc c f).reg ≠ r := by
    have := desc_ne_gate c h f
    rcases hr with rfl | rfl | rfl | rfl | rfl <;> simp_all
  simp [accessMask, allFields, hl]

end Sys2Proof.Machine
end

