-- ==== Sys2Proof/Laws/Fields.lean ====
section
/-! SUPPORT. Named fields under software writes, in a machine whose table keeps the rules' registers: what a field write sets, what it
leaves, and the side effects of R66 and R68. -/
namespace Sys2Proof.Machine

/-- The fields software owns and writes with no side effect of their own (R31 to R35): neither hardware-owned (R66), nor in `SER_SR`. -/
def plainField : Field → Bool
  | .pllrdy | .sws | .rxne | .txe | .crcerr | .modf | .ovr => false
  | .pllon | .pllm | .plln | .pllp | .pllsrc | .pllq | .sw | .hpre | .ppre1 | .ppre2 | .br | .spe | .errie | .rxneie | .txeie => true

/-- The side effect a field write can have on another field: `PLLRDY` follows a write of `PLLON` (R68 a). -/
def disturbs (f g : Field) : Bool := f == .pllon && g == .pllrdy

theorem field_setWord (s : State) (r : Reg) (v : Word) (g : Field) (hr : r ≠ .serDr) :
    (s.setWord r v).field g = if (s.desc g).reg = r then extractField (s.desc g) v else s.field g := by
  simp only [State.field, word_setWord, State.desc, setWord_cfg]
  by_cases h : (desc s.cfg g).reg = r <;> simp [h, hr]

/-! What a whole-word write stores (R66, R68), in the rules' layout. -/

/-- Bit by bit: the hardware's bits as before, a bit that can only be cleared anded, every other as written. -/
theorem getLsbD_writtenWord (c : Config) (r : Reg) (old v : Word) (i : Nat) :
    (writtenWord c r old v).getLsbD i =
      if (hardwareBits c r).getLsbD i then old.getLsbD i
      else v.getLsbD i && (old.getLsbD i || !(clearOnlyBits c r).getLsbD i) := by
  rw [writtenWord, getLsbD_keepBits, BitVec.getLsbD_and, BitVec.getLsbD_or, BitVec.getLsbD_not]
  by_cases hi : i < 32
  · simp only [hi, decide_true, Bool.true_and]
  · simp [BitVec.getLsbD_of_ge v i (by omega)]

/-- Where no bit can only be cleared, a write keeps the hardware's bits and stores the rest. -/
theorem writtenWord_keeps (c : Config) (r : Reg) (old v : Word) (h : clearOnlyBits c r = 0) :
    writtenWord c r old v = keepBits (hardwareBits c r) old v := by
  apply BitVec.eq_of_getLsbD_eq
  intro i _
  simp [getLsbD_writtenWord, getLsbD_keepBits, h]

theorem writtenWord_plain (c : Config) (r : Reg) (old v : Word) (h : hardwareBits c r = 0) (h' : clearOnlyBits c r = 0) :
    writtenWord c r old v = v := by
  apply BitVec.eq_of_getLsbD_eq
  intro i _
  simp [writtenWord_keeps _ _ _ _ h', getLsbD_keepBits, h]

/-- A write of a word to a register without side effects or hardware-owned bits is a store (R68 e). -/
theorem regWrite_plain (r : Reg) (v : Word) (s : State) (h : layoutOk s.cfg = true)
    (hr : r ≠ .rccCr ∧ r ≠ .rccCfgr ∧ r ≠ .serSr ∧ r ≠ .serDr) : regWrite r v s = s.setWord r v := by
  rw [regWrite_of_ne _ _ _ hr.2.2.2, if_neg, writtenWord_plain]
  · rw [hardwareBits_rules _ h]
    cases r <;> simp_all
  · rw [clearOnlyBits_rules _ h, if_neg hr.2.2.1]
  · rw [desc_reg s h]
    exact fun e => hr.1 e.1.symm

/-- A write to `RCC_CR` that leaves `PLLON` at 1 keeps `PLLRDY` and stores the rest; with `PLLON` at 0 it clears `PLLRDY` (R66, R68 a). -/
theorem regWrite_rccCr (v : Word) (s : State) (h : layoutOk s.cfg = true) :
    regWrite .rccCr v s =
      if extractField (s.desc .pllon) v = 0 then
        (s.setWord .rccCr (keepBits (fieldMask (s.desc .pllrdy)) s.rcc.cr v)).hwSet .pllrdy 0
      else s.setWord .rccCr (keepBits (fieldMask (s.desc .pllrdy)) s.rcc.cr v) := by
  rw [regWrite_of_ne _ _ _ (by decide), writtenWord_keeps _ _ _ _ ((clearOnlyBits_rules _ h _).trans (if_neg (by decide))),
    hardwareBits_rules _ h]
  simp only [desc_reg s h, fieldReg, true_and]
  rfl

/-- A write to `RCC_CFGR` keeps `SWS` and stores the rest (R68 d). -/
theorem regWrite_rccCfgr (v : Word) (s : State) (h : layoutOk s.cfg = true) :
    regWrite .rccCfgr v s = s.setWord .rccCfgr (keepBits (fieldMask (s.desc .sws)) s.rcc.cfgr v) := by
  rw [regWrite_of_ne _ _ _ (by decide), writtenWord_keeps _ _ _ _ ((clearOnlyBits_rules _ h _).trans (if_neg (by decide))),
    hardwareBits_rules _ h, if_neg (by rw [desc_reg s h]; exact fun e => Reg.noConfusion e.1)]
  rfl

/-- A write to `SER_SR` can clear `CRCERR` and changes no other bit (R68 c). -/
theorem regWrite_serSr (v : Word) (s : State) (h : layoutOk s.cfg = true) :
    regWrite .serSr v s = s.setWord .serSr (s.ser.sr &&& (v ||| ~~~(fieldMask (s.desc .crcerr)))) := by
  rw [regWrite_of_ne _ _ _ (by decide), if_neg (by rw [desc_reg s h]; exact fun e => Reg.noConfusion e.1)]
  congr 1
  apply BitVec.eq_of_getLsbD_eq
  intro i hi
  rw [getLsbD_writtenWord, hardwareBits_rules _ h, clearOnlyBits_rules _ h, if_pos rfl, BitVec.getLsbD_and, BitVec.getLsbD_or,
    BitVec.getLsbD_not, BitVec.getLsbD_not]
  simp only [State.desc, State.word, hi, decide_true, Bool.true_and]
  cases (fieldMask (desc s.cfg .crcerr)).getLsbD i <;> cases s.ser.sr.getLsbD i <;> cases v.getLsbD i <;> rfl

/-- A write to an enable register is a store in every accepted launch (R34, R68 e). -/
theorem regWrite_gate (r : Reg) (v : Word) (s : State) (h : configOk s.cfg = true)
    (hr : r = .rccAhb1enr ∨ r = .rccAhb2enr ∨ r = .rccAhb3enr ∨ r = .rccApb1enr ∨ r = .rccApb2enr) :
    regWrite r v s = s.setWord r v := by
  have hne : r ≠ .serDr ∧ r ≠ .serSr := by rcases hr with rfl | rfl | rfl | rfl | rfl <;> decide
  rw [regWrite_of_ne _ _ _ hne.1, if_neg, writtenWord_plain]
  · rw [hardwareBits, if_neg hne.2, accessMask_gate _ h _ r hr]
  · rw [clearOnlyBits, accessMask_gate _ h _ r hr]
  · have := desc_ne_gate s.cfg h .pllon
    rintro ⟨e, -⟩
    rcases hr with rfl | rfl | rfl | rfl | rfl <;> simp_all [State.desc]

/-! Field writes. -/

/-- Of a field that software owns no bit is the hardware's or clear-only (R66, R68 c). -/
theorem softwareField_bit (c : Config) (d : Desc) (h : fieldMask d &&& (hardwareBits c d.reg ||| clearOnlyBits c d.reg) = 0) (i : Nat)
    (h1 : d.offset ≤ i) (h2 : i < d.offset + d.width) (h3 : i < 32) :
    (hardwareBits c d.reg).getLsbD i = false ∧ (clearOnlyBits c d.reg).getLsbD i = false := by
  have := congrArg (fun w : Word => w.getLsbD i) h
  simpa [getLsbD_fieldMask, h1, h2, h3] using this

/-- A write of a plain field but `PLLON` is a hardware-like store: exactly the field's bits (R121, R66). -/
theorem wrfF_store (s : State) (h : layoutOk s.cfg = true) (f : Field) (v : Word) (hp : plainField f = true) (hf : f ≠ .pllon) :
    wrfF f v s = s.hwSet f v := by
  have hc := layoutOk_configOk _ h
  rw [wrfF, wrf_of_ne (s.desc f) _ _ (desc_ne_serDr s.cfg hc f), State.hwSet]
  generalize hr : (s.desc f).reg = r
  have hr' : fieldReg f = r := (desc_reg s h f).symm.trans hr
  by_cases h1 : r = .rccCfgr
  · subst h1
    have hs : f ≠ .sws := by rintro rfl; cases hp
    rw [regWrite_rccCfgr _ _ h]
    congr 1
    exact keep_insert_apart _ _ _ _ (desc_apart s.cfg hc f .sws hs (hr.trans (layoutOk_field s.cfg h .sws).1.symm))
  · refine regWrite_plain _ _ _ h ?_
    subst hr'
    cases f <;> simp_all [plainField, fieldReg]

/-- What a write of `PLLON` gives: the bit, `PLLRDY` cleared with it or kept, nothing else (R68 a). -/
theorem wrfF_pllon (s : State) (h : layoutOk s.cfg = true) (v : Word) :
    wrfF .pllon v s = if v &&& mask 1 = 0 then (s.hwSet .pllon v).hwSet .pllrdy 0 else s.hwSet .pllon v := by
  have hc := layoutOk_configOk _ h
  have hr f := desc_reg s h f
  rw [wrfF, wrf_of_ne (s.desc .pllon) _ _ (desc_ne_serDr s.cfg hc .pllon), hr .pllon]
  have hk := keep_insert_apart (s.desc .pllon) (s.desc .pllrdy) s.rcc.cr v
    (desc_apart s.cfg hc .pllon .pllrdy (by decide) ((hr .pllon).trans (hr .pllrdy).symm))
  have he : extractField (s.desc .pllon) (insertField (s.desc .pllon) s.rcc.cr v) = v &&& mask 1 :=
    (extract_insert_same _ _ _ (desc_fits s.cfg hc .pllon)).trans
      (congrArg (fun w => v &&& mask w) ((layoutOk_field s.cfg h .pllon).2.2 rfl))
  simp only [fieldReg]
  rw [regWrite_rccCr _ _ h, show s.word .rccCr = s.rcc.cr from rfl, he, hk,
    show s.hwSet .pllon v = s.setWord .rccCr (insertField (s.desc .pllon) s.rcc.cr v) by simp only [State.hwSet, hr .pllon]; rfl]

/-- A plain field reads back what was written, masked to its width (R121, R123 a). -/
theorem field_wrfF_same (s : State) (h : layoutOk s.cfg = true) (f : Field) (v : Word) (hp : plainField f = true) :
    (wrfF f v s).field f = v &&& mask (s.desc f).width := by
  have hc := layoutOk_configOk _ h
  by_cases hf : f = .pllon
  · subst hf
    rw [wrfF_pllon s h]
    split
    · rw [field_hwSet_other _ (by simpa using hc) .pllrdy .pllon _ (by decide), field_hwSet_same s hc]
    · rw [field_hwSet_same s hc]
  · rw [wrfF_store s h f v hp hf, field_hwSet_same s hc]

/-- A value that fits the field's legal values reads back as written. -/
theorem field_wrfF_value (s : State) (h : layoutOk s.cfg = true) (f : Field) (v : Word) (hp : plainField f = true)
    (hv : v.toNat < 2 ^ fieldWidth f) : (wrfF f v s).field f = v := by rw [field_wrfF_same s h f v hp, and_mask_desc s h f v hv]

/-- A write of a plain field leaves every other named field, but for the one side effect of R68 (R123 b). -/
theorem field_wrfF_other (s : State) (h : layoutOk s.cfg = true) (f g : Field) (v : Word) (hp : plainField f = true)
    (hne : f ≠ g) (hd : disturbs f g = false) : (wrfF f v s).field g = s.field g := by
  have hc := layoutOk_configOk _ h
  by_cases hf : f = .pllon
  · subst hf
    have hg : Field.pllrdy ≠ g := by rintro rfl; cases hd
    rw [wrfF_pllon s h]
    split
    · rw [field_hwSet_other _ (by simpa using hc) _ _ _ hg, field_hwSet_other s hc _ _ _ hne]
    · rw [field_hwSet_other s hc _ _ _ hne]
  · rw [wrfF_store s h f v hp hf, field_hwSet_other s hc f g v hne]

/-- Stopping the PLL clears `PLLRDY` in the same step (R68 a). -/
theorem pllrdy_stop (s : State) (h : layoutOk s.cfg = true) : (wrfF .pllon 0 s).field .pllrdy = 0 := by
  rw [wrfF_pllon s h, if_pos (by simp), field_hwSet_bit _ (by simpa using layoutOk_configOk _ h) _ _ (by decide)]

/-- Starting the PLL leaves `PLLRDY` as it is (R68 a). -/
theorem pllrdy_start (s : State) (h : layoutOk s.cfg = true) : (wrfF .pllon 1 s).field .pllrdy = s.field .pllrdy := by
  rw [wrfF_pllon s h, if_neg (by simp [mask]), field_hwSet_other s (layoutOk_configOk _ h) _ _ _ (by decide)]

/-- Clearing `CRCERR` (R68 c, R195). -/
theorem wrfF_crcerr_clear (s : State) (h : layoutOk s.cfg = true) : wrfF .crcerr 0 s = s.hwSet .crcerr 0 := by
  rw [wrfF, wrf_of_ne (s.desc .crcerr) _ _ (desc_ne_serDr s.cfg (layoutOk_configOk _ h) .crcerr), State.hwSet, desc_reg s h]
  simp only [fieldReg]
  rw [regWrite_serSr _ _ h, show s.word .serSr = s.ser.sr from rfl]
  congr 1
  apply BitVec.eq_of_getLsbD_eq
  intro i hi
  rw [BitVec.getLsbD_and, BitVec.getLsbD_or, BitVec.getLsbD_not, getLsbD_fieldMask, getLsbD_insertField]
  split
  · rename_i hx
    simp [hi, hx.1, hx.2]
  · rename_i hx
    by_cases h1 : (s.desc .crcerr).offset ≤ i
    · simp [show ¬ i < (s.desc .crcerr).offset + (s.desc .crcerr).width from fun h3 => hx ⟨h1, h3⟩, hi]
    · simp [h1, hi]

/-- A clock gate is no named field: writing one changes none (R34, R157, R158). -/
theorem field_wrf_gate (s : State) (h : configOk s.cfg = true) (r : Reg) (bit : BitVec 5) (v : Word) (g : Field)
    (hr : r = .rccAhb1enr ∨ r = .rccAhb2enr ∨ r = .rccAhb3enr ∨ r = .rccApb1enr ∨ r = .rccApb2enr) :
    (wrf (gateDesc r bit) v s).field g = s.field g := by
  have hne : r ≠ .serDr := by rcases hr with rfl | rfl | rfl | rfl | rfl <;> decide
  rw [wrf_of_ne _ _ _ hne, show (gateDesc r bit).reg = r from rfl, regWrite_gate _ _ _ h hr, field_setWord _ _ _ _ hne, if_neg]
  have := desc_ne_gate s.cfg h g
  rcases hr with rfl | rfl | rfl | rfl | rfl <;> simp_all [State.desc]

/-- A one-bit field is 0 or 1. -/
theorem flag_false_iff (s : State) (h : layoutOk s.cfg = true) (f : Field) (hf : fieldWidth f = 1) : s.flag f = false ↔ s.field f = 0 := by
  have hw : (s.desc f).width = 1 := (layoutOk_field s.cfg h f).2.2 hf
  have hlt := extractField_lt (s.desc f) (s.word (s.desc f).reg) (by omega)
  rw [hw] at hlt
  have h2 : (s.field f).toNat = 0 ∨ (s.field f).toNat = 1 := by
    have : (s.field f).toNat < 2 := hlt
    omega
  rcases h2 with h2 | h2
  · have : s.field f = 0 := BitVec.eq_of_toNat_eq h2
    simp [State.flag, this]
  · have : s.field f = 1 := BitVec.eq_of_toNat_eq h2
    simp [State.flag, this]

theorem flag_true_iff (s : State) (f : Field) : s.flag f = true ↔ s.field f = 1 := by simp [State.flag]

end Sys2Proof.Machine
end

