-- ==== Sys2Proof/Laws/Ops.lean ====
section
/-! SUPPORT. One lemma per shared operation that says everything it can do: sequencing, `zext_32`, `SAVE_CLK`, buffers,
taking an interrupt, the agents' turns and the step. -/
namespace Sys2Proof.Machine

open Sys2Proof.Safety

/-! Sequencing. -/

theorem andThen_next_iff (r : Result) (k : State → Result) (t : State) :
    andThen r k = .next t ↔ ∃ s, r = .next s ∧ k s = .next t := by
  cases r <;> simp [andThen]

/-! `zext_32`. -/

theorem zext32_of_lt (v : Nat) (s : State) (h : v < 2 ^ 32) : zext32 v s = (BitVec.ofNat 32 v, s) := if_pos h

/-- Whatever the number, only the draw counter can change. -/
theorem zext32_snd (v : Nat) (s : State) : (zext32 v s).2 = { s with draws := (zext32 v s).2.draws } := by
  unfold zext32
  split <;> rfl

/-! `SAVE_CLK` (R141). -/

theorem writeSnapshot_of_lt (sys sa s1 s2 : Nat) (s : State) (h : sys < 2 ^ 32) :
    writeSnapshot sys sa s1 s2 s = { s with snap := snapshotOf sys sa s1 s2 } := by
  have le (a b : Nat) : a >>> b ≤ a := Nat.shiftRight_le a b
  have h1 := le sys sa
  have h2 := le (sys >>> sa) s1
  have h3 := le (sys >>> sa) s2
  simp only [writeSnapshot, zext32_of_lt _ _ h, zext32_of_lt _ _ (Nat.lt_of_le_of_lt h1 h),
    zext32_of_lt _ _ (Nat.lt_of_le_of_lt (Nat.le_trans h2 h1) h), zext32_of_lt _ _ (Nat.lt_of_le_of_lt (Nat.le_trans h3 h1) h)]
  rfl

/-- Whatever the frequency, only the snapshot and the draw counter can change. -/
theorem writeSnapshot_frame (sys sa s1 s2 : Nat) (s : State) :
    writeSnapshot sys sa s1 s2 s =
      { s with snap := (writeSnapshot sys sa s1 s2 s).snap, draws := (writeSnapshot sys sa s1 s2 s).draws } := by
  simp only [writeSnapshot]
  rw [zext32_snd _ (zext32 _ (zext32 _ (zext32 _ s).2).2).2, zext32_snd _ (zext32 _ (zext32 _ s).2).2, zext32_snd _ (zext32 _ s).2,
    zext32_snd _ s]

/-- Frequencies and shifts depend only on the parameters, `x[7]` and the two register blocks. -/
theorem sourceHz_congr (s t : State) (src : ClkSrc) (hc : t.cfg = s.cfg) (hp : t.pllOscHz = s.pllOscHz) (hr : t.rcc = s.rcc)
    (hs : t.ser = s.ser) : sourceHz src t = sourceHz src s := by
  cases src <;> simp [sourceHz, hc, hp, fun f => field_congr s t f hc hr hs]

theorem activeSource_congr (s t : State) (src : ClkSrc) (hc : t.cfg = s.cfg) (hr : t.rcc = s.rcc) (hs : t.ser = s.ser) :
    ActiveSource src t ↔ ActiveSource src s := by
  simp [ActiveSource, fun f => field_congr s t f hc hr hs]

theorem liveSnapshot_congr (s t : State) (sys : Nat) (hc : t.cfg = s.cfg) (hr : t.rcc = s.rcc) (hs : t.ser = s.ser) :
    liveSnapshot sys t = liveSnapshot sys s := by
  simp [liveSnapshot, liveShifts, rdfF_eq_field, hc, fun f => field_congr s t f hc hr hs]

/-- Only one source is active. -/
theorem activeSource_unique (s : State) (src src' : ClkSrc) (h : ActiveSource src s) (h' : ActiveSource src' s) : src = src' := by
  have := h.1.symm.trans h'.1
  cases src <;> cases src' <;> first | rfl | exact absurd this (by decide)

/-- `sys` of R141 is the frequency of the active source, and there is one exactly where that source has a frequency. -/
theorem systemHz_ok_iff (s : State) (sys : Nat) : systemHz s = .ok sys ↔ ∃ src, ActiveSource src s ∧ sys = sourceHz src s := by
  have code (n : Nat) (hn : n < 2 ^ 32) (h : (rdfF .sws s).toNat = n) : s.field .sws = BitVec.ofNat 32 n := by
    rw [← rdfF_eq_field]
    exact BitVec.eq_of_toNat_eq (by rw [h, BitVec.toNat_ofNat, Nat.mod_eq_of_lt hn])
  constructor
  · intro h
    unfold systemHz at h
    split at h
    · rename_i hs
      cases h
      exact ⟨.hsi, ⟨code 0 (by decide) hs, nofun⟩, rfl⟩
    · rename_i hs
      cases h
      exact ⟨.hse, ⟨code 1 (by decide) hs, nofun⟩, rfl⟩
    · rename_i hs
      simp only [rdfF_eq_field] at h
      split at h
      · cases h
      · rename_i hm
        cases h
        exact ⟨.pll, ⟨code 2 (by decide) hs, fun _ e => hm (by simp [e])⟩, rfl⟩
    · cases h
  · rintro ⟨src, ⟨hs, hm⟩, rfl⟩
    cases src with
    | hsi => simp [systemHz, rdfF_eq_field, hs, ClkSrc.code, sourceHz]
    | hse => simp [systemHz, rdfF_eq_field, hs, ClkSrc.code, sourceHz]
    | pll =>
      have hm' : ¬ (s.field .pllm).toNat = 0 := fun e => hm rfl (BitVec.eq_of_toNat_eq e)
      simp [systemHz, rdfF_eq_field, hs, ClkSrc.code, sourceHz, hm', pllFreq, pDiv]

/-- `SAVE_CLK` where the active source has a frequency that fits: exactly the snapshot changes. -/
theorem saveClk_of_hz (s : State) (sys : Nat) (h : HasSystemHz s sys) : saveClk s = .next { s with snap := liveSnapshot sys s } := by
  simp only [saveClk, (systemHz_ok_iff s sys).2 h.1, writeSnapshot_of_lt _ _ _ _ _ h.2]
  rfl

/-- `SAVE_CLK; respond(OK, 0)`, likewise. -/
theorem saveAndRespond_of_hz (s : State) (sys : Nat) (h : HasSystemHz s sys) :
    saveAndRespond s = .next (respond .ok 0 { s with snap := liveSnapshot sys s }) := by
  simp [saveAndRespond, saveClk_of_hz s sys h, andThen]

/-- If `SAVE_CLK; respond(OK, 0)` completes, the active source had a frequency and only the snapshot, the draw counter and the
command's own completion changed. -/
theorem saveAndRespond_next (s t : State) (h : saveAndRespond s = .next t) :
    ∃ src snap draws, ActiveSource src s ∧ t = respond .ok 0 { s with snap := snap, draws := draws } ∧
      (sourceHz src s < 2 ^ 32 → snap = liveSnapshot (sourceHz src s) s ∧ draws = s.draws) := by
  rw [saveAndRespond, andThen_next_iff] at h
  obtain ⟨u, hu, ht⟩ := h
  unfold saveClk at hu
  split at hu
  · cases hu
  · rename_i sys hsys
    cases hu
    cases ht
    obtain ⟨src, hsrc, rfl⟩ := (systemHz_ok_iff s sys).1 hsys
    refine ⟨src, (writeSnapshot _ _ _ _ s).snap, (writeSnapshot _ _ _ _ s).draws, hsrc,
      congrArg (respond .ok 0) (writeSnapshot_frame _ _ _ _ s), fun hlt => ?_⟩
    rw [writeSnapshot_of_lt _ _ _ _ _ hlt]
    exact ⟨rfl, rfl⟩

/-- A clock status above 2 has no meaning (R141, 93 U5). -/
theorem systemHz_reserved (s : State) (h : 2 < (s.field .sws).toNat) : systemHz s = .error .reservedClockStatus := by
  rw [← rdfF_eq_field] at h
  unfold systemHz
  split
  · omega
  · omega
  · omega
  · rfl

/-- A live PLL whose divisor reads 0 has no frequency (R141, 93 U6). -/
theorem systemHz_mZero (s : State) (h : s.field .sws = 2) (hm : s.field .pllm = 0) : systemHz s = .error .livePllMZero := by
  rw [← rdfF_eq_field] at h hm
  simp [systemHz, h, hm]

/-- Where the active source has no frequency `SAVE_CLK` faults with the reason (R141). -/
theorem saveAndRespond_error (s : State) (f : Fault) (h : systemHz s = .error f) : saveAndRespond s = .fault f := by
  simp [saveAndRespond, saveClk, h, andThen]

/-- Where it has one, `SAVE_CLK; respond(OK, 0)` completes; only the snapshot, the draw counter and the command's completion change, and
with a frequency that fits 32 bits the snapshot is the live one and nothing is drawn. -/
theorem saveAndRespond_ok (s : State) (src : ClkSrc) (h : ActiveSource src s) :
    ∃ snap draws, saveAndRespond s = .next (respond .ok 0 { s with snap := snap, draws := draws }) ∧
      (sourceHz src s < 2 ^ 32 → snap = liveSnapshot (sourceHz src s) s ∧ draws = s.draws) := by
  have hs := (systemHz_ok_iff s _).2 ⟨src, h, rfl⟩
  obtain ⟨t, ht⟩ : ∃ t, saveAndRespond s = .next t := ⟨_, by simp only [saveAndRespond, saveClk, hs, andThen]; rfl⟩
  obtain ⟨src', snap, draws, h', rfl, hx⟩ := saveAndRespond_next s t ht
  cases activeSource_unique s src src' h h'
  exact ⟨snap, draws, ht, hx⟩

/-! Runs (R233). -/

@[simp] theorem isFiniteRun_single (s : State) : IsFiniteRun [s] := trivial

theorem isFiniteRun_cons (s t : State) (rest : List State) :
    IsFiniteRun (s :: t :: rest) ↔ step s = .next t ∧ IsFiniteRun (t :: rest) := Iff.rfl

@[simp] theorem responses_single (s : State) : responses [s] = [] := rfl

theorem responses_cons (s t : State) (rest : List State) :
    responses (s :: t :: rest) = (responded s t).toList ++ responses (t :: rest) := rfl

/-! Bounded buffers (R40 to R42). -/

/-- A push that fits appends; one that does not returns `full`. -/
theorem push_eq_some (b : Fifo) (v : Byte) (h : b.size < b.cap) : b.push v = some { b with q := b.q ++ [v] } := by simp [Fifo.push, h]

theorem push_eq_none (b : Fifo) (v : Byte) (h : ¬ b.size < b.cap) : b.push v = none := by simp [Fifo.push, h]

/-- All bytes are enqueued, in order, where they fit. -/
theorem pushAll_of_fits (vs : List Byte) (b : Fifo) (h : b.size + vs.length ≤ b.cap) : b.pushAll vs = { b with q := b.q ++ vs } := by
  induction vs generalizing b with
  | nil => simp [Fifo.pushAll]
  | cons v vs ih =>
    simp only [List.length_cons] at h
    have hp := push_eq_some b v (by omega)
    rw [Fifo.pushAll, List.foldl_cons, hp, Option.getD_some, ← Fifo.pushAll, ih]
    · simp
    · simp [Fifo.size] at h ⊢
      omega

/-- Pushing never changes the capacity and never passes it. -/
theorem pushAll_bounded (vs : List Byte) (b : Fifo) (h : b.size ≤ b.cap) :
    (b.pushAll vs).cap = b.cap ∧ (b.pushAll vs).size ≤ b.cap := by
  induction vs generalizing b with
  | nil => exact ⟨rfl, h⟩
  | cons v vs ih =>
    rw [Fifo.pushAll, List.foldl_cons, ← Fifo.pushAll]
    by_cases hp : b.size < b.cap
    · rw [push_eq_some b v hp, Option.getD_some]
      exact ih { b with q := b.q ++ [v] } (by simpa [Fifo.size] using hp)
    · rw [push_eq_none b v hp, Option.getD_none]
      exact ih b h

/-! Interrupts (R250 to R257). -/

/-- Taking an interrupt either makes no move, or runs the handler rule between entry and return. -/
theorem takeInterrupt_next (c : Cause) (handler : State → State) (s t : State) (h : takeInterrupt c handler s = .next t) :
    t = s ∨ (s.inHandler = false ∧ pending c s = true ∧ s.serInited = true ∧ serGateOn s = true ∧
      t = leaveHandler (handler (enterHandler s))) := by
  unfold takeInterrupt at h
  split at h
  · cases h
    exact .inl rfl
  · split at h
    · cases h
    · split at h
      · cases h
      · cases h
        simp_all

/-- A deliverable cause of an initialised, clocked serial engine is serviced. -/
theorem takeInterrupt_runs (c : Cause) (handler : State → State) (s : State) (h1 : s.inHandler = false) (h2 : pending c s = true)
    (h3 : s.serInited = true) (h4 : serGateOn s = true) :
    takeInterrupt c handler s = .next (leaveHandler (handler (enterHandler s))) := by
  simp [takeInterrupt, h1, h2, h3, h4]

/-! Turns and steps (R3, R6, R14). -/

/-- A next step was taken by an accepted machine, whose turn changed only the placed turns or the draw counter before it acted. -/
theorem step_next (s t : State) (h : step s = .next t) :
    configOk s.cfg = true ∧ ∃ turns draws, takeTurn (turnAt s) { s with turns := turns, draws := draws } = .next t := by
  simp only [step, runTurn, checkedTurn] at h
  unfold turnAt
  split at h <;> split at h
  · exact ⟨‹_›, _, _, h⟩
  · cases h
  · exact ⟨‹_›, _, _, h⟩
  · cases h

/-- With a turn placed, a step of a machine with legal parameters takes it. -/
theorem step_placed (s : State) (u : Turn) (rest : List Turn) (hc : configOk s.cfg = true) (h : s.turns = u :: rest) :
    step s = takeTurn u { s with turns := rest } := by
  simp [step, runTurn, checkedTurn, h, hc]

/-- A placed turn is the next one. -/
theorem turnAt_placed (s : State) (u : Turn) (rest : List Turn) (h : s.turns = u :: rest) : turnAt s = u := by
  simp [turnAt, h]

end Sys2Proof.Machine
end

