-- ==== Sys2Proof/Laws/PerInstr.lean ====
section
/-! SUPPORT. One statement about every instruction as syntax: a command is as many words as its first word announces (30_encoding
R92, R95), and an event's code is one of the five (R99). -/
namespace Sys2Proof.Laws.Encoding

/-- The first word of a command's encoding announces its length; an event's code is not reserved. -/
def Statement (i : Instr) : Prop :=
  match encode i with
  | .command words => ∃ first later, words = first :: later ∧ words.length = commandLength first
  | .event code => code.toNat < 5

/-- A first word whose opcode is not that of `SER_SEND` announces one word. -/
theorem one_word {first : CmdWord} (h : opcode first ≠ 0x11#8) :
    ∃ head later, [first] = head :: later ∧ [first].length = commandLength head :=
  ⟨first, [], rfl, by simp [commandLength, h]⟩

theorem payloadWords_length (k : Nat) (bytes : List Byte) : (payloadWords k bytes).length = k := by
  induction k generalizing bytes with
  | zero => rfl
  | succ k ih => simp [payloadWords, ih]

theorem cfgPll (src : PllSrc) (osc : Word) (m : BitVec 6) (n : BitVec 9) (p : PllP) (q : BitVec 4) :
    Statement (.cfgPll src osc m n p q) := by
  refine one_word fun h => ?_
  have := congrArg (fun w => w.getLsbD 4) h
  simp only [opcode, BitVec.getLsbD_extractLsb', BitVec.getLsbD_append] at this
  simp at this

theorem setSysclk (src : ClkSrc) : Statement (.setSysclk src) := by
  cases src <;> exact one_word (by decide)

theorem cfgAhb (pre : AhbPre) : Statement (.cfgAhb pre) := by
  cases pre <;> exact one_word (by decide)

theorem cfgApb1 (pre : ApbPre) : Statement (.cfgApb1 pre) := by
  cases pre <;> exact one_word (by decide)

theorem cfgApb2 (pre : ApbPre) : Statement (.cfgApb2 pre) := by
  cases pre <;> exact one_word (by decide)

theorem setAhbClk (bank : AhbBank) (bit : BitVec 5) (en : Bool) : Statement (.setAhbClk bank bit en) := by
  refine one_word fun h => ?_
  have := congrArg (fun w => w.getLsbD 4) h
  simp only [opcode, BitVec.getLsbD_extractLsb', BitVec.getLsbD_append] at this
  simp at this

theorem setApbClk (bank : ApbBank) (bit : BitVec 5) (en : Bool) : Statement (.setApbClk bank bit en) := by
  refine one_word fun h => ?_
  have := congrArg (fun w => w.getLsbD 4) h
  simp only [opcode, BitVec.getLsbD_extractLsb', BitVec.getLsbD_append] at this
  simp at this

theorem getClk (which : ClkSel) : Statement (.getClk which) := by
  cases which <;> exact one_word (by decide)

theorem serInit (target : Word) : Statement (.serInit target) := by
  refine one_word fun h => ?_
  have := congrArg (fun w => w.getLsbD 0) h
  simp only [opcode, BitVec.getLsbD_extractLsb', BitVec.getLsbD_append] at this
  simp at this

theorem serSend (size : BitVec 16) (data : List Byte) : Statement (.serSend size data) := by
  refine ⟨_, _, rfl, ?_⟩
  have hop : opcode (0x11#8 ++ 0#40 ++ size) = 0x11#8 := by
    apply BitVec.eq_of_getLsbD_eq
    intro i hi
    simp only [opcode, BitVec.getLsbD_extractLsb', BitVec.getLsbD_append]
    have h1 : ¬ 56 + i < 16 := by omega
    have h2 : ¬ 56 + i - 16 < 40 := by omega
    have h3 : 56 + i - 16 - 40 = i := by omega
    simp [h1, h2, h3, hi]
  have hsize : (0x11#8 ++ 0#40 ++ size).extractLsb' 0 16 = size := by
    apply BitVec.eq_of_getLsbD_eq
    intro i hi
    simp only [BitVec.getLsbD_extractLsb', BitVec.getLsbD_append]
    simp [hi]
  simp only [List.length_cons, payloadWords_length, commandLength]
  rw [if_pos hop]
  simp only [hsize]
  omega

theorem serRecv : Statement .serRecv := one_word (by decide)

theorem serStat (sel : StatSel) : Statement (.serStat sel) := by
  cases sel <;> exact one_word (by decide)

theorem irqTxEmpty : Statement .irqTxEmpty := by show _ < _; decide

theorem irqRxAvailable : Statement .irqRxAvailable := by show _ < _; decide

theorem irqOverrun : Statement .irqOverrun := by show _ < _; decide

theorem irqModeFault : Statement .irqModeFault := by show _ < _; decide

theorem irqCrcError : Statement .irqCrcError := by show _ < _; decide

end Sys2Proof.Laws.Encoding
end

