-- ==== Sys2Proof/Machine/Asm.lean ====
section
/-! DEFINITION. The textual form of commands, events and hardware steps (30_encoding R100). One line holds one command; there are
no pseudo-instructions (R101). -/
namespace Sys2Proof.Machine

/-- What one line of text stands for (R100). -/
inductive Line where
  | command (i : Instr)
  | irq (c : Cause)
  | env (e : EnvStep)
deriving DecidableEq, Repr, Inhabited

/-! Spelled operands (R100). Each table is read in both directions. -/

def pllSrcNames : List (String × PllSrc) := [("HSI", .hsi), ("HSE", .hse)]

def clkSrcNames : List (String × ClkSrc) := [("HSI", .hsi), ("HSE", .hse), ("PLL", .pll)]

def pllPNames : List (String × PllP) := [("2", .div2), ("4", .div4), ("6", .div6), ("8", .div8)]

def ahbPreNames : List (String × AhbPre) :=
  [("DIV1", .div1), ("DIV2", .div2), ("DIV4", .div4), ("DIV8", .div8), ("DIV16", .div16), ("DIV64", .div64),
   ("DIV128", .div128), ("DIV256", .div256), ("DIV512", .div512)]

def apbPreNames : List (String × ApbPre) :=
  [("DIV1", .div1), ("DIV2", .div2), ("DIV4", .div4), ("DIV8", .div8), ("DIV16", .div16)]

def enNames : List (String × Bool) := [("ON", true), ("OFF", false)]

def clkSelNames : List (String × ClkSel) := [("SYSTEM", .system), ("AHB", .ahb), ("APB1", .apb1), ("APB2", .apb2)]

def statSelNames : List (String × StatSel) :=
  [("FAULTS", .faults), ("OVERRUNS", .overruns), ("TXSIZE", .txSize), ("RXSIZE", .rxSize), ("STATE", .state)]

def causeNames : List (String × Cause) :=
  [("TX_EMPTY", .txEmpty), ("RX_AVAILABLE", .rxAvailable), ("OVERRUN", .overrun), ("MODE_FAULT", .modeFault), ("CRC_ERROR", .crcError)]

def lineFaultNames : List (String × LineFault) := [("MODF", .modf), ("CRCERR", .crcerr)]

/-- The value a name stands for. -/
def valueOf {α : Type} (table : List (String × α)) (name : String) : Option α := (table.find? fun p => p.1 == name).map Prod.snd

/-- The name of a value. -/
def nameOf {α : Type} [DecidableEq α] (table : List (String × α)) (v : α) : String :=
  ((table.find? fun p => p.2 == v).map Prod.fst).getD ""

/-! Writing. -/

/-- Decimal digits, at most as many as the fuel; a size, a byte or a 32-bit word has at most ten. -/
def digits : Nat → Nat → List Char → List Char
  | 0, _, acc => acc
  | fuel + 1, n, acc =>
    let acc := Char.ofNat (48 + n % 10) :: acc
    if n < 10 then acc else digits fuel (n / 10) acc

def decimal (n : Nat) : String := String.ofList (digits 20 n [])

/-- Operands separated by commas. -/
def commas : List String → String
  | [] => ""
  | [a] => a
  | a :: rest => a ++ ", " ++ commas rest

/-- One line of text, operands in R100's order, numbers decimal. -/
def Line.text : Line → String
  | .command (.cfgPll src osc m n p q) =>
    "CFG_PLL " ++ commas [nameOf pllSrcNames src, decimal osc.toNat, decimal m.toNat, decimal n.toNat, nameOf pllPNames p, decimal q.toNat]
  | .command (.setSysclk src) => "SET_SYSCLK " ++ nameOf clkSrcNames src
  | .command (.cfgAhb pre) => "CFG_AHB " ++ nameOf ahbPreNames pre
  | .command (.cfgApb1 pre) => "CFG_APB1 " ++ nameOf apbPreNames pre
  | .command (.cfgApb2 pre) => "CFG_APB2 " ++ nameOf apbPreNames pre
  | .command (.setAhbClk bank bit en) =>
    "SET_AHB_CLK " ++ commas [decimal bank.code.toNat, decimal bit.toNat, nameOf enNames en]
  | .command (.setApbClk bank bit en) =>
    "SET_APB_CLK " ++ commas [decimal bank.code.toNat, decimal bit.toNat, nameOf enNames en]
  | .command (.getClk which) => "GET_CLK " ++ nameOf clkSelNames which
  | .command (.serInit target) => "SER_INIT " ++ decimal target.toNat
  | .command (.serSend size data) =>
    "SER_SEND " ++ decimal size.toNat ++ ", [" ++ commas (data.map fun b => decimal b.toNat) ++ "]"
  | .command .serRecv => "SER_RECV"
  | .command (.serStat sel) => "SER_STAT " ++ nameOf statSelNames sel
  | .command .irqTxEmpty | .irq .txEmpty => "IRQ TX_EMPTY"
  | .command .irqRxAvailable | .irq .rxAvailable => "IRQ RX_AVAILABLE"
  | .command .irqOverrun | .irq .overrun => "IRQ OVERRUN"
  | .command .irqModeFault | .irq .modeFault => "IRQ MODE_FAULT"
  | .command .irqCrcError | .irq .crcError => "IRQ CRC_ERROR"
  | .env .lock => "ENV E_LOCK"
  | .env .switch => "ENV E_SWITCH"
  | .env .txDone => "ENV E_TXDONE"
  | .env (.rxByte b) => "ENV E_RXBYTE " ++ decimal b.toNat
  | .env (.fault f) => "ENV E_FAULT " ++ nameOf lineFaultNames f

/-! Reading. -/

/-- The pieces of a line. -/
inductive Token where
  | word (w : String)
  | comma
  | lbracket
  | rbracket
deriving DecidableEq, Repr, Inhabited

/-- Closes the word read so far, whose characters come last first. -/
def flushWord (acc : List Char) (rest : List Token) : List Token :=
  if acc.isEmpty then rest else .word (String.ofList acc.reverse) :: rest

/-- Splits a line at blanks, commas and brackets. -/
def tokens : List Char → List Char → List Token
  | acc, [] => flushWord acc []
  | acc, ' ' :: cs => flushWord acc (tokens [] cs)
  | acc, ',' :: cs => flushWord acc (.comma :: tokens [] cs)
  | acc, '[' :: cs => flushWord acc (.lbracket :: tokens [] cs)
  | acc, ']' :: cs => flushWord acc (.rbracket :: tokens [] cs)
  | acc, c :: cs => tokens (c :: acc) cs

/-- The value of a digit in a base of at most 16. -/
def digitValue (base : Nat) (c : Char) : Option Nat :=
  let n := c.toNat
  let v := if 48 ≤ n ∧ n ≤ 57 then n - 48
    else if 65 ≤ n ∧ n ≤ 70 then n - 55
    else if 97 ≤ n ∧ n ≤ 102 then n - 87
    else 16
  if v < base then some v else none

def numberIn (base : Nat) (acc : Nat) : List Char → Option Nat
  | [] => some acc
  | c :: cs => (digitValue base c).bind fun v => numberIn base (acc * base + v) cs

/-- "Numbers are decimal or `0x` hexadecimal" (R100). -/
def number (w : String) : Option Nat :=
  match w.toList with
  | [] => none
  | '0' :: 'x' :: c :: cs => numberIn 16 0 (c :: cs)
  | cs => numberIn 10 0 cs

/-- A number that fits the given field width. -/
def fitted (width : Nat) (w : String) : Option (BitVec width) :=
  (number w).bind fun n => if n < 2 ^ width then some (BitVec.ofNat width n) else none

/-- Words separated by single commas. -/
def commaList : List Token → Option (List String)
  | [] => some []
  | [.word w] => some [w]
  | .word w :: .comma :: rest =>
    match rest with
    | [] => none
    | _ => (commaList rest).map (w :: ·)
  | _ => none

/-- The data list of `SER_SEND`, between its brackets (R100). -/
def bracketed : List Token → Option (List String)
  | .lbracket :: rest =>
    match rest.reverse with
    | .rbracket :: inside => commaList inside.reverse
    | _ => none
  | _ => none

/-- The operands of a command in R100's order; a value that does not fit its field is no command. -/
def readOperands (mnemonic : String) (ops : List String) : Option Instr :=
  match mnemonic, ops with
  | "CFG_PLL", [src, osc, m, n, p, q] => do
    return .cfgPll (← valueOf pllSrcNames src) (← fitted 32 osc) (← fitted 6 m) (← fitted 9 n) (← valueOf pllPNames p) (← fitted 4 q)
  | "SET_SYSCLK", [src] => (valueOf clkSrcNames src).map .setSysclk
  | "CFG_AHB", [pre] => (valueOf ahbPreNames pre).map .cfgAhb
  | "CFG_APB1", [pre] => (valueOf apbPreNames pre).map .cfgApb1
  | "CFG_APB2", [pre] => (valueOf apbPreNames pre).map .cfgApb2
  | "SET_AHB_CLK", [bank, bit, en] => do
    return .setAhbClk (← (fitted 2 bank).bind AhbBank.ofCode) (← fitted 5 bit) (← valueOf enNames en)
  | "SET_APB_CLK", [bank, bit, en] => do
    return .setApbClk (← (fitted 2 bank).bind ApbBank.ofCode) (← fitted 5 bit) (← valueOf enNames en)
  | "GET_CLK", [which] => (valueOf clkSelNames which).map .getClk
  | "SER_INIT", [target] => (fitted 32 target).map .serInit
  | "SER_RECV", [] => some .serRecv
  | "SER_STAT", [sel] => (valueOf statSelNames sel).map .serStat
  | _, _ => none

/-- `SER_SEND size, [b0, b1, ...]`: the list has exactly `size` bytes (R100). -/
def readSend (size : String) (list : List Token) : Option Instr := do
  let n ← fitted 16 size
  let data ← (← bracketed list).mapM (fitted 8)
  let i := Instr.serSend n data
  if i.wf then return i else none

/-- The step after `ENV` (R100). -/
def readEnv : List Token → Option EnvStep
  | [.word "E_LOCK"] => some .lock
  | [.word "E_SWITCH"] => some .switch
  | [.word "E_TXDONE"] => some .txDone
  | [.word "E_RXBYTE", .word b] => (fitted 8 b).map .rxByte
  | [.word "E_FAULT", .word f] => (valueOf lineFaultNames f).map .fault
  | _ => none

/-- One line of text, read. -/
def readLine (line : String) : Option Line :=
  match tokens [] line.toList with
  | [.word "IRQ", .word c] => (valueOf causeNames c).map .irq
  | .word "ENV" :: rest => (readEnv rest).map .env
  | .word "SER_SEND" :: .word size :: .comma :: rest => (readSend size rest).map .command
  | .word mnemonic :: rest => ((commaList rest).bind (readOperands mnemonic)).map .command
  | _ => none

end Sys2Proof.Machine
end

