-- ==== Sys2Proof/Tests/Slice0.lean ====
section
/-! SUPPORT. Tests. Each expected result is a vector or a program line of 95_test_vectors (named in the comment), or the table of a
rule; the witnesses show for every statement in Certificates/Slice0/Obligations.lean that its hypotheses can be met. -/
namespace Sys2Proof.Tests

open Sys2Proof.Machine Sys2Proof.Safety

/-! Builders. -/

/-- The step completes and the state passes a check. -/
def got (r : Result) (check : State → Bool) : Bool :=
  match r with
  | .next t => check t
  | .fault _ => false
  | .refused _ => false

def faulted (r : Result) (f : Fault) : Bool :=
  match r with
  | .fault g => f == g
  | .next _ => false
  | .refused _ => false

def turnedAway (r : Result) (w : Refusal) : Bool :=
  match r with
  | .refused v => w == v
  | .next _ => false
  | .fault _ => false

/-- The response is the given one. -/
def responds (status : Status) (value : Word) (t : State) : Bool := t.resp == some ⟨status, value⟩

def withPllcfgr (v : Word) : State := { State.reset with rcc := { State.reset.rcc with pllcfgr := v } }

def withCfgr (v : Word) : State := { State.reset with rcc := { State.reset.rcc with cfgr := v } }

def withCr (v : Word) : State := { State.reset with rcc := { State.reset.rcc with cr := v } }

/-- Serial control register 2 and status register as given, the gate on, `SER_CR1` and the rest as V-SER-1 leaves them. -/
def serial (cr2 sr : Word) : State :=
  { State.reset with
    rcc := { State.reset.rcc with apb2enr := 0x1000 }, ser := { State.reset.ser with cr1 := 0x58, cr2 := cr2, sr := sr }, serInited := true }

/-- `SER_GATE` on, otherwise reset: the start of the vectors of 2.7. -/
def gated : State := { State.reset with rcc := { State.reset.rcc with apb2enr := 0x1000 } }

/-- After V-CLK-1: `CFG_PLL HSE, 8000000, 4, 168, 4, 7` in flight. -/
def locking : State :=
  { State.reset with
    rcc := { State.reset.rcc with cr := 0x01000000, pllcfgr := 0x07412A04 }, pllOscHz := 8000000, seq := .pllWait,
    op := some (.cfgPll .hse 8000000 4 168 .div4 7) }

/-- After V-CLK-3: the PLL has locked. -/
def locked : State := { locking with rcc := { locking.rcc with cr := 0x03000000 } }

/-- After V-CLK-5: `SET_SYSCLK PLL` in flight. -/
def switching : State := { locked with rcc := { locked.rcc with cfgr := 0x2 }, seq := .swWait, op := some (.setSysclk .pll) }

/-- After P1 line 3: the system runs at 84 MHz. -/
def running : State :=
  { locked with
    rcc := { locked.rcc with cfgr := 0xA }, snap := ⟨84000000, 84000000, 84000000, 84000000, 0, 0, 0⟩, seq := .idle, op := none,
    resp := some ⟨.ok, 0⟩ }

/-- P5 after line 2: a switch to an oscillator that does not run. -/
def hung : State :=
  { withCfgr 0x1 with cfg := { defaultConfig with hseReady := false }, seq := .swWait, op := some (.setSysclk .hse) }

/-! Well-formedness: an ill-formed term for each check. -/

theorem test_wf_send_size : (Instr.serSend 2 [1, 2, 3]).wf = false ∧ (Instr.serSend 3 [1, 2, 3]).wf = true := by decide

theorem test_wf_descriptor :
    (Desc.mk .rccCr 0 0).wf = false ∧ (Desc.mk .rccCr 24 9).wf = false ∧ (Desc.mk .serDr 0 8).wf = false ∧ (Desc.mk .rccCr 0 32).wf = true := by
  decide

theorem test_wf_tstb : (Desc.mk .rccCfgr 0 2).tstbOk = false ∧ (Desc.mk .rccCr 25 1).tstbOk = true := by decide

theorem test_wf_apart :
    (Desc.mk .rccCfgr 0 2).apart ⟨.rccCfgr, 1, 2⟩ = false ∧ (Desc.mk .rccCfgr 0 2).apart ⟨.rccCfgr, 2, 2⟩ = true := by decide

theorem test_wf_parameters : configOk defaultConfig = true := by decide

theorem test_wf_capacity : configOk { defaultConfig with txCap := 0 } = false ∧ configOk { defaultConfig with rxCap := 65536 } = false := by decide

theorem test_wf_shifts :
    configOk { defaultConfig with ahbShifts := ⟨1, 2, 3, 4, 4, 7, 8, 9⟩ } = false ∧
    configOk { defaultConfig with apbShifts := ⟨1, 2, 3, 5⟩ } = false := by decide

theorem test_wf_overlap :
    configOk { defaultConfig with fd := { defaultFields with sws := ⟨.rccCfgr, 1, 2⟩ } } = false ∧
    configOk { defaultConfig with serBase := 0x40023800 } = false := by decide

/-- R8, R62: `PLLM` seven bits wide, `PLLN` above it. -/
def sevenBitM : Config :=
  { defaultConfig with fd := { defaultFields with pllm := ⟨.rccPllcfgr, 0, 7⟩, plln := ⟨.rccPllcfgr, 7, 9⟩ } }

/-- R8, R62: `SPE` in `SER_CR2`, where no rule names it. -/
def movedSpe : Config := { defaultConfig with fd := { defaultFields with spe := ⟨.serCr2, 0, 1⟩ } }

theorem test_wf_field_table :
    layoutOk sevenBitM = true ∧ configOk movedSpe = true ∧ layoutOk movedSpe = false ∧
    configOk { defaultConfig with fd := { defaultFields with pllon := ⟨.rccCr, 23, 2⟩ } } = false ∧
    configOk { defaultConfig with fd := { defaultFields with br := ⟨.rccCr, 0, 3⟩ } } = false := by decide

theorem test_wf_wrapped_block : -- entry 24: SER_CR2 to SER_DR at addresses 0, 4 and 8
    configOk { defaultConfig with serBase := 0xFFFFFFFC } = true ∧
    regAddr { defaultConfig with serBase := 0xFFFFFFFC } .serCr2 = 0 := by decide

/-! Decoding: words written out from R92 to R94 (V-ENC). -/

theorem test_decode_cfg_pll : decode [0x01AEA810007A1200] = .ok (.cfgPll .hse 8000000 4 168 .div4 7) [] := by decide -- V-ENC-1

theorem test_decode_cfg_pll_hsi : decode [0x010EA82000F42400] = .ok (.cfgPll .hsi 16000000 8 168 .div2 7) [] := by decide -- V-ENC-4

theorem test_decode_set_sysclk : decode [0x0200000000000002] = .ok (.setSysclk .pll) [] := by decide -- V-ENC-5

theorem test_decode_cfg_ahb : decode [0x030000000000000C] = .ok (.cfgAhb .div64) [] := by decide -- V-ENC-6

theorem test_decode_cfg_apb1 : decode [0x0400000000000005] = .ok (.cfgApb1 .div4) [] := by decide -- V-ENC-7

theorem test_decode_cfg_apb2 : decode [0x0500000000000004] = .ok (.cfgApb2 .div2) [] := by decide -- V-ENC-7

theorem test_decode_set_ahb_clk : decode [0x0600000000000120] = .ok (.setAhbClk .bank1 0 true) [] := by decide -- V-ENC-8

theorem test_decode_set_apb_clk : decode [0x0700000000000131] = .ok (.setApbClk .bank1 17 true) [] := by decide -- V-ENC-9

theorem test_decode_get_clk : decode [0x0800000000000003] = .ok (.getClk .apb2) [] := by decide -- V-ENC-10

theorem test_decode_ser_init : decode [0x1000000000989680] = .ok (.serInit 10000000) [] := by decide -- V-ENC-11

theorem test_decode_ser_send : -- V-ENC-14
    decode [0x1100000000000009, 0x0807060504030201, 0x0000000000000009] = .ok (.serSend 9 [1, 2, 3, 4, 5, 6, 7, 8, 9]) [] := by decide

theorem test_decode_ser_send_empty : decode [0x1100000000000000, 5] = .ok (.serSend 0 []) [5] := by decide -- V-ENC-15

theorem test_decode_ser_recv : decode [0x1200000000000000] = .ok .serRecv [] := by decide -- V-ENC-16

theorem test_decode_ser_stat : decode [0x1300000000000004] = .ok (.serStat .state) [] := by decide -- V-ENC-16

theorem test_decode_events : -- R99
    [0, 1, 2, 3, 4].map (fun c => decodePort (.event c)) =
      [some .irqTxEmpty, some .irqRxAvailable, some .irqOverrun, some .irqModeFault, some .irqCrcError] ∧
    [5, 6, 7].map (fun c => decodePort (.event c)) = [none, none, none] := by decide

theorem test_decode_not_yet_whole : decode [] = .incomplete ∧ decode [0x1100000000000009, 0] = .incomplete := by decide -- R95

/-- V-ILL-1, V-ILL-2, V-ILL-3, V-ILL-4, V-ILL-5, V-ILL-6, V-ILL-7, V-ILL-10: unknown opcodes and reserved operands. -/
theorem test_illegal_opcode_and_operand :
    [0x0000000000000000, 0x0900000000000000, 0x1400000000000000, 0xFF00000000000000].map (fun w => decode [w]) =
      List.replicate 4 (.illegal .opcode []) ∧
    [0x0200000000000003, 0x0300000000000001, 0x0300000000000007, 0x0400000000000002, 0x0500000000000003, 0x0600000000000100,
      0x0700000000000160, 0x0700000000000100, 0x1300000000000005].map (fun w => decode [w]) =
      List.replicate 9 (.illegal .reservedOperand []) := by decide

/-- V-ILL-8, V-ILL-9, V-ILL-11, V-ILL-13: must-be-zero bits; V-ILL-12: a lane beyond the size, both words consumed. -/
theorem test_illegal_zero_bits :
    [0x06000000000001A0, 0x0800000000000004, 0x01AEA811007A1200, 0x1200000000000001].map (fun w => decode [w]) =
      List.replicate 4 (.illegal .mustBeZero []) ∧
    decode [0x1100000000000003, 0x0000000004030201, 7] = .illegal .payloadLane [7] := by decide

theorem test_response_words : -- V-ENC-17
    [Response.mk .ok 84000000, ⟨.configError, 0⟩, ⟨.bufferFull, 0⟩, ⟨.bufferEmpty, 0⟩, ⟨.illegalCommand, 0⟩].map Response.toWord =
      [0x000000000501BD00, 0x1000000000000000, 0x2000000000000000, 0x3000000000000000, 0x4000000000000000] := by decide

/-! The textual form (R100). -/

theorem test_text_read :
    readLine "CFG_PLL HSE, 8000000, 4, 168, 4, 7" = some (.command (.cfgPll .hse 8000000 4 168 .div4 7)) ∧
    readLine "SER_SEND 2, [0x55, 0xAA]" = some (.command (.serSend 2 [0x55, 0xAA])) ∧
    readLine "IRQ TX_EMPTY" = some (.irq .txEmpty) ∧ readLine "ENV E_RXBYTE 0xA1" = some (.env (.rxByte 0xA1)) := by decide +kernel

theorem test_text_refused :
    readLine "SER_SEND 3, [1,2]" = none ∧ readLine "CFG_AHB DIV32" = none ∧ readLine "SET_APB_CLK 3, 0, ON" = none := by decide +kernel

/-! Register access (V-RAL). -/

theorem test_ral_write_plln : -- V-RAL-1, V-RAL-2
    (wrfF .plln 168 (withPllcfgr 0xFFFFFFFF)).rcc.pllcfgr = 0xFFFFAA3F ∧ (wrfF .plln 680 (withPllcfgr 0xFFFFFFFF)).rcc.pllcfgr = 0xFFFFAA3F ∧
    rdfF .plln (withPllcfgr 0xFFFFAA3F) = 168 ∧ rdfF .pllq (withPllcfgr 0xFFFFAA3F) = 15 := by decide

theorem test_ral_write_other_fields : -- V-RAL-3, V-RAL-4, V-RAL-5
    (wrfF .pllq 7 (withPllcfgr 0)).rcc.pllcfgr = 0x07000000 ∧ (wrfF .pllm 4 (withPllcfgr 0x04003010)).rcc.pllcfgr = 0x04003004 ∧
    (wrfF .ppre1 0b101 (withCfgr 0xA)).rcc.cfgr = 0x140A := by decide

theorem test_ral_hardware_owned : -- V-RAL-6, V-RAL-12
    (wrfF .sws 0 (withCfgr 0x8)).rcc.cfgr = 0x8 ∧ (wrfF .rxne 1 (serial 0 0x2)).ser.sr = 0x2 := by decide

theorem test_ral_pllon : -- V-RAL-7, V-RAL-8, V-RAL-9
    tstbF .pllrdy (withCr 0x03000083) = true ∧ (wrfF .pllon 0 (withCr 0x03000083)).rcc.cr = 0x83 ∧
    (wrfF .pllon 1 (withCr 0x83)).rcc.cr = 0x01000083 := by decide

theorem test_ral_serial : -- V-RAL-10, V-RAL-11
    (wrfF .txeie 1 (serial 0x60 0x2)).ser.cr2 = 0xE0 ∧ (wrfF .txeie 0 (serial 0xE0 0x2)).ser.cr2 = 0x60 ∧
    (wrfF .crcerr 0 (serial 0 0x12)).ser.sr = 0x2 := by decide

theorem test_ral_whole_word : rdf ⟨.rccPllcfgr, 0, 32⟩ (withPllcfgr 0xFFFFAA3F) = 0xFFFFAA3F := by decide -- V-RAL-13

theorem test_bus_access : -- R30, R60, R64
    (memRead 0x40023804 State.reset).map Prod.fst = some 0x04003010 ∧ (memRead 0x4002380C State.reset).map Prod.fst = none ∧
    (memWrite 0x40023830 0x00100001 State.reset).map (fun s => s.rcc.ahb1enr) = some 0x00100001 := by decide

/-! Computations. -/

/-- V-PLL-1, V-PLL-3, V-PLL-5, V-PLL-6, V-PLL-7, V-PLL-14, V-PLL-18, V-PLL-19: valid sets and their frequencies. -/
theorem test_pll_valid :
    [(8000000, 4, 168, 7), (25000000, 12, 100, 4), (16000000, 4, 50, 2), (16000000, 4, 108, 9), (8000000, 3, 100, 5), (8000001, 2, 50, 2),
      (12000000, 3, 108, 9), (8000000, 4, 216, 9)].all (fun v => pllValid defaultConfig v.1 v.2.1 v.2.2.1 v.2.2.2) = true ∧
    pllFreq 8000000 4 168 4 = 84000000 ∧ pllFreq 25000000 12 100 2 = 104166650 ∧ pllFreq 8000000 3 100 4 = 66666650 ∧
    pllFreq 8000000 4 216 6 = 72000000 := by decide

/-- V-PLL-2, V-PLL-8 to V-PLL-13, V-PLL-15, V-PLL-17: one step outside each range. -/
theorem test_pll_invalid :
    [(8000000, 8, 336, 7), (8000000, 2, 109, 9), (8000000, 4, 49, 4), (8000000, 4, 433, 4), (8000000, 1, 100, 4), (8000000, 0, 100, 4),
      (8000000, 4, 168, 1), (7999999, 4, 100, 4), (16000000, 8, 49, 4)].all
      (fun v => !pllValid defaultConfig v.1 v.2.1 v.2.2.1 v.2.2.2) = true := by decide

/-- V-BAUD-1 to V-BAUD-15. -/
theorem test_baud :
    [(84000000, 10000000), (84000000, 42000000), (84000000, 100000000), (84000000, 328125), (84000000, 328124), (84000000, 300000),
      (42000000, 10000000), (42000000, 10500000), (21000000, 164063), (21000000, 164062), (21000000, 82032), (21000000, 82031),
      (16000000, 1000000), (16000000, 0), (16000000, 4000000000)].map (fun v => baudSelect v.1 v.2) =
      [some 4, some 1, some 1, some 8, none, none, some 3, some 2, some 7, some 8, some 8, none, some 4, none, some 1] := by decide

theorem test_shift_tables : -- R144, R145, 2.4
    [0b0000, 0b1000, 0b1001, 0b1010, 0b1011, 0b1100, 0b1101, 0b1110, 0b1111].map (fun c => 84000000 >>> ahbShift defaultConfig.ahbShifts c) =
      [84000000, 42000000, 21000000, 10500000, 5250000, 1312500, 656250, 328125, 164062] ∧
    [0b000, 0b100, 0b101, 0b110, 0b111].map (apbShift defaultConfig.apbShifts) = [0, 1, 2, 3, 4] := by decide

theorem test_save_hse : got (saveClk (withCfgr 0x4)) (fun t => t.snap == ⟨8000000, 8000000, 8000000, 8000000, 0, 0, 0⟩) = true := by decide -- V-SAVE-2

theorem test_save_pll : -- V-SAVE-3, V-SAVE-4
    got (saveClk { withPllcfgr 0x07002A08 with rcc := ⟨0x03000000, 0x07002A08, 0x948A, 0, 0, 0, 0, 0⟩, pllOscHz := 16000000 })
      (fun t => t.snap == ⟨168000000, 84000000, 21000000, 42000000, 1, 2, 1⟩) = true ∧
    got (saveClk { withPllcfgr 0x0440190C with rcc := ⟨0x03000000, 0x0440190C, 0xDCFA, 0, 0, 0, 0, 0⟩, pllOscHz := 25000000 })
      (fun t => t.snap == ⟨104166650, 203450, 12715, 25431, 9, 4, 3⟩) = true := by decide

theorem test_save_reserved : -- V-SAVE-5, V-SAVE-6, V-SAVE-7
    got (saveClk (withCfgr 0x50)) (fun t => t.snap.ahb == 16000000 && t.snap.ahbScaler == 0) = true ∧
    faulted (saveClk (withCfgr 0xC)) .reservedClockStatus = true ∧
    faulted (saveClk { withPllcfgr 0 with rcc := ⟨0x03000000, 0, 0xA, 0, 0, 0, 0, 0⟩ }) .livePllMZero = true := by decide

/-! Reset (R50). -/

theorem test_reset_words :
    State.reset.rcc = ⟨0, 0x04003010, 0, 0, 0, 0, 0, 0⟩ ∧ State.reset.ser = ⟨0, 0, 0x2, 0, 0⟩ ∧
    State.reset.snap = ⟨16000000, 16000000, 16000000, 16000000, 0, 0, 0⟩ ∧ State.reset.pllOscHz = 16000000 := by decide

/-! Clock commands. -/

theorem test_cfg_pll_first_step : -- V-CLK-1
    got (exec (.cfgPll .hse 8000000 4 168 .div4 7) State.reset) (fun t => t == locking) = true := by decide

theorem test_cfg_pll_again : -- V-CLK-12; R150 with M in bits 6 to 0 and N in bits 15 to 7
    got (exec (.cfgPll .hsi 16000000 8 168 .div2 7) { locked with seq := .idle, op := none })
      (fun t => t.rcc.pllcfgr == 0x07002A08 && t.rcc.cr == 0x01000000 && t.pllOscHz == 16000000 && t.seq == .pllWait) = true ∧
    got (exec (.cfgPll .hse 8000000 4 168 .div4 7) (State.resetFrom sevenBitM)) (fun t => t.rcc.pllcfgr == 0x07415404) = true := by decide

theorem test_cfg_pll_wait : -- V-CLK-2, V-CLK-4
    got (cfgPllWait locking) (fun t => t == locking) = true ∧
    got (cfgPllWait locked) (fun t => responds .ok 0 t && t.seq == .idle && t.snap == State.reset.snap) = true := by decide

theorem test_set_sysclk_pll : -- V-CLK-5, V-CLK-7
    got (exec (.setSysclk .pll) { locked with seq := .idle, op := none }) (fun t => t == switching) = true ∧
    faulted (exec (.setSysclk .pll) State.reset) .pllNotReady = true := by decide

theorem test_set_sysclk_wait : -- V-CLK-6, V-CLK-8
    got (setSysclkWait (envStep .switch switching)) (fun t => responds .ok 0 t && t.rcc.cfgr == 0xA && t.snap == running.snap) = true ∧
    got (setSysclkWait { State.reset with seq := .swWait, op := some (.setSysclk .hsi) })
      (fun t => responds .ok 0 t && t.snap == State.reset.snap) = true := by decide

theorem test_cfg_ahb : -- V-CLK-14
    got (exec (.cfgAhb .div64) running)
      (fun t => t.snap == ⟨84000000, 1312500, 1312500, 1312500, 6, 0, 0⟩ && responds .ok 0 t) = true := by decide

theorem test_cfg_apb1 : -- P1 line 5
    got (exec (.cfgApb1 .div4) running)
      (fun t => t.rcc.cfgr == 0x140A && t.snap == ⟨84000000, 84000000, 21000000, 84000000, 0, 2, 0⟩) = true := by decide

theorem test_cfg_apb2 : -- P1 line 6
    got (exec (.cfgApb2 .div2) { running with rcc := { running.rcc with cfgr := 0x140A } })
      (fun t => t.rcc.cfgr == 0x940A && t.snap == ⟨84000000, 84000000, 21000000, 42000000, 0, 2, 1⟩) = true := by decide

theorem test_set_ahb_clk : -- V-CLK-15, V-CLK-17
    got (exec (.setAhbClk .bank1 0 true) { State.reset with rcc := { State.reset.rcc with ahb1enr := 0x00100000 } })
      (fun t => t.rcc.ahb1enr == 0x00100001 && responds .ok 0 t) = true ∧
    got (exec (.setAhbClk .bank3 31 false) { State.reset with rcc := { State.reset.rcc with ahb3enr := 0xFFFFFFFF } })
      (fun t => t.rcc.ahb3enr == 0x7FFFFFFF) = true := by decide

theorem test_set_apb_clk : -- V-CLK-16
    got (exec (.setApbClk .bank2 12 true) State.reset) (fun t => t.rcc.apb2enr == 0x1000) = true ∧
    got (exec (.setApbClk .bank2 12 false) gated) (fun t => t.rcc.apb2enr == 0) = true := by decide

theorem test_get_clk : -- P1 line 9
    got (exec (.getClk .apb1) { running with snap := { running.snap with apb1 := 21000000 } }) (responds .ok 21000000) = true := by decide

/-! Serial commands. -/

theorem test_ser_init : -- V-SER-1; R182 with SPE in bit 0 of SER_CR2
    got (exec (.serInit 1000000) gated)
      (fun t => t.ser == ⟨0x58, 0x60, 0x2, 0, 0⟩ && t.serInited && responds .ok 0 t) = true ∧
    got (exec (.serInit 1000000) { State.resetFrom movedSpe with rcc := gated.rcc })
      (fun t => t.ser == ⟨0x18, 0x61, 0x2, 0, 0⟩ && t.flag .spe) = true := by decide

theorem test_ser_init_stops : -- V-SER-2, V-SER-3
    got (exec (.serInit 0) gated) (fun t => responds .configError 0 t && t.ser == State.reset.ser && !t.serInited) = true ∧
    faulted (exec (.serInit 1000000) State.reset) .serClockGatedOff = true := by decide

theorem test_ser_send : -- V-SER-4, V-SER-5
    got (exec (.serSend 4 [9, 8, 7, 6]) (serial 0x60 0x2))
      (fun t => t.txFifo == ⟨4, [9, 8, 7, 6]⟩ && t.ser.cr2 == 0xE0 && t.serState == .transmitting && responds .ok 0 t) = true ∧
    got (exec (.serSend 1 [5]) { serial 0xE0 0x2 with txFifo := ⟨4, [9, 8, 7, 6]⟩ })
      (fun t => responds .bufferFull 0 t && t.txFifo == ⟨4, [9, 8, 7, 6]⟩) = true := by decide

theorem test_ser_send_nothing : -- V-SER-8
    got (exec (.serSend 0 []) (serial 0x60 0x2))
      (fun t => t.txFifo == ⟨4, []⟩ && t.ser.cr2 == 0xE0 && t.serState == .transmitting && pending .txEmpty t) = true := by decide

theorem test_ser_recv : -- V-SER-9, V-SER-10
    got (exec .serRecv (serial 0x60 0x2)) (responds .bufferEmpty 0) = true ∧
    got (exec .serRecv { serial 0x60 0x2 with rxFifo := ⟨2, [0x41, 0x42]⟩ }) (fun t => responds .ok 0x41 t && t.rxFifo == ⟨2, [0x42]⟩) = true := by
  decide

theorem test_ser_stat : -- V-SER-11; P3 lines 1 and 2
    got (exec (.serStat .state) State.reset) (responds .ok 0) = true ∧
    got (exec (.serStat .rxSize) { serial 0x60 0x2 with rxFifo := ⟨2, [0xA1, 0xA2]⟩ }) (responds .ok 2) = true ∧
    got (exec (.serStat .overruns) { serial 0x60 0x2 with overrunCount := 1 }) (responds .ok 1) = true := by decide

/-! Events and hardware steps. -/

theorem test_irq_tx_empty : -- V-IRQ-1, V-IRQ-2
    got (exec .irqTxEmpty { serial 0xE0 0x2 with txFifo := ⟨4, [7]⟩, serState := .transmitting })
      (fun t => t.txFifo.q == [] && t.txWire == [7] && t.ser == ⟨0x58, 0xE0, 0, 0, 7⟩ && t.serState == .transmitting) = true ∧
    got (exec .irqTxEmpty { serial 0xE0 0x2 with serState := .transmitting })
      (fun t => t.ser.cr2 == 0x60 && t.serState == .idle && t.txWire == []) = true := by decide

theorem test_irq_rx_available : -- V-IRQ-4, V-IRQ-5, V-IRQ-6
    got (exec .irqRxAvailable (envStep (.rxByte 0x5A) { serial 0x60 0x2 with serState := .transmitting }))
      (fun t => t.rxFifo.q == [0x5A] && t.ser.sr == 0x2 && t.overrunCount == 0 && t.serState == .transmitting) = true ∧
    got (exec .irqRxAvailable (envStep (.rxByte 3) { serial 0x60 0x2 with rxFifo := ⟨2, [1, 2]⟩ }))
      (fun t => t.rxFifo.q == [1, 2] && t.ser.sr == 0x2 && t.overrunCount == 1) = true := by decide

theorem test_irq_overrun : -- V-IRQ-8, V-IRQ-9
    got (exec .irqOverrun { serial 0x60 0x42 with rxFifo := ⟨2, [0xB1]⟩ })
      (fun t => t.ser.sr == 0x2 && t.faultCount == 1 && t.serState == .idle && t.rxFifo.q == [0xB1]) = true ∧
    got (exec .irqOverrun (serial 0x60 0x43))
      (fun t => t.ser.sr == 0x2 && t.faultCount == 1 && t.rxFifo.q == [] && !pending .rxAvailable t) = true := by decide

theorem test_irq_mode_fault : -- V-IRQ-10
    got (exec .irqModeFault { envStep (.fault .modf) (serial 0x60 0x2) with faultCount := 4 })
      (fun t => t.ser == ⟨0x58, 0x60, 0x2, 0, 0⟩ && t.faultCount == 5 && t.serState == .idle) = true := by decide

theorem test_irq_crc_error : -- V-IRQ-11, V-IRQ-12
    got (exec .irqCrcError (envStep (.fault .crcerr) (serial 0x60 0x2))) (fun t => t.ser.sr == 0x2 && t.faultCount == 1) = true ∧
    got (exec .irqCrcError { serial 0x60 0x12 with faultCount := 0xFFFFFFFF }) (fun t => t.faultCount == 0) = true := by decide

theorem test_irq_not_pending : -- V-IRQ-14
    got (exec .irqTxEmpty (serial 0x60 0x2)) (fun t => t == serial 0x60 0x2) = true := by decide

theorem test_env_clock : -- V-CLK-3, V-CLK-6, V-CLK-11
    envStep .lock locking = locked ∧ (envStep .switch switching).rcc.cfgr = 0xA ∧
    envStep .lock { locking with cfg := { defaultConfig with hseReady := false } } =
      { locking with cfg := { defaultConfig with hseReady := false } } := by decide

theorem test_env_overrun : -- V-IRQ-7
    (envStep (.rxByte 0xB2) (envStep (.rxByte 0xB1) (serial 0x60 0x2))).ser = ⟨0x58, 0x60, 0x43, 0xB1, 0⟩ := by decide

theorem test_env_disabled : -- V-IRQ-3, V-IRQ-13
    envStep .txDone (serial 0x60 0x2) = serial 0x60 0x2 ∧ envStep (.rxByte 1) State.reset = State.reset := by decide

/-! Premises and observation of a run. -/

/-- R273: P1's order is respected; SER_SEND before SER_INIT, a clock command after it, and the PLL before CFG_PLL are not. -/
theorem test_boot_order :
    bootOrder defaultConfig
      [.cfgPll .hse 8000000 4 168 .div4 7, .setSysclk .pll, .cfgApb2 .div2, .setApbClk .bank2 12 true, .serInit 10000000, .serSend 1 [7],
        .serRecv, .serStat .state, .getClk .apb2] = true ∧
    [[.setApbClk .bank2 12 true, .serSend 1 [7]], [.setApbClk .bank2 12 true, .serInit 1000000, .cfgAhb .div2], [.setSysclk .pll],
      [.serInit 1000000], [.setApbClk .bank2 12 true, .serInit 1000000, .setApbClk .bank2 12 false]].map (bootOrder defaultConfig) =
      List.replicate 5 false := by decide

/-- A step placed for the application, with the given words on the command port. -/
def offered (words : List CmdWord) (s : State) : State := { s with turns := [.app], cmdIn := words }

theorem test_issued :
    issued (offered [0x1200000000000000] (serial 0x60 0x2)) = some .serRecv ∧ issued (offered [0] (serial 0x60 0x2)) = none ∧
    issued { offered [0x1200000000000000] locking with turns := [.app] } = none := by decide

/-- R233: a run of two steps, the poll that ends `CFG_PLL` and a `GET_CLK`: two responses, in order, and the final state. -/
def twoSteps : List State :=
  [{ locked with cmdIn := [0x0800000000000000], turns := [.app, .app] },
   { settled with cmdIn := [0x0800000000000000], turns := [.app], resp := some ⟨.ok, 0⟩ }, { settled with resp := some ⟨.ok, 16000000⟩ }]
where
  /-- `locked` with nothing in flight. -/
  settled : State := { locked with seq := .idle, op := none }

theorem test_observe :
    IsFiniteRun twoSteps ∧ (observe twoSteps).responses = [⟨.ok, 0⟩, ⟨.ok, 16000000⟩] ∧
    (observe twoSteps).final = some { twoSteps.settled with resp := some ⟨.ok, 16000000⟩ } := by
  refine ⟨⟨rfl, rfl, trivial⟩, by decide, by decide⟩

/-- R233: a finite run that stops in a wait state is a hang; it gave no response. -/
theorem test_stopped_waiting :
    StoppedWaiting [{ locking with turns := [.app] }, locking] ∧ responses [{ locking with turns := [.app] }, locking] = [] :=
  ⟨⟨⟨rfl, trivial⟩, locking, rfl, by decide⟩, by decide⟩

/-! Witnesses: for each statement with hypotheses, values that meet all of them together; for a statement with several clauses, values
for each clause. -/

theorem witness_DecodeEncodeAgree : (Instr.serSend 3 [1, 2, 3]).wf = true ∧ (Instr.serSend 0 []).wf = true := by decide

theorem witness_EncodeDecodeAgree :
    decodePort (.command [0x0800000000000003]) = some (.getClk .apb2) ∧ decodePort (.event 4) = some .irqCrcError := by decide

theorem witness_CommandTakesItsLength :
    decode [0x1100000000000009, 0] = .incomplete ∧ commandLength 0x1100000000000009 = 3 ∧
    decode [0x1100000000000001, 0xFF, 9] = .ok (.serSend 1 [0xFF]) [9] ∧
    decode [0x1100000000000001, 0x100, 9] = .illegal .payloadLane [9] := by decide

theorem witness_CommandStreamStaysInStep :
    (Instr.serSend 3 [1, 2, 3]).wf = true ∧ encode (.serSend 3 [1, 2, 3]) = .command [0x1100000000000003, 0x30201] := by decide

theorem witness_StepRunsDecodedCommand :
    configOk (offered [0x0200000000000002, 5] running).cfg = true ∧ (offered [0x0200000000000002, 5] running).turns = .app :: [] ∧
    (offered [0x0200000000000002, 5] running).seq = .idle ∧
    decode (offered [0x0200000000000002, 5] running).cmdIn = .ok (.setSysclk .pll) [5] := by decide

theorem witness_IllegalCommandRaises :
    configOk (offered [0, 7] running).cfg = true ∧ (offered [0, 7] running).turns = .app :: [] ∧ (offered [0, 7] running).seq = .idle ∧
    (offered [0, 7] running).op = none ∧ decode (offered [0, 7] running).cmdIn = .illegal .opcode [7] := by decide

/-- The last code with a cause and the first without one. -/
theorem witness_StepDeliversEvent :
    configOk { State.reset with turns := [.event 4] }.cfg = true ∧ Cause.ofCode 4 = some .crcError ∧ Cause.ofCode 5 = none := by decide

theorem witness_FetchedWordRuns :
    configOk State.reset.cfg = true ∧ decodeTableWord 64 0x1200000000000000 = some .serRecv ∧
    encode .serRecv = .command [0x1200000000000000] ∧ decodeTableWord 3 4 = some Cause.crcError.instr := by decide

theorem witness_IllFormedParametersRefused : configOk { State.reset with cfg := { defaultConfig with txCap := 0 } }.cfg = false := by decide

/-- A step that completes, for every statement about a step that does. -/
theorem witness_ParametersNeverChange :
    step (offered [0x1300000000000000] State.reset) = .next { State.reset with resp := some ⟨.ok, 0⟩ } := by rfl

theorem witness_FieldWriteLaws :
    layoutOk State.reset.cfg = true ∧ SoftwareField State.reset.cfg (State.reset.desc .plln) ∧ SoftwareField State.reset.cfg (State.reset.desc .pllm) ∧
    (State.reset.desc .plln).apart (State.reset.desc .pllm) = true ∧ (hardwareBits State.reset.cfg .rccPllcfgr).getLsbD 15 = false :=
  ⟨by decide, ⟨by decide, by decide⟩, ⟨by decide, by decide⟩, by decide, by decide⟩

theorem witness_WordWriteKeepsHardwareBits :
    layoutOk State.reset.cfg = true ∧ (hardwareBits State.reset.cfg .rccCr).getLsbD 24 = false ∧ (hardwareBits State.reset.cfg .rccCr).getLsbD 25 = true ∧
    extractField (State.reset.desc .pllon) 0x01000000 ≠ 0 ∧ (hardwareBits State.reset.cfg .rccCfgr).getLsbD 3 = true := by decide

theorem witness_WriteSideEffects :
    layoutOk State.reset.cfg = true ∧ extractField (State.reset.desc .pllon) 0xFEFFFFFF = 0 ∧
    extractField (State.reset.desc .pllon) 0x01000000 ≠ 0 := by decide

theorem witness_ReadSideEffects : layoutOk (serial 0x60 0x3).cfg = true ∧ (serial 0x60 0x3).field .rxne = 1 := by decide

/-- A word that differs from the register's in hardware-owned bits only, in `SER_SR` and in `RCC_CFGR`. -/
theorem witness_RewriteChangesNothing :
    layoutOk (serial 0x60 0x12).cfg = true ∧ ((serial 0x60 0x12).flag .pllon = false → (serial 0x60 0x12).flag .pllrdy = false) ∧
    (∀ i, (hardwareBits (serial 0x60 0x12).cfg .serSr).getLsbD i = false → (0x10#32).getLsbD i = ((serial 0x60 0x12).word .serSr).getLsbD i) ∧
    ∀ i, (hardwareBits running.cfg .rccCfgr).getLsbD i = false → (0x2#32).getLsbD i = (running.word .rccCfgr).getLsbD i := by
  have below (P : Nat → Prop) (h : ∀ i : Fin 32, P i) (g : ∀ i, 32 ≤ i → P i) (i : Nat) : P i := by
    by_cases hi : i < 32
    · exact h ⟨i, hi⟩
    · exact g i (by omega)
  refine ⟨by decide, by decide, below _ (by decide) ?_, below _ (by decide) ?_⟩ <;>
    exact fun i hi _ => (BitVec.getLsbD_of_ge _ i hi).trans (BitVec.getLsbD_of_ge _ i hi).symm

theorem witness_AddressMap : configOk State.reset.cfg = true ∧ ∀ r : Reg, (0x4002380C : Word) ≠ regAddr State.reset.cfg r := by
  refine ⟨by decide, fun r => ?_⟩
  cases r <;> decide

theorem witness_ResetValues : layoutOk defaultConfig = true ∧ State.reset = State.resetFrom defaultConfig := ⟨by decide, rfl⟩

theorem witness_ClockInvariantsKept :
    ClockInv { locking with turns := [.app] } ∧ step { locking with turns := [.app] } = .next locking where
  left :=
    { pllOff := by decide
      settled := by decide
      layout := by decide
      legalSw := by decide
      legalSws := by decide
      swReady := by decide
      swsReady := by decide
      configured := fun _ => ⟨7, by decide⟩
      locking := by decide
      latch := trivial
      fresh := nofun
      ahbLe := by decide
      apb1Le := by decide
      apb2Le := by decide }
  right := rfl

/-- The same invariants in `SW_WAIT` and, with a fresh snapshot, in `IDLE`. -/
theorem witness_ClockInvariantsKept_switching : ClockInv switching where
  pllOff := by decide
  settled := by decide
  layout := by decide
  legalSw := by decide
  legalSws := by decide
  swReady := by decide
  swsReady := by decide
  configured := fun _ => ⟨7, by decide⟩
  locking := by decide
  latch := show _ = _ by decide
  fresh := nofun
  ahbLe := by decide
  apb1Le := by decide
  apb2Le := by decide

theorem witness_ClockInvariantsKept_idle : ClockInv running where
  pllOff := by decide
  settled := by decide
  layout := by decide
  legalSw := by decide
  legalSws := by decide
  swReady := by decide
  swsReady := by decide
  configured := fun _ => ⟨7, by decide⟩
  locking := by decide
  latch := trivial
  fresh := fun _ => ⟨84000000, ⟨⟨.pll, ⟨by decide, by decide⟩, by decide⟩, by decide⟩, by decide⟩
  ahbLe := by decide
  apb1Le := by decide
  apb2Le := by decide

theorem witness_SerialInvariantsKept :
    SerialInv { serial 0xE0 0x2 with serState := .transmitting, turns := [.event 0] } ∧
    step { serial 0xE0 0x2 with serState := .transmitting, turns := [.event 0] } = .next (serial 0x60 0x2) where
  left :=
    { layout := by decide
      txCap := rfl
      rxCap := rfl
      txSize := by decide
      rxSize := by decide
      persists := Or.inr rfl
      masked := rfl
      quiet := nofun
      enabled := by decide }
  right := rfl

theorem witness_BytesSentInOrder : -- a SER_SEND that fits, and a byte sent
    got (step (offered [0x1100000000000001, 5] { serial 0x60 0x2 with txFifo := ⟨4, [9, 8, 7]⟩ }))
      (fun t => t.txFifo.q == [9, 8, 7, 5] && responds .ok 0 t) = true ∧
    got (step { serial 0xE0 0x2 with txFifo := ⟨4, [9, 8]⟩, turns := [.event 0] }) (fun t => t.txFifo.q == [8] && t.txWire == [9]) = true := by
  decide

theorem witness_BytesReceivedInOrder : -- a byte queued, a byte taken, nothing queued because the buffer is full
    got (step { serial 0x60 0x3 with turns := [.event 1] }) (fun t => t.rxFifo.q == [0]) = true ∧
    got (step (offered [0x1200000000000000] { serial 0x60 0x2 with rxFifo := ⟨2, [5]⟩ })) (fun t => t.rxFifo.q == [] && responds .ok 5 t) = true ∧
    got (step { serial 0x60 0x3 with rxFifo := ⟨2, [1, 2]⟩, turns := [.event 1] }) (fun t => t.rxFifo.q == [1, 2]) = true := by decide

theorem witness_BufferContract : -- full; room for one; empty; one byte
    ((⟨2, [1, 2]⟩ : Fifo).size = 2 ∧ (⟨2, [1, 2]⟩ : Fifo).size ≤ 2) ∧ (⟨2, [1]⟩ : Fifo).size ≠ 2 ∧ (⟨2, []⟩ : Fifo).size = 0 ∧
    (⟨2, [1]⟩ : Fifo).q = 1 :: [] := by decide

theorem witness_OneCommandAtATime : -- a poll that waits, and one that completes
    got (step { locking with turns := [.app], cmdIn := [0x0800000000000000] }) (fun t => t.seq == .pllWait && t.resp == none) = true ∧
    got (step { locked with turns := [.app], cmdIn := [0x0800000000000000] })
      (fun t => t.seq == .idle && responds .ok 0 t && t.cmdIn == [0x0800000000000000]) = true := by decide

theorem witness_InitialisedOnce :
    got (step (offered [0x10000000000F4240] gated)) (fun t => !gated.serInited && t.serInited && responds .ok 0 t) = true := by decide

theorem witness_CountersCountEvents : -- a fault serviced; a byte dropped
    got (step { serial 0x60 0x22 with turns := [.event 3], faultCount := 0xFFFFFFFF }) (fun t => t.faultCount == 0) = true ∧
    got (step { serial 0x60 0x3 with turns := [.event 1], rxFifo := ⟨2, [1, 2]⟩ }) (fun t => t.overrunCount == 1) = true := by decide

/-- `PLL_WAIT` with a byte to send: V-IRQ-15. -/
theorem witness_HandlerLeavesApplication :
    configOk (serial 0xE0 0x2).cfg = true ∧
    got (exec Cause.txEmpty.instr { serial 0xE0 0x2 with txFifo := ⟨4, [7]⟩, seq := .pllWait, op := locking.op })
      (fun t => t.txWire == [7] && t.seq == .pllWait && t.op == locking.op) = true := by decide

theorem witness_ClockCommandsLeaveSerial :
    configOk (serial 0x60 0x2).cfg = true ∧
    got (exec (.setSysclk .hse) (serial 0x60 0x2)) (fun t => t.ser == (serial 0x60 0x2).ser) = true ∧
    got (cfgPllWait { serial 0x60 0x2 with rcc := locked.rcc, seq := .pllWait }) (fun t => t.seq == .idle) = true := by decide

theorem witness_StatusSummary : -- each error status
    got (exec (.cfgPll .hse 8000000 8 336 .div4 7) State.reset) (responds .configError 0) = true ∧
    got (exec (.serSend 5 [1, 2, 3, 4, 5]) (serial 0x60 0x2)) (responds .bufferFull 0) = true ∧
    got (exec .serRecv (serial 0x60 0x2)) (responds .bufferEmpty 0) = true := by decide

theorem witness_CfgPllEffect : -- in use; out of range; in range
    layoutOk State.reset.cfg = true ∧ running.field .sws = 2 ∧ State.reset.field .sw ≠ 2 ∧ State.reset.field .sws ≠ 2 ∧
    ¬ PllRanges State.reset.cfg 8000000 8 336 7 ∧ PllRanges State.reset.cfg 16000000 4 108 9 :=
  ⟨by decide, by decide, by decide, by decide, fun h => absurd h.2.2.2.1.1 (by decide),
    ⟨by decide, by decide, by decide, by decide, by decide⟩⟩

/-- States in which the clock status, or the divisor of the live PLL, has no meaning (V-SAVE-6, V-SAVE-7), and one whose frequency
needs more than 32 bits. -/
def noStatus : State := { locked with rcc := { locked.rcc with cfgr := 0xC } }

def noDivisor : State := { locked with rcc := { locked.rcc with cfgr := 0xA, pllcfgr := 0x07412A00 } }

def tooFast : State := { locked with rcc := { locked.rcc with cfgr := 0xA, pllcfgr := 0x04007FC1 }, pllOscHz := 0xFFFFFFFF }

theorem witness_reserved_clock_states :
    (layoutOk noStatus.cfg = true ∧ 2 < (noStatus.field .sws).toNat) ∧
    (layoutOk noDivisor.cfg = true ∧ noDivisor.field .sws = 2 ∧ noDivisor.field .pllm = 0) ∧
    (layoutOk tooFast.cfg = true ∧ ActiveSource .pll tooFast ∧ ¬ sourceHz .pll tooFast < 2 ^ 32) :=
  ⟨by decide, by decide, by decide, ⟨by decide, by decide⟩, by decide⟩

/-- Each of them may stand in `PLL_WAIT` with the PLL ready; the last two in `SW_WAIT` with the PLL as the target. -/
theorem witness_CfgPllWaitEffect :
    layoutOk { locked with turns := [.app] }.cfg = true ∧ locked.seq = .pllWait ∧ locked.flag .pllrdy = true ∧ ActiveSource .hsi locked ∧
    locking.flag .pllrdy = false ∧ (noStatus.seq = .pllWait ∧ noStatus.flag .pllrdy = true) ∧
    (noDivisor.seq = .pllWait ∧ noDivisor.flag .pllrdy = true) ∧ tooFast.seq = .pllWait ∧ tooFast.flag .pllrdy = true :=
  ⟨by decide, rfl, by decide, ⟨by decide, nofun⟩, by decide, ⟨rfl, by decide⟩, ⟨rfl, by decide⟩, rfl, by decide⟩

theorem witness_SetSysclkEffect : layoutOk locked.cfg = true ∧ locked.flag .pllrdy = true ∧ State.reset.flag .pllrdy = false := by decide

theorem witness_SetSysclkWaitEffect : -- waiting; arrived; arrived with no divisor; arrived too fast
    layoutOk { switching with turns := [.app] }.cfg = true ∧ switching.seq = .swWait ∧ switching.op = some (.setSysclk .pll) ∧
    switching.field .sws ≠ ClkSrc.pll.code.setWidth 32 ∧ (envStep .switch switching).field .sws = ClkSrc.pll.code.setWidth 32 ∧
    (envStep .switch switching).field .pllm ≠ 0 ∧ sourceHz .pll (envStep .switch switching) = 84000000 ∧
    { noDivisor with seq := .swWait, op := some (.setSysclk .pll) }.field .sws = 2 ∧
    { tooFast with seq := .swWait, op := some (.setSysclk .pll) }.field .sws = ClkSrc.pll.code.setWidth 32 :=
  ⟨by decide, rfl, rfl, by decide, by decide, by decide, by decide, by decide, by decide⟩

/-- Each clock source can be the active one. -/
theorem witness_CfgAhbEffect :
    layoutOk running.cfg = true ∧ ActiveSource .pll running ∧ sourceHz .pll running = 84000000 ∧
    (ActiveSource .hsi State.reset ∧ sourceHz .hsi State.reset = 16000000) ∧
    (ActiveSource .hse (withCfgr 0x4) ∧ sourceHz .hse (withCfgr 0x4) = 8000000) :=
  ⟨by decide, ⟨by decide, by decide⟩, by decide, ⟨⟨by decide, nofun⟩, by decide⟩, ⟨⟨by decide, nofun⟩, by decide⟩⟩

theorem running_fresh : SnapshotFresh running := ⟨84000000, ⟨⟨.pll, ⟨by decide, by decide⟩, by decide⟩, by decide⟩, by decide⟩

theorem witness_CfgApb1Effect : layoutOk running.cfg = true ∧ ActiveSource .pll running ∧ SnapshotFresh running :=
  ⟨by decide, ⟨by decide, by decide⟩, running_fresh⟩

theorem witness_CfgApb2Effect : layoutOk State.reset.cfg = true ∧ ActiveSource .hsi State.reset ∧ SnapshotFresh State.reset :=
  ⟨by decide, ⟨by decide, nofun⟩, 16000000, ⟨⟨.hsi, ⟨by decide, nofun⟩, by decide⟩, by decide⟩, by decide⟩

/-- `GET_CLK` with a fresh snapshot and with a stale one. -/
theorem witness_GetClkEffect : SnapshotFresh running ∧ ¬ SnapshotFresh { running with snap := State.reset.snap } := by
  refine ⟨running_fresh, ?_⟩
  rintro ⟨_, ⟨⟨src, ⟨h, -⟩, rfl⟩, -⟩, hs⟩
  cases src
  · exact absurd h (by decide)
  · exact absurd h (by decide)
  · exact absurd hs (by decide)

theorem witness_ShiftTables : configOk defaultConfig = true ∧ (7 : BitVec 4).msb = false ∧ (3 : BitVec 3).msb = false := by decide

/-- The first and the last bit of a bank. -/
theorem witness_SetAhbClkEffect :
    configOk State.reset.cfg = true ∧
    got (exec (.setAhbClk .bank3 31 true) State.reset) (fun t => t.rcc.ahb3enr == 0x80000000) = true ∧
    got (exec (.setAhbClk .bank2 0 true) State.reset) (fun t => t.rcc.ahb2enr == 0x1) = true := by decide

theorem witness_SetApbClkEffect : -- the first and the last bit of a bank
    configOk gated.cfg = true ∧ got (exec (.setApbClk .bank1 0 true) gated) (fun t => t.rcc.apb1enr == 0x1) = true ∧
    got (exec (.setApbClk .bank2 31 true) gated) (fun t => t.rcc.apb2enr == 0x80001000) = true := by decide

theorem witness_PllBringUp :
    layoutOk State.reset.cfg = true ∧ State.reset.field .sw ≠ 2 ∧ State.reset.field .sws = State.reset.field .sw ∧ (State.reset.field .sws).toNat < 3 ∧
    (State.reset.flag .pllon = false → State.reset.flag .pllrdy = false) ∧ State.reset.cfg.hseReady = true ∧
    PllRanges State.reset.cfg 8000000 4 168 7 :=
  ⟨by decide, by decide, by decide, by decide, by decide, by decide, ⟨by decide, by decide, by decide, by decide, by decide⟩⟩

theorem witness_SerInitEffect : -- already initialised; gate off; no prescaler; the last prescaler
    layoutOk gated.cfg = true ∧ (serial 0x60 0x2).serInited = true ∧ State.reset.serInited = false ∧ serGateOn State.reset = false ∧
    gated.serInited = false ∧ serGateOn gated = true ∧ gated.snap.apb2 = 16000000 ∧ baudSelect 16000000 62499 = none ∧
    baudSelect 16000000 62500 = some 8 := by decide

theorem witness_SerSendEffect : -- not initialised; gate off; one byte too many; an exact fit
    layoutOk (serial 0x60 0x2).cfg = true ∧ [9, 8, 7, 6].length = (4 : BitVec 16).toNat ∧ State.reset.serInited = false ∧
    serGateOn { State.reset with serInited := true } = false ∧ serGateOn (serial 0x60 0x2) = true ∧ (serial 0x60 0x2).serInited = true ∧
    (serial 0x60 0x2).txFifo.size ≤ (serial 0x60 0x2).txFifo.cap ∧ (serial 0x60 0x2).txFifo.size + 4 ≤ (serial 0x60 0x2).txFifo.cap ∧
    (serial 0x60 0x2).txFifo.cap < (serial 0x60 0x2).txFifo.size + 5 := by decide

theorem witness_SerRecvEffect :
    State.reset.serInited = false ∧ (serial 0x60 0x2).serInited = true ∧ (serial 0x60 0x2).rxFifo.q = [] ∧
    { serial 0x60 0x2 with rxFifo := ⟨2, [0x41, 0x42]⟩ }.rxFifo.q = 0x41 :: [0x42] := by decide

theorem witness_SerStatEffect : State.reset.txFifo.size ≤ 65535 ∧ State.reset.rxFifo.size ≤ 65535 := by decide

theorem witness_UndeliverableEvents : -- not pending; not initialised; gate off
    (serial 0x60 0x2).flag (causeFlag .overrun) = false ∧
    ((serial 0x60 0x42).flag (causeFlag .overrun) = true ∧ (serial 0x60 0x42).flag (causeEnable .overrun) = true ∧
      (serial 0x60 0x42).inHandler = false) ∧
    { serial 0x60 0x42 with serInited := false }.serInited = false ∧ serGateOn { serial 0x60 0x42 with rcc := State.reset.rcc } = false := by
  decide

theorem witness_IrqTxEmptyEffect :
    layoutOk (serial 0xE0 0x2).cfg = true ∧ Deliverable .txEmpty (serial 0xE0 0x2) ∧ (serial 0xE0 0x2).txFifo.q = [] ∧
    Deliverable .txEmpty { serial 0xE0 0x2 with txFifo := ⟨4, [7]⟩ } :=
  ⟨by decide, ⟨by decide, by decide, by decide, by decide, by decide⟩, by decide, ⟨by decide, by decide, by decide, by decide, by decide⟩⟩

/-- A buffer with room for one byte, and a full one. -/
theorem witness_IrqRxAvailableEffect :
    layoutOk (serial 0x60 0x3).cfg = true ∧ Deliverable .rxAvailable { serial 0x60 0x3 with rxFifo := ⟨2, [1]⟩ } ∧
    Deliverable .rxAvailable { serial 0x60 0x3 with rxFifo := ⟨2, [1, 2]⟩ } :=
  ⟨by decide, ⟨by decide, by decide, by decide, by decide, by decide⟩, ⟨by decide, by decide, by decide, by decide, by decide⟩⟩

theorem witness_IrqOverrunEffect : layoutOk (serial 0x60 0x43).cfg = true ∧ Deliverable .overrun (serial 0x60 0x43) :=
  ⟨by decide, ⟨by decide, by decide, by decide, by decide, by decide⟩⟩

theorem witness_IrqModeFaultEffect : layoutOk (serial 0x60 0x22).cfg = true ∧ Deliverable .modeFault (serial 0x60 0x22) :=
  ⟨by decide, ⟨by decide, by decide, by decide, by decide, by decide⟩⟩

theorem witness_IrqCrcErrorEffect : layoutOk (serial 0x60 0x12).cfg = true ∧ Deliverable .crcError (serial 0x60 0x12) :=
  ⟨by decide, ⟨by decide, by decide, by decide, by decide, by decide⟩⟩

theorem witness_OverrunOrderMatters :
    layoutOk (serial 0x60 0x43).cfg = true ∧ Deliverable .rxAvailable (serial 0x60 0x43) ∧ Deliverable .overrun (serial 0x60 0x43) ∧
    (serial 0x60 0x43).rxFifo.size < (serial 0x60 0x43).rxFifo.cap :=
  ⟨by decide, ⟨by decide, by decide, by decide, by decide, by decide⟩, ⟨by decide, by decide, by decide, by decide, by decide⟩, by decide⟩

theorem witness_LockStep : -- enabled; not enabled
    layoutOk locking.cfg = true ∧ (locking.field .pllon = 1 ∧ locking.field .pllrdy = 0 ∧ locking.cfg.hseReady = true) ∧
    locked.field .pllrdy ≠ 0 := by decide

theorem witness_SwitchStep : -- each source; settled; a source that does not run
    layoutOk switching.cfg = true ∧ (switching.field .sw ≠ switching.field .sws ∧ switching.field .sw = 2 ∧ switching.field .pllrdy = 1) ∧
    ((withCfgr 0x1).field .sw = 1 ∧ (withCfgr 0x1).field .sws = 0 ∧ (withCfgr 0x1).cfg.hseReady = true) ∧
    ((withCfgr 0x4).field .sw = 0 ∧ (withCfgr 0x4).field .sws = 1) ∧ running.field .sw = running.field .sws ∧
    (hung.field .sw = 1 ∧ hung.cfg.hseReady = false) := by decide

theorem witness_SerialHardwareSteps :
    layoutOk (serial 0 0).cfg = true ∧ State.reset.field .spe = 0 ∧ (serial 0 0).field .spe = 1 ∧ (serial 0 0).field .txe = 0 ∧
    (serial 0 0x2).field .txe = 1 ∧ (serial 0 0).field .rxne = 0 ∧ (serial 0 0x1).field .rxne = 1 := by decide

theorem witness_UnreadyOscillatorHangs : HungOnHse { hung with turns := [.app] } ∧ step { hung with turns := [.app] } = .next hung where
  left :=
    { stopped := rfl
      waiting := rfl
      target := rfl
      selected := by decide
      elsewhere := by decide }
  right := rfl

/-! Two fair runs: in each the hardware step and the application's poll come first; from then on every agent moves freely and, since
nothing is enabled, changes nothing. -/

/-- After P1 line 2: the PLL has locked and `CFG_PLL` has responded. -/
def settledHsi (n : Nat) : State := { locked with seq := .idle, op := none, resp := some ⟨.ok, 0⟩, draws := n }

def settledPll (n : Nat) : State := { running with draws := n }

def lockRun : Nat → State
  | 0 => { locking with turns := [.env .lock, .app] }
  | 1 => { locked with turns := [.app] }
  | k + 2 => settledHsi k

def switchRun : Nat → State
  | 0 => { switching with turns := [.env .switch, .app] }
  | 1 => { envStep .switch switching with turns := [.app] }
  | k + 2 => settledPll k

theorem event_stays (c : Cause) (s : State) (h : pending c s = false) : takeTurn (moveTurn (.irq c)) s = .next s := by
  cases c <;> exact if_pos (by simp [h])

theorem env_stays (e : EnvStep) (s : State) (h : envEnabled e s = false) : takeTurn (moveTurn (.env e)) s = .next s := by
  simp [moveTurn, takeTurn, envStep, h]

theorem switch_off (s : State) (h : s.field .sw = s.field .sws) : envEnabled .switch s = false := by simp [envEnabled, h]

theorem settledHsi_stays (n : Nat) (m : Move) : takeTurn (moveTurn m) (settledHsi n) = .next (settledHsi n) := by
  rcases m with _ | c | e
  · rfl
  · exact event_stays c _ (by cases c <;> (first | (show pending .txEmpty (settledHsi 0) = false; decide) |
      (show pending .rxAvailable (settledHsi 0) = false; decide) | (show pending .overrun (settledHsi 0) = false; decide) |
      (show pending .modeFault (settledHsi 0) = false; decide) | (show pending .crcError (settledHsi 0) = false; decide)))
  · refine env_stays e _ ?_
    cases e with
    | lock => show envEnabled .lock (settledHsi 0) = false; decide
    | switch => exact switch_off _ (show (settledHsi 0).field .sw = (settledHsi 0).field .sws by decide)
    | txDone => show envEnabled .txDone (settledHsi 0) = false; decide
    | rxByte b => show (settledHsi 0).flag .spe = false; decide
    | fault f => show (settledHsi 0).flag .spe = false; decide

theorem settledPll_stays (n : Nat) (m : Move) : takeTurn (moveTurn m) (settledPll n) = .next (settledPll n) := by
  rcases m with _ | c | e
  · rfl
  · exact event_stays c _ (by cases c <;> (first | (show pending .txEmpty (settledPll 0) = false; decide) |
      (show pending .rxAvailable (settledPll 0) = false; decide) | (show pending .overrun (settledPll 0) = false; decide) |
      (show pending .modeFault (settledPll 0) = false; decide) | (show pending .crcError (settledPll 0) = false; decide)))
  · refine env_stays e _ ?_
    cases e with
    | lock => show envEnabled .lock (settledPll 0) = false; decide
    | switch => exact switch_off _ (show (settledPll 0).field .sw = (settledPll 0).field .sws by decide)
    | txDone => show envEnabled .txDone (settledPll 0) = false; decide
    | rxByte b => show (settledPll 0).flag .spe = false; decide
    | fault f => show (settledPll 0).flag .spe = false; decide

theorem lockRun_isRun : IsRun lockRun
  | 0 => rfl
  | 1 => rfl
  | k + 2 => (if_pos (show configOk defaultConfig = true by decide)).trans (settledHsi_stays (k + 1) (Config.freeMove k))

theorem switchRun_isRun : IsRun switchRun
  | 0 => rfl
  | 1 => rfl
  | k + 2 => (if_pos (show configOk defaultConfig = true by decide)).trans (settledPll_stays (k + 1) (Config.freeMove k))

/-- A condition that is false from the third state on cannot stay true, so fairness to it holds. -/
theorem fair_of_settled (r : Nat → State) (enabled : State → Prop) (t : Turn) (h : ∀ k, ¬ enabled (r (k + 2))) : Fair r enabled t :=
  fun k stays => absurd (stays (k + 2) (by omega)) (h k)

theorem witness_CfgPllCompletesFairly :
    IsRun lockRun ∧ ALock lockRun ∧ AApp lockRun ∧ ClockInv (lockRun 0) ∧ (lockRun 0).seq = .pllWait ∧ (lockRun 0).cfg.hseReady = true :=
  ⟨lockRun_isRun, fair_of_settled _ _ _ fun _ (h : envEnabled .lock (settledHsi 0) = true) => absurd h (by decide),
    fair_of_settled _ _ _ fun _ h => h rfl,
    { pllOff := by decide
      settled := by decide
      layout := by decide
      legalSw := by decide
      legalSws := by decide
      swReady := by decide
      swsReady := by decide
      configured := fun _ => ⟨7, by decide⟩
      locking := by decide
      latch := trivial
      fresh := nofun
      ahbLe := by decide
      apb1Le := by decide
      apb2Le := by decide }, rfl, rfl⟩

theorem witness_SetSysclkCompletesFairly :
    IsRun switchRun ∧ ASwitch switchRun ∧ AApp switchRun ∧ ClockInv (switchRun 0) ∧ (switchRun 0).seq = .swWait ∧
    ((switchRun 0).field .sw = 1 → (switchRun 0).cfg.hseReady = true) :=
  ⟨switchRun_isRun, fair_of_settled _ _ _ fun k h =>
      Bool.noConfusion (h.symm.trans (switch_off (settledPll k) (show (settledPll 0).field .sw = (settledPll 0).field .sws by decide))),
    fair_of_settled _ _ _ fun _ h => h rfl,
    { pllOff := by decide
      settled := by decide
      layout := by decide
      legalSw := by decide
      legalSws := by decide
      swReady := by decide
      swsReady := by decide
      configured := fun _ => ⟨7, by decide⟩
      locking := by decide
      latch := show _ = _ by decide
      fresh := nofun
      ahbLe := by decide
      apb1Le := by decide
      apb2Le := by decide }, rfl, by decide⟩

end Sys2Proof.Tests
end

section
/-! PROOF. The step itself (00_scope R8, R14): what one step is for legal parameters with the application's turn next, and for
parameters that break their constraints. -/
namespace Sys2Proof.Machine

/-- With the application's turn next and the sequencer idle, a step of a machine with legal parameters accepts a command (R90, R140). -/
theorem step_app_idle (s : State) (later : List Turn) (hc : configOk s.cfg = true) (ht : s.turns = .app :: later)
    (hq : s.seq = .idle) : step s = acceptCommand { s with turns := later } := by
  rw [step_placed s .app later hc ht]
  simp only [takeTurn, appStep, hq]

/-- Accepting a command that decodes runs its first step, with its words taken from the command port. -/
theorem acceptCommand_ok (s : State) (i : Instr) (rest : List CmdWord) (hd : decode s.cmdIn = .ok i rest) :
    acceptCommand s = exec i { s with cmdIn := rest } := by
  simp only [acceptCommand, hd]

/-- No turn of a machine with illegal parameters is taken, whichever agent's it is (entry 11). -/
theorem checkedTurn_illFormed (t : Turn) (s : State) (hc : configOk s.cfg = false) :
    checkedTurn t s = .refused .illFormedParameters := by
  simp [checkedTurn, hc]

/-- Settles O6: the step accepts a command, and acceptance runs the command the offered words decode to. -/
theorem stepRunsDecodedCommand : Obligations.StepRunsDecodedCommand := by
  intro s later i rest hc ht hq hd
  rw [step_app_idle s later hc ht hq]
  exact acceptCommand_ok { s with turns := later } i rest hd

/-- Settles O10: whether the next turn is placed or drawn, the parameters are checked before it is taken, and choosing the turn
leaves them as they are. -/
theorem illFormedParametersRefused : Obligations.IllFormedParametersRefused := by
  intro s hc
  rw [step, runTurn]
  split
  case h_1 t later _ => exact checkedTurn_illFormed t { s with turns := later } hc
  case h_2 => exact checkedTurn_illFormed _ { s with draws := s.draws + 1 } hc

end Sys2Proof.Machine
end

section
/-! PROOF. What one turn and each instruction's meaning can do: an inversion lemma per operation that can stop, and for every sequence
of register accesses the parts of the state it can change. -/
namespace Sys2Proof.Machine

open Sys2Proof.Safety

/-! Turns (R6, R24). -/

/-- What a completed turn was, from the state it met to the state it left. -/
inductive TurnTaken (s t : State) : Turn → Prop where
  | noCommand (hq : s.seq = .idle) (ht : t = s) : TurnTaken s t .app
  | illegal (why : Illegal) (rest : List CmdWord) (hq : s.seq = .idle) (hd : decode s.cmdIn = .illegal why rest)
      (ht : t = raise .illegalCommand { s with cmdIn := rest }) : TurnTaken s t .app
  | command (i : Instr) (rest : List CmdWord) (hq : s.seq = .idle) (hd : decode s.cmdIn = .ok i rest)
      (ht : exec i { s with cmdIn := rest } = .next t) : TurnTaken s t .app
  | pllPoll (hq : s.seq = .pllWait) (ht : cfgPllWait s = .next t) : TurnTaken s t .app
  | swPoll (hq : s.seq = .swWait) (ht : setSysclkWait s = .next t) : TurnTaken s t .app
  | event (c : Cause) (ht : exec c.instr s = .next t) : TurnTaken s t (.event c.code)
  | env (e : EnvStep) (ht : t = envStep e s) : TurnTaken s t (.env e)

theorem takeTurn_next (u : Turn) (s t : State) (h : takeTurn u s = .next t) : TurnTaken s t u := by
  cases u with
  | app =>
    simp only [takeTurn, appStep] at h
    split at h
    case h_1 hq =>
      unfold acceptCommand at h
      split at h
      case h_1 =>
        cases h
        exact .noCommand hq rfl
      case h_2 why rest hd =>
        cases h
        exact .illegal why rest hq hd rfl
      case h_3 i rest hd => exact .command i rest hq hd h
    case h_2 hq => exact .pllPoll hq h
    case h_3 hq => exact .swPoll hq h
  | event code =>
    simp only [takeTurn, eventStep] at h
    split at h
    case h_1 c hcode =>
      rw [← Cause.code_of_ofCode code c hcode]
      exact .event c h
    case h_2 => cases h
  | env e =>
    cases h
    exact .env e rfl

/-- A completed step is a turn of an accepted machine, taken in the same state but for the placed turns and the draw counter. -/
theorem step_taken (s t : State) (h : step s = .next t) :
    configOk s.cfg = true ∧ ∃ turns draws, TurnTaken { s with turns := turns, draws := draws } t (turnAt s) := by
  obtain ⟨hc, turns, draws, ht⟩ := step_next s t h
  exact ⟨hc, turns, draws, takeTurn_next _ _ _ ht⟩

/-- A poll of `CFG_PLL` leaves everything as it is, or ends the command with the PLL ready (R151). -/
theorem cfgPllWait_next (s t : State) (h : cfgPllWait s = .next t) :
    t = s ∨ (s.flag .pllrdy = true ∧ saveAndRespond s = .next t) := by
  rw [cfgPllWait, tstbF_eq_flag] at h
  split at h
  case isTrue hr => exact .inr ⟨hr, h⟩
  case isFalse =>
    cases h
    exact .inl rfl

/-- A poll of `SET_SYSCLK` leaves everything as it is, or ends the command with the target active (R153). -/
theorem setSysclkWait_next (s t : State) (h : setSysclkWait s = .next t) :
    t = s ∨ (some (s.field .sws) = opTarget s ∧ saveAndRespond s = .next t) := by
  rw [setSysclkWait, rdfF_eq_field] at h
  split at h
  case isTrue hr => exact .inr ⟨hr, h⟩
  case isFalse =>
    cases h
    exact .inl rfl

/-- Of `SAVE_CLK; respond(OK, 0)` only the frame: the snapshot, the draw counter and the command's completion (R141). -/
theorem saveAndRespond_frame (s t : State) (h : saveAndRespond s = .next t) :
    ∃ snap draws, t = respond .ok 0 { s with snap := snap, draws := draws } := by
  obtain ⟨_, snap, draws, _, ht, _⟩ := saveAndRespond_next s t h
  exact ⟨snap, draws, ht⟩

/-! Kinds of instructions (R5). -/

/-- The eight commands of the Clock-Tree Engine. -/
def clockCommand : Instr → Bool
  | .cfgPll .. | .setSysclk _ | .cfgAhb _ | .cfgApb1 _ | .cfgApb2 _ | .setAhbClk .. | .setApbClk .. | .getClk _ => true
  | .serInit _ | .serSend .. | .serRecv | .serStat _ | .irqTxEmpty | .irqRxAvailable | .irqOverrun | .irqModeFault | .irqCrcError => false

/-- Every instruction is a clock command, one of the four serial commands, or the event of a cause. -/
inductive InstrKind : Instr → Prop where
  | clock (i : Instr) (hi : clockCommand i = true) : InstrKind i
  | serInit (target : Word) : InstrKind (.serInit target)
  | serSend (size : BitVec 16) (data : List Byte) : InstrKind (.serSend size data)
  | serRecv : InstrKind .serRecv
  | serStat (sel : StatSel) : InstrKind (.serStat sel)
  | event (c : Cause) : InstrKind c.instr

theorem instrKind (i : Instr) : InstrKind i := by
  cases i with
  | serInit target => exact .serInit target
  | serSend size data => exact .serSend size data
  | serRecv => exact .serRecv
  | serStat sel => exact .serStat sel
  | irqTxEmpty => exact .event .txEmpty
  | irqRxAvailable => exact .event .rxAvailable
  | irqOverrun => exact .event .overrun
  | irqModeFault => exact .event .modeFault
  | irqCrcError => exact .event .crcError
  | cfgPll | setSysclk | cfgAhb | cfgApb1 | cfgApb2 | setAhbClk | setApbClk | getClk => exact .clock _ rfl

/-- The five instructions that the event port stands for. -/
def isEvent : Instr → Bool
  | .irqTxEmpty | .irqRxAvailable | .irqOverrun | .irqModeFault | .irqCrcError => true
  | .cfgPll .. | .setSysclk _ | .cfgAhb _ | .cfgApb1 _ | .cfgApb2 _ | .setAhbClk .. | .setApbClk .. | .getClk _
  | .serInit _ | .serSend .. | .serRecv | .serStat _ => false

@[simp] theorem isEvent_instr (c : Cause) : isEvent c.instr = true := by cases c <;> rfl

theorem checked_ok (cw mbz : CmdWord) (operands : Option Instr) (i : Instr) (h : checked cw mbz operands = .ok i) : operands = some i := by
  unfold checked at h
  split at h
  · cases h
  · split at h <;> cases h
    rfl

/-- No operand makes a one-word command an event (R92, R99). -/
theorem decodeHead_not_event (cw : CmdWord) (i : Instr) (h : decodeHead cw = .ok i) : isEvent i = false := by
  have command {mbz : CmdWord} {operands : Option Instr} (hi : checked cw mbz operands = .ok i)
      (ho : ∀ j, operands = some j → isEvent j = false) : isEvent i = false := ho i (checked_ok _ _ _ _ hi)
  unfold decodeHead at h
  split at h
  case h_12 => cases h
  all_goals exact command h (by simp [isEvent])

theorem decodeSend_not_event (cw : CmdWord) (payload : List CmdWord) (i : Instr) (h : decodeSend cw payload = .ok i) :
    isEvent i = false := by
  simp only [decodeSend] at h
  split at h
  · cases h
  · split at h <;> cases h
    rfl

theorem withRest_ok (r : Except Illegal Instr) (ws rest : List CmdWord) (i : Instr) (h : withRest r ws = .ok i rest) : r = .ok i := by
  cases r <;> cases h
  rfl

/-- The command port never delivers an event (R90, R99). -/
theorem decode_not_event (ws : List CmdWord) (i : Instr) (rest : List CmdWord) (h : decode ws = .ok i rest) : isEvent i = false := by
  cases ws with
  | nil => cases h
  | cons cw ws =>
    simp only [decode] at h
    split at h
    · split at h
      · cases h
      · exact decodeSend_not_event _ _ i (withRest_ok _ _ _ _ h)
    · exact decodeHead_not_event cw i (withRest_ok _ _ _ _ h)

end Sys2Proof.Machine
end

section
/-! PROOF. Frames: the parts of the state that register sequences, clock commands, handler rules and hardware steps can change. -/
namespace Sys2Proof.Machine

open Sys2Proof.Safety

/-! The two register blocks. -/

/-- Nothing but the clock block's words may differ. -/
def OnlyRcc (s t : State) : Prop := ∃ rcc, t = { s with rcc := rcc }

/-- Nothing but the serial block may differ. -/
def OnlySer (s t : State) : Prop := ∃ ser, t = { s with ser := ser }

theorem OnlyRcc.refl (s : State) : OnlyRcc s s := ⟨s.rcc, rfl⟩

theorem OnlySer.refl (s : State) : OnlySer s s := ⟨s.ser, rfl⟩

theorem OnlyRcc.wrf {s t : State} (h : OnlyRcc s t) (hc : configOk s.cfg = true) (d : Desc) (v : Word) (hd : regOfSer d.reg = false) :
    OnlyRcc s (wrf d v t) := by
  obtain ⟨rcc, rfl⟩ := h
  exact ⟨_, wrf_eq_of_rcc d v _ hc hd⟩

theorem OnlyRcc.wrfF {s t : State} (h : OnlyRcc s t) (hc : configOk s.cfg = true) (f : Field) (v : Word)
    (hf : regOfSer (fieldReg f) = false) : OnlyRcc s (wrfF f v t) := by
  obtain ⟨rcc, rfl⟩ := h
  exact ⟨_, wrfF_eq_of_rcc f v _ hc hf⟩

theorem OnlySer.wrfF {s t : State} (h : OnlySer s t) (hc : configOk s.cfg = true) (f : Field) (v : Word)
    (hf : regOfSer (fieldReg f) = true) : OnlySer s (wrfF f v t) := by
  obtain ⟨ser, rfl⟩ := h
  exact ⟨_, wrfF_eq_of_ser f v _ hc hf⟩

theorem OnlySer.hwSet {s t : State} (h : OnlySer s t) (hc : configOk s.cfg = true) (f : Field) (v : Word)
    (hf : regOfSer (fieldReg f) = true) : OnlySer s (t.hwSet f v) := by
  obtain ⟨ser, rfl⟩ := h
  exact ⟨_, hwSet_eq_of_ser f v _ hc hf⟩

/-- A bus read changes at most `RXNE` (R67). -/
theorem OnlySer.regRead {s t : State} (h : OnlySer s t) (hc : configOk s.cfg = true) (r : Reg) : OnlySer s (regRead r t).2 := by
  by_cases hr : r = .serDr
  · subst hr
    exact h.hwSet hc .rxne 0 rfl
  · rwa [regRead_of_ne r t hr]

theorem OnlySer.regWrite {s t : State} (h : OnlySer s t) (hc : configOk s.cfg = true) (r : Reg) (v : Word) (hr : regOfSer r = true)
    (hd : r ≠ .serDr) : OnlySer s (regWrite r v t) := by
  obtain ⟨ser, rfl⟩ := h
  exact ⟨_, regWrite_eq_of_ser r v _ hc hr hd⟩

/-! Clock commands. -/

/-- A valid `CFG_PLL` writes clock registers and `x[7]`, nothing else (R150). -/
theorem startPll_eq (src : PllSrc) (osc : Word) (m : BitVec 6) (n : BitVec 9) (p : PllP) (q : BitVec 4) (s : State)
    (hc : configOk s.cfg = true) : ∃ rcc, startPll src osc m n p q s = { s with rcc := rcc, pllOscHz := osc } := by
  have stopped : OnlyRcc s (if tstbF .pllon s then wrfF .pllon 0 s else s) := by
    split
    · exact (OnlyRcc.refl s).wrfF hc .pllon 0 rfl
    · exact .refl s
  obtain ⟨rcc, hr⟩ := ((((stopped.wrfF hc .pllm (m.setWidth 32) rfl).wrfF hc .plln (n.setWidth 32) rfl).wrfF hc .pllp (pllPWord p) rfl).wrfF
    hc .pllq (q.setWidth 32) rfl).wrfF hc .pllsrc (pllSrcWord src) rfl
  rw [startPll]
  simp only [hr]
  exact (OnlyRcc.refl { s with rcc := rcc, pllOscHz := osc }).wrfF hc .pllon 1 rfl

/-- What a clock command or its poll may change: the clock's side of the state, the sequencer, the response and the draw counter (R140). -/
def ClockFrame (s t : State) : Prop :=
  ∃ snap osc rcc seq op resp draws,
    t = { s with snap := snap, pllOscHz := osc, rcc := rcc, seq := seq, op := op, resp := resp, draws := draws }

theorem ClockFrame.of_onlyRcc {s t : State} (h : OnlyRcc s t) : ClockFrame s t := by
  obtain ⟨rcc, rfl⟩ := h
  exact ⟨_, _, rcc, _, _, _, _, rfl⟩

theorem saveAndRespond_clockFrame {s u t : State} (hu : OnlyRcc s u) (h : saveAndRespond u = .next t) : ClockFrame s t := by
  obtain ⟨rcc, rfl⟩ := hu
  obtain ⟨snap, draws, rfl⟩ := saveAndRespond_frame _ t h
  exact ⟨snap, _, rcc, _, _, _, draws, rfl⟩

theorem ahbGateReg_block (bank : AhbBank) : regOfSer (ahbGateReg bank) = false := by cases bank <;> rfl

theorem apbGateReg_block (bank : ApbBank) : regOfSer (apbGateReg bank) = false := by cases bank <;> rfl

/-- `CFG_PLL`, first step: an error response, or the registers written and the command latched (R150, R281). -/
theorem execCfgPll_next (src : PllSrc) (osc : Word) (m : BitVec 6) (n : BitVec 9) (p : PllP) (q : BitVec 4) (s t : State)
    (h : execCfgPll src osc m n p q s = .next t) :
    t = raise .configError s ∨
    (s.field .sw ≠ 2 ∧ s.field .sws ≠ 2 ∧ pllValid s.cfg osc.toNat m.toNat n.toNat q.toNat = true ∧
      t = latch (.cfgPll src osc m n p q) .pllWait (startPll src osc m n p q s)) := by
  unfold execCfgPll at h
  split at h
  case isTrue => cases h
  case isFalse hu =>
    simp only [pllInUse, rdfF_eq_field, Bool.or_eq_true, beq_iff_eq, not_or] at hu
    split at h
    case isTrue hv =>
      cases h
      exact .inr ⟨hu.1, hu.2, hv, rfl⟩
    case isFalse =>
      cases h
      exact .inl rfl

/-- `SET_SYSCLK`, first step: `SW` written and the command latched, with a PLL as the target ready (R152). -/
theorem execSetSysclk_next (src : ClkSrc) (s t : State) (h : execSetSysclk src s = .next t) :
    (src = .pll → s.flag .pllrdy = true) ∧ t = latch (.setSysclk src) .swWait (wrfF .sw (srcWord src) s) := by
  unfold execSetSysclk at h
  split at h
  case isTrue => cases h
  case isFalse hr =>
    cases h
    refine ⟨fun hs => ?_, rfl⟩
    simpa [hs, tstbF_eq_flag] using hr

theorem clockCommand_frame (i : Instr) (s t : State) (hc : configOk s.cfg = true) (hi : clockCommand i = true)
    (h : exec i s = .next t) : ClockFrame s t := by
  cases i with
  | cfgPll src osc m n p q =>
    rcases execCfgPll_next src osc m n p q s t h with rfl | ⟨-, -, -, rfl⟩
    · exact ⟨_, _, _, _, _, _, _, rfl⟩
    · obtain ⟨rcc, hr⟩ := startPll_eq src osc m n p q s hc
      rw [hr]
      exact ⟨_, osc, rcc, _, _, _, _, rfl⟩
  | setSysclk src =>
    obtain ⟨-, rfl⟩ := execSetSysclk_next src s t h
    obtain ⟨rcc, hr⟩ := (OnlyRcc.refl s).wrfF hc .sw (srcWord src) rfl
    rw [hr]
    exact ⟨_, _, rcc, _, _, _, _, rfl⟩
  | cfgAhb pre => exact saveAndRespond_clockFrame ((OnlyRcc.refl s).wrfF hc .hpre (ahbPreWord pre) rfl) h
  | cfgApb1 pre => exact saveAndRespond_clockFrame ((OnlyRcc.refl s).wrfF hc .ppre1 (apbPreWord pre) rfl) h
  | cfgApb2 pre => exact saveAndRespond_clockFrame ((OnlyRcc.refl s).wrfF hc .ppre2 (apbPreWord pre) rfl) h
  | setAhbClk bank bit en =>
    cases h
    obtain ⟨rcc, hr⟩ := (OnlyRcc.refl s).wrf hc (ahbGate bank bit) (bitValue en) (ahbGateReg_block bank)
    rw [hr]
    exact ⟨_, _, rcc, _, _, _, _, rfl⟩
  | setApbClk bank bit en =>
    cases h
    obtain ⟨rcc, hr⟩ := (OnlyRcc.refl s).wrf hc (apbGate bank bit) (bitValue en) (apbGateReg_block bank)
    rw [hr]
    exact ⟨_, _, rcc, _, _, _, _, rfl⟩
  | getClk which =>
    cases h
    exact ⟨_, _, _, _, _, _, _, rfl⟩
  | serInit | serSend | serRecv | serStat | irqTxEmpty | irqRxAvailable | irqOverrun | irqModeFault | irqCrcError => cases hi

theorem cfgPllWait_frame (s t : State) (h : cfgPllWait s = .next t) : ClockFrame s t := by
  rcases cfgPllWait_next s t h with rfl | ⟨-, h⟩
  · exact .of_onlyRcc (.refl t)
  · exact saveAndRespond_clockFrame (.refl s) h

theorem setSysclkWait_frame (s t : State) (h : setSysclkWait s = .next t) : ClockFrame s t := by
  rcases setSysclkWait_next s t h with rfl | ⟨-, h⟩
  · exact .of_onlyRcc (.refl t)
  · exact saveAndRespond_clockFrame (.refl s) h

/-! Serial commands. -/

/-- The writes of a successful `SER_INIT` stay in the serial block (R182). -/
theorem startSerial_eq (k : Nat) (s : State) (hc : configOk s.cfg = true) :
    ∃ ser, startSerial k s = { s with ser := ser, serInited := true, serState := .idle } := by
  obtain ⟨ser, hr⟩ := ((((OnlySer.refl s).wrfF hc .br (BitVec.ofNat 32 (k - 1)) rfl).wrfF hc .rxneie 1 rfl).wrfF hc .errie 1 rfl).wrfF
    hc .spe 1 rfl
  exact ⟨ser, congrArg (fun u : State => { u with serInited := true, serState := .idle }) hr⟩

/-- Enqueueing changes the send buffer, the serial block and `ser_state` (R183). -/
theorem enqueue_eq (data : List Byte) (s : State) (hc : configOk s.cfg = true) :
    ∃ ser, enqueue data s = { s with ser := ser, txFifo := s.txFifo.pushAll data, serState := .transmitting } := by
  obtain ⟨ser, hr⟩ := (OnlySer.refl { s with txFifo := s.txFifo.pushAll data }).wrfF hc .txeie 1 rfl
  exact ⟨ser, congrArg (setSerState .transmitting) hr⟩

/-- `SER_INIT` completes before a success only: with an error response, or with the engine started (R182, R241). -/
theorem execSerInit_next (target : Word) (s t : State) (h : execSerInit target s = .next t) :
    s.serInited = false ∧ (t = raise .configError s ∨ ∃ k, t = respond .ok 0 (startSerial k s)) := by
  unfold execSerInit at h
  split at h
  case isTrue => cases h
  case isFalse hi =>
    refine ⟨by simpa using hi, ?_⟩
    split at h
    case isTrue => cases h
    case isFalse =>
      split at h
      case h_1 =>
        cases h
        exact .inl rfl
      case h_2 k _ =>
        cases h
        exact .inr ⟨k, rfl⟩

/-- `SER_SEND` completes after a successful `SER_INIT` only: with an error response, or with all its bytes enqueued (R183, R242). -/
theorem execSerSend_next (size : BitVec 16) (data : List Byte) (s t : State) (h : execSerSend size data s = .next t) :
    s.serInited = true ∧ (t = raise .bufferFull s ∨ t = respond .ok 0 (enqueue data s)) := by
  unfold execSerSend at h
  split at h
  case isTrue => cases h
  case isFalse hi =>
    refine ⟨by simpa using hi, ?_⟩
    split at h
    case isTrue => cases h
    case isFalse =>
      split at h
      · cases h
        exact .inl rfl
      · cases h
        exact .inr rfl

/-- `SER_RECV`: an error response, or the head of the receive buffer taken and reported (R184, R243). -/
theorem execSerRecv_next (s t : State) (h : execSerRecv s = .next t) :
    t = raise .bufferEmpty s ∨
    ∃ b rest, s.rxFifo.q = b :: rest ∧ t = respond .ok (b.setWidth 32) { s with rxFifo := { s.rxFifo with q := rest } } := by
  unfold execSerRecv Fifo.pop at h
  split at h
  case isTrue => cases h
  case isFalse =>
    cases hq : s.rxFifo.q with
    | nil =>
      rw [hq] at h
      cases h
      exact .inl rfl
    | cons b rest =>
      rw [hq] at h
      cases h
      exact .inr ⟨b, rest, rfl, rfl⟩

/-- `SER_STAT` responds, and at most draws a value (R185). -/
theorem execSerStat_eq (sel : StatSel) (s : State) :
    ∃ v draws, execSerStat sel s = .next (respond .ok v { s with draws := draws }) :=
  ⟨_, _, congrArg (fun u => Host.Outcome.next (respond .ok _ u)) (zext32_snd (statValue sel s) s)⟩

/-! Events. -/

/-- The handler rule of each cause (R191 to R195). -/
def handlerRule : Cause → State → State
  | .txEmpty => handleTxEmpty
  | .rxAvailable => handleRxAvailable
  | .overrun => handleOverrun
  | .modeFault => handleModeFault
  | .crcError => handleCrcError

/-- The event of a cause takes an interrupt with that cause's rule (R190). -/
theorem exec_event (c : Cause) (s : State) : exec c.instr s = takeInterrupt c (handlerRule c) s := by cases c <;> rfl

/-- An event makes no move, or the pending cause's rule runs between entry and return. -/
theorem event_next (c : Cause) (s t : State) (h : exec c.instr s = .next t) :
    t = s ∨ (s.inHandler = false ∧ pending c s = true ∧ s.serInited = true ∧ serGateOn s = true ∧
      t = leaveHandler (handlerRule c (enterHandler s))) :=
  takeInterrupt_next c (handlerRule c) s t (exec_event c s ▸ h)

/-- What a handler may change: the serial engine, without `ser_inited`, and the two counters (R255, R259). -/
def HandlerFrame (s t : State) : Prop :=
  ∃ ser tx rx st wire faults overruns,
    t = { s with ser := ser, txFifo := tx, rxFifo := rx, serState := st, txWire := wire, faultCount := faults, overrunCount := overruns }

/-- The next byte goes to the data register and the wire (R68 b). -/
theorem regWrite_serDr_eq (v : Word) (s : State) (hc : configOk s.cfg = true) :
    ∃ ser, regWrite .serDr v s = { s with ser := ser, txWire := s.txWire ++ [v.setWidth 8] } :=
  ⟨_, hwSet_eq_of_ser .txe 0 { s with ser := { s.ser with drTx := v.setWidth 8 }, txWire := s.txWire ++ [v.setWidth 8] } hc rfl⟩

theorem onlySer_clearOverrun (s : State) (hc : configOk s.cfg = true) : OnlySer s (clearOverrun s) :=
  (((OnlySer.refl s).regRead hc .serDr).regRead hc .serSr).hwSet hc .ovr 0 rfl

theorem onlySer_clearModeFault (s : State) (hc : configOk s.cfg = true) : OnlySer s (clearModeFault s) :=
  ((((OnlySer.refl s).regRead hc .serSr).regRead hc .serCr1).regWrite hc .serCr1 _ rfl (by decide)).hwSet hc .modf 0 rfl

/-- The three fault handlers end alike: clear the flag, count, go idle (R193 to R195). -/
theorem faultHandler_frame (clear : State → State) (s : State) (h : OnlySer (setSerState .error s) (clear (setSerState .error s))) :
    HandlerFrame s (setSerState .idle (countFault (clear (setSerState .error s)))) := by
  obtain ⟨ser, hr⟩ := h
  rw [hr]
  exact ⟨ser, _, _, _, _, _, _, rfl⟩

theorem handlerRule_frame (c : Cause) (s : State) (hc : configOk s.cfg = true) : HandlerFrame s (handlerRule c s) := by
  cases c with
  | txEmpty =>
    simp only [handlerRule, handleTxEmpty]
    split
    · obtain ⟨ser, hr⟩ := (OnlySer.refl s).wrfF hc .txeie 0 rfl
      rw [hr]
      exact ⟨ser, _, _, _, _, _, _, rfl⟩
    · rename_i b rest _
      obtain ⟨ser, hr⟩ := regWrite_serDr_eq (b.setWidth 32) { s with txFifo := rest } hc
      rw [hr]
      exact ⟨ser, rest, _, _, _, _, _, rfl⟩
  | rxAvailable =>
    obtain ⟨ser, hr⟩ := (OnlySer.refl (setSerState .receiving s)).regRead hc .serDr
    simp only [handlerRule, handleRxAvailable, hr]
    split
    · exact ⟨ser, _, _, _, _, _, _, rfl⟩
    · exact ⟨ser, _, _, _, _, _, _, rfl⟩
  | overrun => exact faultHandler_frame clearOverrun s (onlySer_clearOverrun _ hc)
  | modeFault => exact faultHandler_frame clearModeFault s (onlySer_clearModeFault _ hc)
  | crcError => exact faultHandler_frame (wrfF .crcerr 0) s ((OnlySer.refl (setSerState .error s)).wrfF hc .crcerr 0 rfl)

/-- An event is a handler step as a whole: `in_handler` is as before when it returns (R256). -/
theorem event_frame (c : Cause) (s t : State) (hc : configOk s.cfg = true) (h : exec c.instr s = .next t) : HandlerFrame s t := by
  rcases event_next c s t h with rfl | ⟨hm, -, -, -, rfl⟩
  · exact ⟨_, _, _, _, _, _, _, rfl⟩
  · obtain ⟨ser, tx, rx, st, wire, faults, overruns, hr⟩ := handlerRule_frame c (enterHandler s) hc
    rw [hr]
    refine ⟨ser, tx, rx, st, wire, faults, overruns, ?_⟩
    rw [hm]
    rfl

/-! Hardware steps. -/

/-- A hardware step changes the register blocks only (R220, R224). -/
theorem envStep_eq (e : EnvStep) (s : State) : ∃ rcc ser, envStep e s = { s with rcc := rcc, ser := ser } := by
  have set (u : State) (f : Field) (v : Word) : ∃ rcc ser, u.hwSet f v = { u with rcc := rcc, ser := ser } := ⟨_, _, setWord_eq u _ _⟩
  unfold envStep
  split
  case isFalse => exact ⟨_, _, rfl⟩
  case isTrue =>
    cases e with
    | lock => exact set s .pllrdy 1
    | switch => exact set s .sws _
    | txDone => exact set s .txe 1
    | rxByte b =>
      simp only [envEffect]
      split
      · exact set { s with ser := { s.ser with drRx := b } } .rxne 1
      · exact set s .ovr 1
    | fault f => exact set s (lineFaultField f) 1

end Sys2Proof.Machine
end

section
/-! PROOF. Statements about every step that the inversion and frame lemmas give at once: one command at a time (R25), initialisation
(R46), the counters (R47); and the bounded buffer (R41, R42). -/
namespace Sys2Proof.Machine

open Sys2Proof.Safety

/-- Settles O18: the two answers of a push and of a pop, each with its condition. -/
theorem bufferContract : Obligations.BufferContract := by
  intro b v hb
  refine ⟨fun hfull => push_eq_none b v (by omega), fun hroom => push_eq_some b v (by omega), fun hempty => ?_, fun first later hq => ?_⟩
  · simp [Fifo.pop, List.length_eq_zero_iff.1 hempty]
  · simp [Fifo.pop, hq]

/-! One command at a time. -/

/-- What the application sees of a command that goes on waiting: the offered words, the sequencer, the latch and the response. -/
def StillWaiting (s t : State) : Prop := t.cmdIn = s.cmdIn ∧ t.seq = s.seq ∧ t.op = s.op ∧ t.resp = s.resp

theorem event_stillWaiting (c : Cause) (s t : State) (hc : configOk s.cfg = true) (h : exec c.instr s = .next t) : StillWaiting s t := by
  obtain ⟨_, _, _, _, _, _, _, rfl⟩ := event_frame c s t hc h
  exact ⟨rfl, rfl, rfl, rfl⟩

theorem envStep_stillWaiting (e : EnvStep) (s : State) : StillWaiting s (envStep e s) := by
  obtain ⟨_, _, he⟩ := envStep_eq e s
  rw [he]
  exact ⟨rfl, rfl, rfl, rfl⟩

/-- A poll that completes gives `OK` with value 0 and takes no word (R12, R25). -/
theorem saveAndRespond_completes (s t : State) (h : saveAndRespond s = .next t) :
    t.cmdIn = s.cmdIn ∧ t.seq = .idle ∧ t.op = none ∧ t.resp = some ⟨.ok, 0⟩ := by
  obtain ⟨_, _, rfl⟩ := saveAndRespond_frame s t h
  exact ⟨rfl, rfl, rfl, rfl⟩

/-- From a wait state a turn is a poll, an event or a hardware step, and only a poll can complete the command. -/
theorem turn_waits (s t : State) (u : Turn) (h : TurnTaken s t u) (hc : configOk s.cfg = true) (hw : s.seq ≠ .idle) :
    StillWaiting s t ∨ (u = .app ∧ t.cmdIn = s.cmdIn ∧ t.seq = .idle ∧ t.op = none ∧ t.resp = some ⟨.ok, 0⟩) := by
  cases h with
  | noCommand hq | illegal _ _ hq | command _ _ hq => exact absurd hq hw
  | pllPoll _ ht =>
    rcases cfgPllWait_next s t ht with rfl | ⟨-, ht⟩
    · exact .inl ⟨rfl, rfl, rfl, rfl⟩
    · exact .inr ⟨rfl, saveAndRespond_completes s t ht⟩
  | swPoll _ ht =>
    rcases setSysclkWait_next s t ht with rfl | ⟨-, ht⟩
    · exact .inl ⟨rfl, rfl, rfl, rfl⟩
    · exact .inr ⟨rfl, saveAndRespond_completes s t ht⟩
  | event c ht => exact .inl (event_stillWaiting c s t hc ht)
  | env e ht => exact .inl (ht ▸ envStep_stillWaiting e s)

/-- Settles O25: the turn a step takes waits or completes, and the placed turns and the draw counter are no part of either. -/
theorem oneCommandAtATime : Obligations.OneCommandAtATime := by
  intro s t h hw
  obtain ⟨hc, _, _, ht⟩ := step_taken s t h
  rcases turn_waits _ t _ ht hc hw with ⟨hcmd, hkept⟩ | ⟨hu, hcmd, hdone⟩
  · exact ⟨hcmd, .inl hkept⟩
  · exact ⟨hcmd, .inr ⟨hu, hdone⟩⟩

/-! Initialisation. -/

/-- No instruction but a `SER_INIT` that responds `OK` changes `ser_inited` (R46). -/
theorem exec_serInited (i : Instr) (s t : State) (hc : configOk s.cfg = true) (h : exec i s = .next t) :
    t.serInited = s.serInited ∨
    (s.serInited = false ∧ t.serInited = true ∧ ∃ target, i = .serInit target ∧ t.resp = some ⟨.ok, 0⟩) := by
  cases instrKind i with
  | clock _ hi =>
    obtain ⟨_, _, _, _, _, _, _, rfl⟩ := clockCommand_frame i s t hc hi h
    exact .inl rfl
  | serInit target =>
    obtain ⟨hs, rfl | ⟨k, rfl⟩⟩ := execSerInit_next target s t h
    · exact .inl rfl
    · exact .inr ⟨hs, rfl, target, rfl, rfl⟩
  | serSend size data =>
    obtain ⟨-, rfl | rfl⟩ := execSerSend_next size data s t h
    · exact .inl rfl
    · obtain ⟨_, he⟩ := enqueue_eq data s hc
      rw [he]
      exact .inl rfl
  | serRecv =>
    obtain rfl | ⟨_, _, -, rfl⟩ := execSerRecv_next s t h
    · exact .inl rfl
    · exact .inl rfl
  | serStat sel =>
    obtain ⟨_, _, he⟩ := execSerStat_eq sel s
    cases he.symm.trans h
    exact .inl rfl
  | event c =>
    obtain ⟨_, _, _, _, _, _, _, rfl⟩ := event_frame c s t hc h
    exact .inl rfl

/-- Only a command taken in `IDLE` reaches `ser_inited`. -/
theorem turn_serInited (s t : State) (u : Turn) (h : TurnTaken s t u) (hc : configOk s.cfg = true) :
    t.serInited = s.serInited ∨
    (s.serInited = false ∧ t.serInited = true ∧ u = .app ∧ s.seq = .idle ∧
      ∃ target rest, decode s.cmdIn = .ok (.serInit target) rest ∧ t.resp = some ⟨.ok, 0⟩) := by
  cases h with
  | noCommand _ ht | illegal _ _ _ _ ht => exact .inl (ht ▸ rfl)
  | command i rest hq hd ht =>
    rcases exec_serInited i { s with cmdIn := rest } t hc ht with ht | ⟨hs, hi, target, rfl, hr⟩
    · exact .inl ht
    · exact .inr ⟨hs, hi, rfl, hq, target, rest, hd, hr⟩
  | pllPoll _ ht =>
    obtain ⟨_, _, _, _, _, _, _, rfl⟩ := cfgPllWait_frame s t ht
    exact .inl rfl
  | swPoll _ ht =>
    obtain ⟨_, _, _, _, _, _, _, rfl⟩ := setSysclkWait_frame s t ht
    exact .inl rfl
  | event c ht =>
    obtain ⟨_, _, _, _, _, _, _, rfl⟩ := event_frame c s t hc ht
    exact .inl rfl
  | env e ht =>
    obtain ⟨_, _, he⟩ := envStep_eq e s
    exact .inl (by rw [ht, he])

/-- Settles O26. -/
theorem initialisedOnce : Obligations.InitialisedOnce := by
  intro s t h
  obtain ⟨hc, _, _, ht⟩ := step_taken s t h
  exact (turn_serInited _ t _ ht hc :)

/-! The counters. -/

/-- Neither counter differs. -/
def SameCounters (s t : State) : Prop := t.faultCount = s.faultCount ∧ t.overrunCount = s.overrunCount

/-- No command counts an event (R47). -/
theorem command_sameCounters (i : Instr) (s t : State) (hc : configOk s.cfg = true) (hi : isEvent i = false) (h : exec i s = .next t) :
    SameCounters s t := by
  cases instrKind i with
  | clock _ hi =>
    obtain ⟨_, _, _, _, _, _, _, rfl⟩ := clockCommand_frame i s t hc hi h
    exact ⟨rfl, rfl⟩
  | serInit target =>
    obtain ⟨-, rfl | ⟨k, rfl⟩⟩ := execSerInit_next target s t h
    · exact ⟨rfl, rfl⟩
    · obtain ⟨_, he⟩ := startSerial_eq k s hc
      rw [he]
      exact ⟨rfl, rfl⟩
  | serSend size data =>
    obtain ⟨-, rfl | rfl⟩ := execSerSend_next size data s t h
    · exact ⟨rfl, rfl⟩
    · obtain ⟨_, he⟩ := enqueue_eq data s hc
      rw [he]
      exact ⟨rfl, rfl⟩
  | serRecv =>
    obtain rfl | ⟨_, _, -, rfl⟩ := execSerRecv_next s t h
    · exact ⟨rfl, rfl⟩
    · exact ⟨rfl, rfl⟩
  | serStat sel =>
    obtain ⟨_, _, he⟩ := execSerStat_eq sel s
    cases he.symm.trans h
    exact ⟨rfl, rfl⟩
  | event c => exact absurd hi (by simp)

/-- The causes whose service `x[8]` counts (R193 to R195). -/
def faultCause : Cause → Bool
  | .overrun | .modeFault | .crcError => true
  | .txEmpty | .rxAvailable => false

theorem faultCause_iff (c : Cause) : faultCause c = true ↔ c = .overrun ∨ c = .modeFault ∨ c = .crcError := by
  cases c <;> simp [faultCause]

/-- `x[8]` counts the service of exactly the three fault causes. -/
theorem handlerRule_faultCount (c : Cause) (s : State) :
    (handlerRule c s).faultCount = if faultCause c then s.faultCount + 1 else s.faultCount := by
  cases c with
  | txEmpty =>
    simp only [handlerRule, handleTxEmpty]
    split <;> simp [faultCause]
  | rxAvailable =>
    simp only [handlerRule, handleRxAvailable]
    split <;> simp [faultCause]
  | overrun => simp [handlerRule, handleOverrun, clearOverrun, faultCause]
  | modeFault => simp [handlerRule, handleModeFault, clearModeFault, faultCause]
  | crcError => simp [handlerRule, handleCrcError, faultCause]

/-- `x[9]` counts a received byte that finds the buffer full, and nothing else. -/
theorem handlerRule_overrunCount (c : Cause) (s : State) :
    (handlerRule c s).overrunCount =
      if c = .rxAvailable ∧ s.rxFifo.cap ≤ s.rxFifo.size then s.overrunCount + 1 else s.overrunCount := by
  cases c with
  | txEmpty =>
    simp only [handlerRule, handleTxEmpty]
    split <;> simp
  | rxAvailable =>
    simp only [handlerRule, handleRxAvailable, regRead_rxFifo, setSerState_rxFifo]
    by_cases hb : s.rxFifo.size < s.rxFifo.cap
    · simp [push_eq_some _ _ hb, hb]
    · simp [push_eq_none _ _ hb, Nat.le_of_not_lt hb]
  | overrun => simp [handlerRule, handleOverrun, clearOverrun]
  | modeFault => simp [handlerRule, handleModeFault, clearModeFault]
  | crcError => simp [handlerRule, handleCrcError]

/-- A turn that is no event leaves both counters. -/
theorem turn_sameCounters (s t : State) (u : Turn) (h : TurnTaken s t u) (hc : configOk s.cfg = true) :
    SameCounters s t ∨ ∃ c : Cause, u = .event c.code ∧ exec c.instr s = .next t := by
  cases h with
  | noCommand _ ht | illegal _ _ _ _ ht => exact .inl (ht ▸ ⟨rfl, rfl⟩)
  | command i rest _ hd ht =>
    exact .inl (command_sameCounters i { s with cmdIn := rest } t hc (decode_not_event _ i rest hd) ht)
  | pllPoll _ ht =>
    obtain ⟨_, _, _, _, _, _, _, rfl⟩ := cfgPllWait_frame s t ht
    exact .inl ⟨rfl, rfl⟩
  | swPoll _ ht =>
    obtain ⟨_, _, _, _, _, _, _, rfl⟩ := setSysclkWait_frame s t ht
    exact .inl ⟨rfl, rfl⟩
  | event c ht => exact .inr ⟨c, rfl, ht⟩
  | env e ht =>
    obtain ⟨_, _, he⟩ := envStep_eq e s
    exact .inl (by rw [ht, he]; exact ⟨rfl, rfl⟩)

/-- Settles O27: only an event reaches the counters, and only the rule of a pending cause. -/
theorem countersCountEvents : Obligations.CountersCountEvents := by
  intro s t h
  obtain ⟨hc, turns, draws, ht⟩ := step_taken s t h
  rcases turn_sameCounters _ t _ ht hc with ⟨hf, ho⟩ | ⟨c, hu, ht⟩
  · exact ⟨.inl hf, .inl ho⟩
  rcases event_next c _ t ht with rfl | ⟨-, hp, -, -, rfl⟩
  · exact ⟨.inl rfl, .inl rfl⟩
  have hflag : s.flag (causeFlag c) = true := (Bool.and_eq_true_iff.1 hp).1
  rw [leaveHandler_faultCount, leaveHandler_overrunCount, handlerRule_faultCount, handlerRule_overrunCount]
  constructor
  · split
    case isTrue hf => exact .inr ⟨rfl, c, (faultCause_iff c).1 hf, hu, hflag⟩
    case isFalse => exact .inl rfl
  · split
    case isTrue hr => exact .inr ⟨rfl, hr.1 ▸ hu, hr.2⟩
    case isFalse => exact .inl rfl

end Sys2Proof.Machine
end

section
/-! PROOF. The Clock-Tree Engine's invariants (R22, R160): what they depend on, and that every turn keeps them. -/
namespace Sys2Proof.Machine

open Sys2Proof.Safety

/-! What the invariants depend on. -/

/-- A field of the clock block depends on that block's words only (R71). -/
theorem field_of_rcc {s t : State} (hok : configOk s.cfg = true) (hc : t.cfg = s.cfg) (hr : t.rcc = s.rcc) (f : Field)
    (hf : regOfSer (fieldReg f) = false) : t.field f = s.field f := by
  have hw (r : Reg) (h : regOfSer r = false) : t.word r = s.word r := by
    cases r <;> simp_all [State.word, regOfSer]
  simp only [State.field, State.desc, hc, hw _ ((desc_block s.cfg hok f).trans hf)]

/-- A property that holds of one field and not of another tells them apart. -/
theorem field_ne (p : Field → Bool) {f g : Field} (hf : p f = true) (hg : p g = false) : f ≠ g :=
  ne_of_apply_ne p (by simp [hf, hg])

/-- Only a write of `PLLON` has a side effect on another field (R68 a). -/
theorem disturbs_eq_false {f : Field} (h : f ≠ .pllon) (g : Field) : disturbs f g = false := by simp [disturbs, h]

/-- The clock engine's view of two states is the same. -/
structure SameClock (s t : State) : Prop where
  cfg : t.cfg = s.cfg
  snap : t.snap = s.snap
  pllOscHz : t.pllOscHz = s.pllOscHz
  seq : t.seq = s.seq
  op : t.op = s.op
  field : ∀ f, regOfSer (fieldReg f) = false → t.field f = s.field f

/-- The invariants of R160 that are about the registers and `x[7]` alone. -/
structure ClockRegs (s : State) : Prop where
  layout : layoutOk s.cfg = true
  pllOff : s.flag .pllon = false → s.flag .pllrdy = false
  legalSw : (s.field .sw).toNat < 3
  legalSws : (s.field .sws).toNat < 3
  swReady : s.field .sw = 2 → s.flag .pllrdy = true
  swsReady : s.field .sws = 2 → s.flag .pllrdy = true
  configured : s.flag .pllon = true →
    ∃ q, pllValid s.cfg s.pllOscHz.toNat (s.field .pllm).toNat (s.field .plln).toNat q = true

theorem clockInv_regs {s : State} (h : ClockInv s) : ClockRegs s :=
  ⟨h.layout, h.pllOff, h.legalSw, h.legalSws, h.swReady, h.swsReady, h.configured⟩

/-- The bus prescalers: no invariant about the registers alone speaks of them. -/
def prescaler : Field → Bool
  | .hpre | .ppre1 | .ppre2 => true
  | .pllon | .pllrdy | .pllm | .plln | .pllp | .pllsrc | .pllq | .sw | .sws | .br | .spe | .errie | .rxneie | .txeie
  | .rxne | .txe | .crcerr | .modf | .ovr => false

theorem ClockRegs.congr {s t : State} (h : ClockRegs s) (hc : t.cfg = s.cfg) (hp : t.pllOscHz = s.pllOscHz)
    (hf : ∀ f, regOfSer (fieldReg f) = false → prescaler f = false → t.field f = s.field f) : ClockRegs t := by
  have hon := hf .pllon rfl rfl
  have hrdy := hf .pllrdy rfl rfl
  have hsw := hf .sw rfl rfl
  have hsws := hf .sws rfl rfl
  have hm := hf .pllm rfl rfl
  have hn := hf .plln rfl rfl
  obtain ⟨layout, pllOff, legalSw, legalSws, swReady, swsReady, configured⟩ := h
  constructor <;> simp only [State.flag, hc, hp, hon, hrdy, hsw, hsws, hm, hn] <;> assumption

/-- The fields a snapshot is computed from (R141). -/
def speedField : Field → Bool
  | .sws | .pllm | .plln | .pllp | .hpre | .ppre1 | .ppre2 => true
  | .pllon | .pllrdy | .pllsrc | .pllq | .sw | .br | .spe | .errie | .rxneie | .txeie | .rxne | .txe | .crcerr | .modf | .ovr => false

theorem snapshotFresh_congr {s t : State} (h : SnapshotFresh s) (hc : t.cfg = s.cfg) (hx : t.snap = s.snap)
    (hp : t.pllOscHz = s.pllOscHz) (hf : ∀ f, speedField f = true → t.field f = s.field f) : SnapshotFresh t := by
  obtain ⟨sys, ⟨⟨src, ha, hsys⟩, hlt⟩, hs⟩ := h
  have hsrc : sourceHz src t = sourceHz src s := by
    cases src <;> simp only [sourceHz, hc, hp, hf .pllm rfl, hf .plln rfl, hf .pllp rfl]
  refine ⟨sys, ⟨⟨src, ?_, hsys.trans hsrc.symm⟩, hlt⟩, ?_⟩
  · simpa only [ActiveSource, hf .sws rfl, hf .pllm rfl] using ha
  · rw [hx, hs]
    simp only [liveSnapshot, liveShifts, rdfF_eq_field, hc, hf .hpre rfl, hf .ppre1 rfl, hf .ppre2 rfl]

theorem speedField_block (f : Field) : speedField f = true → regOfSer (fieldReg f) = false := by cases f <;> decide

/-- The invariants say nothing that the clock engine does not see. -/
theorem clockInv_congr {s t : State} (h : ClockInv s) (e : SameClock s t) : ClockInv t := by
  have hr : ClockRegs t := (clockInv_regs h).congr e.cfg e.pllOscHz fun f hf _ => e.field f hf
  obtain ⟨layout, pllOff, legalSw, legalSws, swReady, swsReady, configured⟩ := hr
  refine { layout, pllOff, legalSw, legalSws, swReady, swsReady, configured, settled := ?_, locking := ?_, latch := ?_, fresh := ?_,
           ahbLe := ?_, apb1Le := ?_, apb2Le := ?_ }
  · rw [e.seq, e.field .sw rfl, e.field .sws rfl]
    exact h.settled
  · rw [e.seq, State.flag, e.field .pllon rfl, e.field .sws rfl]
    exact h.locking
  · rw [LatchOk, e.seq, e.op, e.field .sw rfl]
    exact h.latch
  · intro hq
    exact snapshotFresh_congr (h.fresh (e.seq.symm.trans hq)) e.cfg e.snap e.pllOscHz fun f hf => e.field f (speedField_block f hf)
  · rw [e.snap]
    exact h.ahbLe
  · rw [e.snap]
    exact h.apb1Le
  · rw [e.snap]
    exact h.apb2Le

/-! The latch (R24, R25). -/

theorem latchOk_idle {s : State} (h : LatchOk s) (hq : s.seq = .idle) : s.op = none := by
  unfold LatchOk at h
  split at h <;> simp_all

theorem latchOk_swWait {s : State} (h : LatchOk s) (hq : s.seq = .swWait) :
    ∃ src, s.op = some (.setSysclk src) ∧ s.field .sw = srcWord src := by
  unfold LatchOk at h
  split at h <;> simp_all

/-! Frequencies. -/

/-- The active source of a state that meets the invariants runs at a frequency that fits a data register: the PLL's output is at most
`VCO_OUT_MAX` (R146, R8). -/
theorem sourceHz_lt {s : State} (h : ClockRegs s) (src : ClkSrc) (ha : ActiveSource src s) : sourceHz src s < 2 ^ 32 := by
  cases src with
  | hsi => exact s.cfg.hsiHz.isLt
  | hse => exact s.cfg.hseHz.isLt
  | pll =>
    have hon : s.flag .pllon = true := by
      by_contra hoff
      exact absurd (h.swsReady ha.1) (by simp [h.pllOff (Bool.not_eq_true _ ▸ hoff)])
    obtain ⟨q, hv⟩ := h.configured hon
    have hvco : s.pllOscHz.toNat / (s.field .pllm).toNat * (s.field .plln).toNat ≤ s.cfg.vcoOutMax := by
      simp only [pllValid, Bool.and_eq_true, decide_eq_true_eq] at hv
      exact hv.2
    have hmax : s.cfg.vcoOutMax < 2 ^ 32 := by
      have hc := layoutOk_configOk _ h.layout
      simp only [configOk, rangesOk, Bool.and_eq_true, decide_eq_true_eq] at hc
      omega
    exact Nat.lt_of_le_of_lt (Nat.div_le_self _ _) (Nat.lt_of_le_of_lt hvco hmax)

/-- A right shift of a number that fits 32 bits does not raise its word. -/
theorem ofNat_shiftRight_le (a b : Nat) (h : a < 2 ^ 32) : BitVec.ofNat 32 (a >>> b) ≤ BitVec.ofNat 32 a := by
  have hle := Nat.shiftRight_le a b
  rw [BitVec.le_def, BitVec.toNat_ofNat, BitVec.toNat_ofNat, Nat.mod_eq_of_lt h, Nat.mod_eq_of_lt (Nat.lt_of_le_of_lt hle h)]
  exact hle

/-- The end of a configuring command sets up a fresh snapshot and with it all invariants, where those of the registers hold and the
switch is settled (R22, R160). -/
theorem saveAndRespond_clockInv {s t : State} (h : ClockRegs s) (hset : s.field .sw = s.field .sws) (hs : saveAndRespond s = .next t) :
    ClockInv t := by
  obtain ⟨src, snap, draws, ha, rfl, hx⟩ := saveAndRespond_next s t hs
  have hlt := sourceHz_lt h src ha
  obtain ⟨rfl, rfl⟩ := hx hlt
  have hahb : sourceHz src s >>> (liveShifts s).1 < 2 ^ 32 := Nat.lt_of_le_of_lt (Nat.shiftRight_le _ _) hlt
  obtain ⟨layout, pllOff, legalSw, legalSws, swReady, swsReady, configured⟩ := h
  exact
    { layout, pllOff, legalSw, legalSws, swReady, swsReady, configured
      settled := fun _ => hset
      locking := nofun
      latch := trivial
      fresh := fun _ => ⟨sourceHz src s, ⟨⟨src, ha, rfl⟩, hlt⟩,
        (liveSnapshot_congr s (respond .ok 0 { s with snap := liveSnapshot (sourceHz src s) s }) _ rfl rfl rfl).symm⟩
      ahbLe := ofNat_shiftRight_le _ _ hlt
      apb1Le := ofNat_shiftRight_le _ _ hahb
      apb2Le := ofNat_shiftRight_le _ _ hahb }

/-! Commands taken in `IDLE`. -/

/-- A response in `IDLE` changes nothing the clock engine sees. -/
theorem clockInv_respond {s : State} (h : ClockInv s) (hq : s.seq = .idle) (st : Status) (v : Word) : ClockInv (respond st v s) :=
  clockInv_congr h ⟨rfl, rfl, rfl, hq.symm, (latchOk_idle h.latch hq).symm, fun _ _ => rfl⟩

/-- Neither does a write of a clock gate (R34). -/
theorem clockInv_gate {s : State} (h : ClockInv s) (r : Reg) (bit : BitVec 5) (v : Word)
    (hr : r = .rccAhb1enr ∨ r = .rccAhb2enr ∨ r = .rccAhb3enr ∨ r = .rccApb1enr ∨ r = .rccApb2enr) :
    ClockInv (wrf (gateDesc r bit) v s) :=
  clockInv_congr h ⟨by simp, by simp, by simp, by simp, by simp,
    fun f _ => field_wrf_gate s (layoutOk_configOk _ h.layout) r bit v f hr⟩

/-- Neither does a change that leaves the clock block and the application's side alone. -/
theorem clockInv_serialSide {s : State} (h : ClockInv s) (t : State) (hc : t.cfg = s.cfg) (hr : t.rcc = s.rcc) (hx : t.snap = s.snap)
    (hp : t.pllOscHz = s.pllOscHz) (hq : t.seq = s.seq) (ho : t.op = s.op) : ClockInv t :=
  clockInv_congr h ⟨hc, hx, hp, hq, ho, field_of_rcc (layoutOk_configOk _ h.layout) hc hr⟩

/-- A prescaler command keeps the invariants: no other invariant speaks of the field, and the snapshot is computed anew (R154 to R156). -/
theorem prescaler_clockInv {s t : State} (h : ClockInv s) (hq : s.seq = .idle) (f : Field) (v : Word) (hp : plainField f = true)
    (hf : prescaler f = true) (hs : saveAndRespond (wrfF f v s) = .next t) : ClockInv t := by
  have keeps (g : Field) (hg : prescaler g = false) : (wrfF f v s).field g = s.field g :=
    field_wrfF_other s h.layout f g v hp (field_ne prescaler hf hg) (disturbs_eq_false (field_ne prescaler hf rfl) g)
  refine saveAndRespond_clockInv ((clockInv_regs h).congr (by simp) (by simp) fun g _ => keeps g) ?_ hs
  rw [keeps .sw rfl, keeps .sws rfl]
  exact h.settled (by simp [hq])

theorem srcWord_toNat (src : ClkSrc) : (srcWord src).toNat < 3 := by cases src <;> decide

theorem srcWord_eq_two (src : ClkSrc) : srcWord src = 2 → src = .pll := by cases src <;> decide

/-- `SET_SYSCLK` selects only a ready source, and from then on the latch goes with `SW` (R152). -/
theorem execSetSysclk_clockInv {src : ClkSrc} {s t : State} (h : ClockInv s) (hs : execSetSysclk src s = .next t) : ClockInv t := by
  obtain ⟨hready, rfl⟩ := execSetSysclk_next src s t hs
  have hlt := srcWord_toNat src
  have hsw : (wrfF .sw (srcWord src) s).field .sw = srcWord src :=
    field_wrfF_value s h.layout .sw _ rfl (Nat.lt_of_lt_of_le hlt (by decide))
  have keeps (g : Field) (hg : Field.sw ≠ g) : (wrfF .sw (srcWord src) s).field g = s.field g :=
    field_wrfF_other s h.layout .sw g _ rfl hg rfl
  have hrdy : (wrfF .sw (srcWord src) s).flag .pllrdy = s.flag .pllrdy := congrArg (· == 1) (keeps .pllrdy (by decide))
  have hon : (wrfF .sw (srcWord src) s).flag .pllon = s.flag .pllon := congrArg (· == 1) (keeps .pllon (by decide))
  constructor
  case layout => simpa using h.layout
  case pllOff => exact fun hoff => hrdy.trans (h.pllOff (hon.symm.trans hoff))
  case settled => exact fun hne => absurd rfl hne
  case legalSw => exact hsw.symm ▸ hlt
  case legalSws => exact keeps .sws (by decide) ▸ h.legalSws
  case swReady => exact fun h2 => hrdy.trans (hready (srcWord_eq_two src (hsw.symm.trans h2)))
  case swsReady => exact fun h2 => hrdy.trans (h.swsReady ((keeps .sws (by decide)).symm.trans h2))
  case configured =>
    intro h1
    simpa [keeps .pllm (by decide), keeps .plln (by decide)] using h.configured (hon.symm.trans h1)
  case locking => nofun
  case latch => exact hsw
  case fresh => nofun
  case ahbLe => simpa using h.ahbLe
  case apb1Le => simpa using h.apb1Le
  case apb2Le => simpa using h.apb2Le

/-- The fields that a valid `CFG_PLL` writes, and `PLLRDY`, which follows `PLLON` (R150, R68 a). -/
def pllField : Field → Bool
  | .pllon | .pllrdy | .pllm | .plln | .pllp | .pllq | .pllsrc => true
  | .sw | .sws | .hpre | .ppre1 | .ppre2 | .br | .spe | .errie | .rxneie | .txeie | .rxne | .txe | .crcerr | .modf | .ovr => false

/-- Stopping the PLL first, where it runs, changes `PLLON` and `PLLRDY` only (R150, R68 a). -/
theorem field_stopPll (s : State) (h : layoutOk s.cfg = true) (g : Field) (hg : pllField g = false) :
    (if tstbF .pllon s then wrfF .pllon 0 s else s).field g = s.field g := by
  split
  · have hrdy : Field.pllrdy ≠ g := field_ne pllField rfl hg
    exact field_wrfF_other s h .pllon g 0 rfl (field_ne pllField rfl hg) (by simp [disturbs, hrdy.symm])
  · rfl

/-- The five settings of a valid `CFG_PLL`, in R150's order. -/
def writeSettings (src : PllSrc) (m : BitVec 6) (n : BitVec 9) (p : PllP) (q : BitVec 4) (s : State) : State :=
  wrfF .pllsrc (pllSrcWord src) (wrfF .pllq (q.setWidth 32) (wrfF .pllp (pllPWord p) (wrfF .plln (n.setWidth 32)
    (wrfF .pllm (m.setWidth 32) s))))

/-- `CFG_PLL` stops the PLL if it runs, writes the settings and `x[7]`, and starts the PLL (R150). -/
theorem startPll_eq_writeSettings (src : PllSrc) (osc : Word) (m : BitVec 6) (n : BitVec 9) (p : PllP) (q : BitVec 4) (s : State) :
    startPll src osc m n p q s =
      wrfF .pllon 1 { writeSettings src m n p q (if tstbF .pllon s then wrfF .pllon 0 s else s) with pllOscHz := osc } := rfl

theorem writeSettings_cfg (src : PllSrc) (m : BitVec 6) (n : BitVec 9) (p : PllP) (q : BitVec 4) (s : State) :
    (writeSettings src m n p q s).cfg = s.cfg := by simp [writeSettings]

/-- None of the settings has a side effect: each write stores exactly its field. -/
theorem writeSettings_eq_hwSet (src : PllSrc) (m : BitVec 6) (n : BitVec 9) (p : PllP) (q : BitVec 4) (s : State)
    (h : layoutOk s.cfg = true) :
    writeSettings src m n p q s =
      ((((s.hwSet .pllm (m.setWidth 32)).hwSet .plln (n.setWidth 32)).hwSet .pllp (pllPWord p)).hwSet .pllq (q.setWidth 32)).hwSet
        .pllsrc (pllSrcWord src) := by
  have store (f : Field) (v : Word) (u : State) (hu : u.cfg = s.cfg) (hp : plainField f = true) (hf : f ≠ .pllon) :
      wrfF f v u = u.hwSet f v := wrfF_store u (hu ▸ h) f v hp hf
  rw [writeSettings, store .pllm _ _ rfl rfl (by decide), store .plln _ _ (by simp) rfl (by decide),
    store .pllp _ _ (by simp) rfl (by decide), store .pllq _ _ (by simp) rfl (by decide), store .pllsrc _ _ (by simp) rfl (by decide)]

theorem field_writeSettings (src : PllSrc) (m : BitVec 6) (n : BitVec 9) (p : PllP) (q : BitVec 4) (s : State) (h : layoutOk s.cfg = true) :
    (writeSettings src m n p q s).field .pllm = m.setWidth 32 ∧ (writeSettings src m n p q s).field .plln = n.setWidth 32 ∧
    ∀ g, pllField g = false → (writeSettings src m n p q s).field g = s.field g := by
  have hc := layoutOk_configOk _ h
  have hm : (m.setWidth 32).toNat < 2 ^ fieldWidth .pllm := by
    rw [BitVec.toNat_setWidth_of_le (by decide)]
    exact m.isLt
  have hn : (n.setWidth 32).toNat < 2 ^ fieldWidth .plln := by
    rw [BitVec.toNat_setWidth_of_le (by decide)]
    exact n.isLt
  rw [writeSettings_eq_hwSet _ _ _ _ _ _ h]
  refine ⟨?_, ?_, fun g hg => ?_⟩
  · simp [field_hwSet_other, hc, field_hwSet_same s hc, and_mask_desc s h .pllm _ hm]
  · simp [field_hwSet_other, hc, field_hwSet_same (s.hwSet .pllm (m.setWidth 32)) (by simpa using hc),
      and_mask_desc (s.hwSet .pllm (m.setWidth 32)) (by simpa using h) .plln _ hn]
  · have hne (f : Field) (hf : pllField f = true) : f ≠ g := field_ne pllField hf hg
    simp [field_hwSet_other, hc, hne .pllm rfl, hne .plln rfl, hne .pllp rfl, hne .pllq rfl, hne .pllsrc rfl]

/-- What the fields read after a valid `CFG_PLL` (R150): `PLLON`, `PLLM` and `PLLN` as written, and all but the PLL's as before. -/
theorem field_startPll (src : PllSrc) (osc : Word) (m : BitVec 6) (n : BitVec 9) (p : PllP) (q : BitVec 4) (s : State)
    (h : layoutOk s.cfg = true) :
    (startPll src osc m n p q s).field .pllon = 1 ∧ (startPll src osc m n p q s).field .pllm = m.setWidth 32 ∧
    (startPll src osc m n p q s).field .plln = n.setWidth 32 ∧
    ∀ g, pllField g = false → (startPll src osc m n p q s).field g = s.field g := by
  have stop := field_stopPll s h
  have hcfg : layoutOk (if tstbF .pllon s then wrfF .pllon 0 s else s).cfg = true := by split <;> simpa using h
  rw [startPll_eq_writeSettings]
  generalize (if tstbF .pllon s then wrfF .pllon 0 s else s) = u at stop hcfg ⊢
  obtain ⟨hm, hn, hg⟩ := field_writeSettings src m n p q u hcfg
  rw [← writeSettings_cfg src m n p q u] at hcfg
  generalize writeSettings src m n p q u = w at hm hn hg hcfg ⊢
  have start (g : Field) (hon : Field.pllon ≠ g) (hrdy : Field.pllrdy ≠ g) :
      (wrfF .pllon 1 { w with pllOscHz := osc }).field g = w.field g :=
    field_wrfF_other { w with pllOscHz := osc } hcfg .pllon g 1 rfl hon (by simp [disturbs, hrdy.symm])
  refine ⟨field_wrfF_value { w with pllOscHz := osc } hcfg .pllon 1 rfl (by decide), (start .pllm (by decide) (by decide)).trans hm,
    (start .plln (by decide) (by decide)).trans hn, fun g h0 => ?_⟩
  exact (start g (field_ne pllField rfl h0) (field_ne pllField rfl h0)).trans ((hg g h0).trans (stop g h0))

/-- A valid `CFG_PLL` stops no clock in use: the PLL is neither selected nor active while it is set up again (R150, R281). -/
theorem execCfgPll_clockInv {src : PllSrc} {osc : Word} {m : BitVec 6} {n : BitVec 9} {p : PllP} {q : BitVec 4} {s t : State}
    (h : ClockInv s) (hq : s.seq = .idle) (hs : execCfgPll src osc m n p q s = .next t) : ClockInv t := by
  rcases execCfgPll_next src osc m n p q s t hs with rfl | ⟨hsw, hsws, hv, rfl⟩
  · exact clockInv_respond h hq .configError 0
  obtain ⟨hon, hm, hn, keeps⟩ := field_startPll src osc m n p q s h.layout
  obtain ⟨rcc, hr⟩ := startPll_eq src osc m n p q s (layoutOk_configOk _ h.layout)
  rw [hr] at hon hm hn keeps ⊢
  have hnsw := keeps .sw rfl
  have hnsws := keeps .sws rfl
  have hflag := (flag_true_iff _ _).2 hon
  constructor
  case layout => exact h.layout
  case pllOff => exact fun hoff => Bool.noConfusion (hflag.symm.trans hoff)
  case settled => exact fun _ => hnsw.trans ((h.settled (by simp [hq])).trans hnsws.symm)
  case legalSw => exact hnsw.symm ▸ h.legalSw
  case legalSws => exact hnsws.symm ▸ h.legalSws
  case swReady => exact fun h2 => absurd (hnsw.symm.trans h2) hsw
  case swsReady => exact fun h2 => absurd (hnsws.symm.trans h2) hsws
  case configured =>
    intro _
    refine ⟨q.toNat, ?_⟩
    rw [field_latch, field_latch, hm, hn, BitVec.toNat_setWidth_of_le (by decide), BitVec.toNat_setWidth_of_le (by decide)]
    exact hv
  case locking => exact fun _ => ⟨hflag, fun h2 => hsws (hnsws.symm.trans h2)⟩
  case latch => trivial
  case fresh => nofun
  case ahbLe => exact h.ahbLe
  case apb1Le => exact h.apb1Le
  case apb2Le => exact h.apb2Le

/-! Every turn. -/

/-- An event reaches nothing the clock engine sees (R255). -/
theorem event_clockInv {c : Cause} {s t : State} (h : ClockInv s) (hx : exec c.instr s = .next t) : ClockInv t := by
  obtain ⟨_, _, _, _, _, _, _, rfl⟩ := event_frame c s t (layoutOk_configOk _ h.layout) hx
  exact clockInv_serialSide h _ rfl rfl rfl rfl rfl rfl

/-- A clock command taken in `IDLE` keeps the invariants. -/
theorem clockCommand_clockInv {i : Instr} {s t : State} (h : ClockInv s) (hq : s.seq = .idle) (hi : clockCommand i = true)
    (hx : exec i s = .next t) : ClockInv t := by
  cases i with
  | cfgPll => exact execCfgPll_clockInv h hq hx
  | setSysclk => exact execSetSysclk_clockInv h hx
  | cfgAhb pre => exact prescaler_clockInv h hq .hpre _ rfl rfl hx
  | cfgApb1 pre => exact prescaler_clockInv h hq .ppre1 _ rfl rfl hx
  | cfgApb2 pre => exact prescaler_clockInv h hq .ppre2 _ rfl rfl hx
  | setAhbClk bank bit en =>
    cases hx
    exact clockInv_respond (clockInv_gate h _ bit _ (by cases bank <;> simp [ahbGateReg])) (by simpa using hq) .ok 0
  | setApbClk bank bit en =>
    cases hx
    exact clockInv_respond (clockInv_gate h _ bit _ (by cases bank <;> simp [apbGateReg])) (by simpa using hq) .ok 0
  | getClk which =>
    cases hx
    exact clockInv_respond h hq .ok _
  | serInit | serSend | serRecv | serStat | irqTxEmpty | irqRxAvailable | irqOverrun | irqModeFault | irqCrcError => cases hi

/-- So does every command: the serial ones respond and otherwise stay on the serial side. -/
theorem exec_clockInv {i : Instr} {s t : State} (h : ClockInv s) (hq : s.seq = .idle) (hx : exec i s = .next t) : ClockInv t := by
  have hc := layoutOk_configOk _ h.layout
  cases instrKind i with
  | clock _ hi => exact clockCommand_clockInv h hq hi hx
  | serInit target =>
    obtain ⟨-, rfl | ⟨k, rfl⟩⟩ := execSerInit_next target s t hx
    · exact clockInv_respond h hq .configError 0
    · obtain ⟨ser, he⟩ := startSerial_eq k s hc
      rw [he]
      exact clockInv_respond (clockInv_serialSide h { s with ser := ser, serInited := true, serState := .idle } rfl rfl rfl rfl rfl rfl)
        hq .ok 0
  | serSend size data =>
    obtain ⟨-, rfl | rfl⟩ := execSerSend_next size data s t hx
    · exact clockInv_respond h hq .bufferFull 0
    · obtain ⟨ser, he⟩ := enqueue_eq data s hc
      rw [he]
      exact clockInv_respond
        (clockInv_serialSide h { s with ser := ser, txFifo := s.txFifo.pushAll data, serState := .transmitting } rfl rfl rfl rfl rfl rfl)
        hq .ok 0
  | serRecv =>
    obtain rfl | ⟨b, rest, -, rfl⟩ := execSerRecv_next s t hx
    · exact clockInv_respond h hq .bufferEmpty 0
    · exact clockInv_respond (clockInv_serialSide h { s with rxFifo := { s.rxFifo with q := rest } } rfl rfl rfl rfl rfl rfl) hq .ok _
  | serStat sel =>
    obtain ⟨v, draws, he⟩ := execSerStat_eq sel s
    cases he.symm.trans hx
    exact clockInv_respond (clockInv_serialSide h { s with draws := draws } rfl rfl rfl rfl rfl rfl) hq .ok v
  | event c => exact event_clockInv h hx

/-- A poll of `CFG_PLL` keeps the invariants: `SW` and `SWS` have not moved since the command began (R151). -/
theorem cfgPllWait_clockInv {s t : State} (h : ClockInv s) (hq : s.seq = .pllWait) (hx : cfgPllWait s = .next t) : ClockInv t := by
  rcases cfgPllWait_next s t hx with rfl | ⟨-, hs⟩
  · exact h
  · exact saveAndRespond_clockInv (clockInv_regs h) (h.settled (by simp [hq])) hs

/-- A poll of `SET_SYSCLK` that completes has seen `SWS` reach the latched target, which is what `SW` selects (R153). -/
theorem setSysclkWait_clockInv {s t : State} (h : ClockInv s) (hq : s.seq = .swWait) (hx : setSysclkWait s = .next t) : ClockInv t := by
  rcases setSysclkWait_next s t hx with rfl | ⟨htarget, hs⟩
  · exact h
  · obtain ⟨src, hop, hsw⟩ := latchOk_swWait h.latch hq
    have hsws : s.field .sws = srcWord src := by simpa [opTarget, hop] using htarget
    exact saveAndRespond_clockInv (clockInv_regs h) (hsw.trans hsws.symm) hs

/-- `E_LOCK` is enabled only while `PLLON` is 1, and changes `PLLRDY` only (R221). -/
theorem lock_clockInv {s : State} (h : ClockInv s) (he : envEnabled .lock s = true) : ClockInv (envEffect .lock s) := by
  have hc := layoutOk_configOk _ h.layout
  have hon : s.flag .pllon = true := by
    simp only [envEnabled, Bool.and_eq_true] at he
    exact he.1.1
  have keeps (g : Field) (hg : Field.pllrdy ≠ g) : (s.hwSet .pllrdy 1#32).field g = s.field g := field_hwSet_other s hc .pllrdy g _ hg
  have hrdy : (s.hwSet .pllrdy 1#32).flag .pllrdy = true := (flag_true_iff _ _).2 (field_hwSet_bit s hc .pllrdy 1 (by decide))
  have hon' : (s.hwSet .pllrdy 1#32).flag .pllon = s.flag .pllon := congrArg (· == 1) (keeps .pllon (by decide))
  have hsw := keeps .sw (by decide)
  have hsws := keeps .sws (by decide)
  constructor <;> simp only [envEffect]
  case layout => simpa using h.layout
  case pllOff => exact fun hoff => Bool.noConfusion ((hon'.trans hon).symm.trans hoff)
  case settled => simpa [hsw, hsws] using h.settled
  case legalSw => exact hsw.symm ▸ h.legalSw
  case legalSws => exact hsws.symm ▸ h.legalSws
  case swReady => exact fun _ => hrdy
  case swsReady => exact fun _ => hrdy
  case configured => simpa [hon', keeps .pllm (by decide), keeps .plln (by decide)] using h.configured
  case locking => simpa [hon', hsws] using h.locking
  case latch => simpa [LatchOk, hsw] using h.latch
  case fresh =>
    intro hq
    exact snapshotFresh_congr (h.fresh (by simpa using hq)) (by simp) (by simp) (by simp) fun f hf =>
      keeps f (field_ne speedField hf rfl).symm
  case ahbLe => simpa using h.ahbLe
  case apb1Le => simpa using h.apb1Le
  case apb2Le => simpa using h.apb2Le

/-- `E_SWITCH` is enabled only in `SW_WAIT`, where `SW` and `SWS` may differ, and only for a ready source (R222). -/
theorem switch_clockInv {s : State} (h : ClockInv s) (he : envEnabled .switch s = true) : ClockInv (envEffect .switch s) := by
  have hc := layoutOk_configOk _ h.layout
  have hq : s.seq = .swWait := by
    by_contra hne
    simp [envEnabled, h.settled hne] at he
  have keeps (g : Field) (hg : Field.sws ≠ g) : (s.hwSet .sws (s.field .sw)).field g = s.field g :=
    field_hwSet_other s hc .sws g _ hg
  have hsws : (s.hwSet .sws (s.field .sw)).field .sws = s.field .sw :=
    (field_hwSet_same s hc .sws _).trans (and_mask_desc s h.layout .sws _ (Nat.lt_trans h.legalSw (by decide)))
  have hsw := keeps .sw (by decide)
  have hon : (s.hwSet .sws (s.field .sw)).flag .pllon = s.flag .pllon := congrArg (· == 1) (keeps .pllon (by decide))
  have hrdy : (s.hwSet .sws (s.field .sw)).flag .pllrdy = s.flag .pllrdy := congrArg (· == 1) (keeps .pllrdy (by decide))
  constructor <;> simp only [envEffect]
  case layout => simpa using h.layout
  case pllOff => simpa [hon, hrdy] using h.pllOff
  case settled => exact fun _ => hsw.trans hsws.symm
  case legalSw => exact hsw.symm ▸ h.legalSw
  case legalSws => exact hsws.symm ▸ h.legalSw
  case swReady => simpa [hsw, hrdy] using h.swReady
  case swsReady => simpa [hsws, hrdy] using h.swReady
  case configured => simpa [hon, keeps .pllm (by decide), keeps .plln (by decide)] using h.configured
  case locking => simp [hq]
  case latch => simpa [LatchOk, hsw] using h.latch
  case fresh => simp [hq]
  case ahbLe => simpa using h.ahbLe
  case apb1Le => simpa using h.apb1Le
  case apb2Le => simpa using h.apb2Le

/-- A hardware write to the serial block is nothing the clock engine sees (R224). -/
theorem serialHwSet_clockInv {s : State} (h : ClockInv s) (f : Field) (v : Word) (hf : regOfSer (fieldReg f) = true) :
    ClockInv (s.hwSet f v) :=
  clockInv_serialSide h _ (by simp) (hwSet_rcc f v s (layoutOk_configOk _ h.layout) hf) (by simp) (by simp) (by simp) (by simp)

theorem envStep_clockInv {s : State} (h : ClockInv s) (e : EnvStep) : ClockInv (envStep e s) := by
  unfold envStep
  split
  case isFalse => exact h
  case isTrue he =>
    cases e with
    | lock => exact lock_clockInv h he
    | switch => exact switch_clockInv h he
    | txDone => exact serialHwSet_clockInv h .txe 1 rfl
    | rxByte b =>
      simp only [envEffect]
      split
      · exact serialHwSet_clockInv (clockInv_serialSide h { s with ser := { s.ser with drRx := b } } rfl rfl rfl rfl rfl rfl) .rxne 1 rfl
      · exact serialHwSet_clockInv h .ovr 1 rfl
    | fault f => exact serialHwSet_clockInv h (lineFaultField f) 1 (by cases f <;> rfl)

theorem turn_clockInv {s t : State} {u : Turn} (h : ClockInv s) (ht : TurnTaken s t u) : ClockInv t := by
  cases ht with
  | noCommand _ ht => exact ht ▸ h
  | illegal _ rest hq _ ht =>
    exact ht ▸ clockInv_respond (clockInv_serialSide h { s with cmdIn := rest } rfl rfl rfl rfl rfl rfl) hq .illegalCommand 0
  | command i rest hq _ ht =>
    exact exec_clockInv (clockInv_serialSide h { s with cmdIn := rest } rfl rfl rfl rfl rfl rfl) hq ht
  | pllPoll hq ht => exact cfgPllWait_clockInv h hq ht
  | swPoll hq ht => exact setSysclkWait_clockInv h hq ht
  | event c ht => exact event_clockInv h ht
  | env e ht => exact ht ▸ envStep_clockInv h e

/-- Settles O21: the placed turns and the draw counter are nothing the clock engine sees, and every turn keeps the invariants. -/
theorem clockInvariantsKept : Obligations.ClockInvariantsKept := by
  intro s t h hstep
  obtain ⟨-, turns, draws, ht⟩ := step_taken s t hstep
  exact turn_clockInv (clockInv_serialSide h { s with turns := turns, draws := draws } rfl rfl rfl rfl rfl rfl) ht

end Sys2Proof.Machine
end

section
/-! PROOF. The Serial Engine's invariants (R40, R44, R45, R49, R251): what they depend on, and that every turn keeps them. -/
namespace Sys2Proof.Machine

open Sys2Proof.Safety

/-! What the invariants depend on. -/

/-- A field of the serial block depends on that block's words only (R71). -/
theorem field_of_ser {s t : State} (hok : configOk s.cfg = true) (hc : t.cfg = s.cfg) (hs : t.ser = s.ser) (f : Field)
    (hf : regOfSer (fieldReg f) = true) : t.field f = s.field f := by
  have hw (r : Reg) (h : regOfSer r = true) : t.word r = s.word r := by
    cases r <;> simp_all [State.word, regOfSer]
  simp only [State.field, State.desc, hc, hw _ ((desc_block s.cfg hok f).trans hf)]

/-- The peripheral enable and the three interrupt enables (R35): the fields the invariants speak of. -/
def enableField : Field → Bool
  | .spe | .rxneie | .errie | .txeie => true
  | .pllon | .pllrdy | .pllm | .plln | .pllp | .pllsrc | .pllq | .sw | .sws | .hpre | .ppre1 | .ppre2 | .br
  | .rxne | .txe | .crcerr | .modf | .ovr => false

theorem enableField_causeEnable (c : Cause) : enableField (causeEnable c) = true := by cases c <;> rfl

theorem enableField_block (f : Field) : enableField f = true → regOfSer (fieldReg f) = true := by cases f <;> decide

/-- Buffers, `ser_state` and `in_handler` may change to anything the invariants allow; the parameters, `ser_inited` and the enables
stay. -/
theorem serialInv_congr {s t : State} (h : SerialInv s) (hc : t.cfg = s.cfg) (hi : t.serInited = s.serInited)
    (hf : ∀ f, enableField f = true → t.field f = s.field f) (htx : t.txFifo.cap = s.txFifo.cap ∧ t.txFifo.size ≤ s.txFifo.cap)
    (hrx : t.rxFifo.cap = s.rxFifo.cap ∧ t.rxFifo.size ≤ s.rxFifo.cap) (hst : t.serState = .idle ∨ t.serState = .transmitting)
    (hm : t.inHandler = false) : SerialInv t where
  layout := hc ▸ h.layout
  txCap := by rw [htx.1, hc, h.txCap]
  rxCap := by rw [hrx.1, hc, h.rxCap]
  txSize := htx.1.symm ▸ htx.2
  rxSize := hrx.1.symm ▸ hrx.2
  persists := hst
  masked := hm
  quiet := fun h0 c => (congrArg (· == 1) (hf _ (enableField_causeEnable c))).trans (h.quiet (hi.symm.trans h0) c)
  enabled := fun h1 => by
    simpa only [State.flag, hf .spe rfl, hf .rxneie rfl, hf .errie rfl] using h.enabled (hi.symm.trans h1)

/-- A change that leaves the serial side alone, but for enables that stay, keeps the invariants. -/
theorem serialInv_of_fields {s t : State} (h : SerialInv s) (hc : t.cfg = s.cfg) (hi : t.serInited = s.serInited)
    (hf : ∀ f, enableField f = true → t.field f = s.field f) (htx : t.txFifo = s.txFifo) (hrx : t.rxFifo = s.rxFifo)
    (hst : t.serState = s.serState) (hm : t.inHandler = s.inHandler) : SerialInv t :=
  serialInv_congr h hc hi hf ⟨congrArg Fifo.cap htx, htx.symm ▸ h.txSize⟩ ⟨congrArg Fifo.cap hrx, hrx.symm ▸ h.rxSize⟩
    (hst ▸ h.persists) (hm.trans h.masked)

/-- A clock command or its poll keeps them (R140). -/
theorem clockFrame_serialInv {s t : State} (h : SerialInv s) (ht : ClockFrame s t) : SerialInv t := by
  obtain ⟨_, _, _, _, _, _, _, rfl⟩ := ht
  refine serialInv_of_fields h rfl rfl (fun f hf => ?_) rfl rfl rfl rfl
  exact field_of_ser (layoutOk_configOk _ h.layout) (by rfl) (by rfl) f (enableField_block f hf)

/-- So does a response or a change of the command port, the placed turns or the draw counter. -/
theorem serialInv_ports {s : State} (h : SerialInv s) (seq : Seq) (op : Option Instr) (resp : Option Response) (words : List CmdWord)
    (turns : List Turn) (draws : Nat) :
    SerialInv { s with seq := seq, op := op, resp := resp, cmdIn := words, turns := turns, draws := draws } :=
  serialInv_of_fields h rfl rfl (fun _ _ => rfl) rfl rfl rfl rfl

theorem serialInv_respond {s : State} (h : SerialInv s) (st : Status) (v : Word) : SerialInv (respond st v s) :=
  serialInv_ports h _ _ _ _ _ _

/-! Buffers (R40 to R42). -/

theorem pop_bounded {b rest : Fifo} {v : Byte} (h : b.pop = some (v, rest)) : rest.cap = b.cap ∧ rest.size ≤ b.size := by
  unfold Fifo.pop at h
  split at h
  case h_1 => cases h
  case h_2 _ later hq =>
    cases h
    exact ⟨rfl, by simp [Fifo.size, hq]⟩

theorem push_bounded {b b' : Fifo} {v : Byte} (h : b.push v = some b') : b'.cap = b.cap ∧ b'.size ≤ b.cap := by
  unfold Fifo.push at h
  split at h
  case isTrue hlt =>
    cases h
    exact ⟨rfl, by simpa [Fifo.size] using hlt⟩
  case isFalse => cases h

/-! Commands. -/

/-- None of the writes of `SER_INIT` has a side effect: each stores exactly its field (R182). -/
theorem startSerial_eq_hwSet (k : Nat) (s : State) (h : layoutOk s.cfg = true) :
    startSerial k s =
      { (((s.hwSet .br (BitVec.ofNat 32 (k - 1))).hwSet .rxneie 1).hwSet .errie 1).hwSet .spe 1 with
        serInited := true, serState := .idle } := by
  have store (f : Field) (v : Word) (u : State) (hu : u.cfg = s.cfg) (hp : plainField f = true) (hf : f ≠ .pllon) :
      wrfF f v u = u.hwSet f v := wrfF_store u (hu ▸ h) f v hp hf
  simp only [startSerial]
  rw [store .br _ _ rfl rfl (by decide), store .rxneie _ _ (by simp) rfl (by decide), store .errie _ _ (by simp) rfl (by decide),
    store .spe _ _ (by simp) rfl (by decide)]

/-- After `SER_INIT` the peripheral and the two interrupts it enables are on (R182). -/
theorem flag_startSerial (k : Nat) (s : State) (h : layoutOk s.cfg = true) :
    (startSerial k s).flag .spe = true ∧ (startSerial k s).flag .rxneie = true ∧ (startSerial k s).flag .errie = true := by
  have hc := layoutOk_configOk _ h
  have on (u : State) (hu : u.cfg = s.cfg) (f : Field) : (u.hwSet f 1).flag f = true :=
    (flag_true_iff _ _).2 (field_hwSet_bit u (hu ▸ hc) f 1 (by decide))
  have other (u : State) (hu : u.cfg = s.cfg) (f g : Field) (hne : f ≠ g) (v : Word) : (u.hwSet f v).flag g = u.flag g :=
    flag_hwSet_other u (hu ▸ hc) f g v hne
  rw [startSerial_eq_hwSet k s h]
  refine ⟨on _ (by simp) .spe, (other _ (by simp) .spe .rxneie (by decide) 1).trans ?_,
    (other _ (by simp) .spe .errie (by decide) 1).trans ?_⟩
  · exact (other _ (by simp) .errie .rxneie (by decide) 1).trans (on _ (by simp) .rxneie)
  · exact on _ (by simp) .errie

theorem startSerial_serialInv {s : State} (h : SerialInv s) (k : Nat) : SerialInv (startSerial k s) := by
  obtain ⟨ser, he⟩ := startSerial_eq k s (layoutOk_configOk _ h.layout)
  have hon := flag_startSerial k s h.layout
  rw [he] at hon ⊢
  exact { layout := h.layout, txCap := h.txCap, rxCap := h.rxCap, txSize := h.txSize, rxSize := h.rxSize, persists := .inl rfl,
          masked := h.masked, quiet := nofun, enabled := fun _ => hon }

/-- `SER_SEND` sets `TXEIE` alone, and only after `SER_INIT` (R183). -/
theorem enqueue_serialInv {s : State} (h : SerialInv s) (hi : s.serInited = true) (data : List Byte) : SerialInv (enqueue data s) := by
  have keeps (g : Field) (hg : Field.txeie ≠ g) : (enqueue data s).field g = s.field g :=
    field_wrfF_other { s with txFifo := s.txFifo.pushAll data } h.layout .txeie g 1 rfl hg rfl
  have hon := h.enabled hi
  simp only [State.flag, ← keeps .spe (by decide), ← keeps .rxneie (by decide), ← keeps .errie (by decide)] at hon
  obtain ⟨ser, he⟩ := enqueue_eq data s (layoutOk_configOk _ h.layout)
  obtain ⟨hcap, hsize⟩ := pushAll_bounded data s.txFifo h.txSize
  rw [he] at hon ⊢
  exact { layout := h.layout, txCap := hcap.trans h.txCap, rxCap := h.rxCap, txSize := hcap.symm ▸ hsize, rxSize := h.rxSize,
          persists := .inr rfl, masked := h.masked, quiet := fun h0 => Bool.noConfusion (h0.symm.trans hi), enabled := fun _ => hon }

/-! Handler rules. -/

theorem setWord_word_self (s : State) (r : Reg) : s.setWord r (s.word r) = s := by cases r <;> rfl

/-- Reading the data register and the status register clears `RXNE` and `OVR`, no more (R67). -/
theorem clearOverrun_eq (s : State) : clearOverrun s = (s.hwSet .rxne 0).hwSet .ovr 0 := rfl

/-- Writing `SER_CR1` back changes nothing, so the sequence of R67 clears `MODF`, no more. -/
theorem clearModeFault_eq (s : State) (h : layoutOk s.cfg = true) : clearModeFault s = s.hwSet .modf 0 := by
  have hw : regWrite .serCr1 (s.word .serCr1) s = s :=
    (regWrite_plain .serCr1 _ s h (by decide)).trans (setWord_word_self s .serCr1)
  exact congrArg (fun u : State => u.hwSet .modf 0) hw

/-- The enables that no handler touches (R191 to R195). -/
def lastingEnable : Field → Bool
  | .spe | .rxneie | .errie => true
  | .pllon | .pllrdy | .pllm | .plln | .pllp | .pllsrc | .pllq | .sw | .sws | .hpre | .ppre1 | .ppre2 | .br | .txeie
  | .rxne | .txe | .crcerr | .modf | .ovr => false

theorem handlerRule_field (c : Cause) (s : State) (h : layoutOk s.cfg = true) (g : Field) (hg : lastingEnable g = true) :
    (handlerRule c s).field g = s.field g := by
  have hc := layoutOk_configOk _ h
  have other (u : State) (hu : u.cfg = s.cfg) (f : Field) (hf : lastingEnable f = false) (v : Word) : (u.hwSet f v).field g = u.field g :=
    field_hwSet_other u (hu ▸ hc) f g v (field_ne lastingEnable hg hf).symm
  cases c with
  | txEmpty =>
    simp only [handlerRule, handleTxEmpty]
    split
    · exact field_wrfF_other s h .txeie g 0 rfl (field_ne lastingEnable hg rfl).symm rfl
    · rename_i b rest _
      exact other { s with txFifo := rest, ser := { s.ser with drTx := (b.setWidth 32).setWidth 8 }, txWire := s.txWire ++ [_] } rfl .txe
        rfl 0
  | rxAvailable =>
    simp only [handlerRule, handleRxAvailable]
    split
    · exact other (setSerState .receiving s) rfl .rxne rfl 0
    · exact other (setSerState .receiving s) rfl .rxne rfl 0
  | overrun =>
    exact (other ((setSerState .error s).hwSet .rxne 0) (hwSet_cfg _ _ _) .ovr rfl 0).trans (other (setSerState .error s) rfl .rxne rfl 0)
  | modeFault =>
    simp only [handlerRule, handleModeFault, clearModeFault_eq (setSerState .error s) h]
    exact other (setSerState .error s) rfl .modf rfl 0
  | crcError =>
    simp only [handlerRule, handleCrcError, wrfF_crcerr_clear (setSerState .error s) h]
    exact other (setSerState .error s) rfl .crcerr rfl 0

/-- A handler rule takes at most one byte from the send buffer (R191). -/
theorem handlerRule_txFifo (c : Cause) (s : State) :
    (handlerRule c s).txFifo.cap = s.txFifo.cap ∧ (handlerRule c s).txFifo.size ≤ s.txFifo.size := by
  cases c with
  | txEmpty =>
    simp only [handlerRule, handleTxEmpty]
    split
    · simp
    · rename_i hp
      simpa using pop_bounded hp
  | rxAvailable =>
    simp only [handlerRule, handleRxAvailable]
    split <;> simp
  | overrun => simp [handlerRule, handleOverrun, clearOverrun]
  | modeFault => simp [handlerRule, handleModeFault, clearModeFault]
  | crcError => simp [handlerRule, handleCrcError]

/-- A handler rule puts no byte into a full receive buffer (R192). -/
theorem handlerRule_rxFifo (c : Cause) (s : State) (h : s.rxFifo.size ≤ s.rxFifo.cap) :
    (handlerRule c s).rxFifo.cap = s.rxFifo.cap ∧ (handlerRule c s).rxFifo.size ≤ s.rxFifo.cap := by
  cases c with
  | txEmpty =>
    simp only [handlerRule, handleTxEmpty]
    split <;> simpa using h
  | rxAvailable =>
    simp only [handlerRule, handleRxAvailable]
    split
    · rename_i hp
      simpa using push_bounded hp
    · simpa using h
  | overrun => simpa [handlerRule, handleOverrun, clearOverrun] using h
  | modeFault => simpa [handlerRule, handleModeFault, clearModeFault] using h
  | crcError => simpa [handlerRule, handleCrcError] using h

/-- `receiving` and `error` are passed through: a handler rule ends in `idle` or in the state it found (R45). -/
theorem handlerRule_serState (c : Cause) (s : State) : (handlerRule c s).serState = .idle ∨ (handlerRule c s).serState = s.serState := by
  cases c with
  | txEmpty =>
    simp only [handlerRule, handleTxEmpty]
    split <;> simp
  | rxAvailable => exact .inr rfl
  | overrun => exact .inl rfl
  | modeFault => exact .inl rfl
  | crcError => exact .inl rfl

/-- A delivered event finds the engine initialised, so that `TXEIE` may fall or stay (R287). -/
theorem event_serialInv {c : Cause} {s t : State} (h : SerialInv s) (hx : exec c.instr s = .next t) : SerialInv t := by
  have hc := layoutOk_configOk _ h.layout
  rcases event_next c s t hx with rfl | ⟨hm, -, hi, -, rfl⟩
  · exact h
  have keeps (g : Field) (hg : lastingEnable g = true) : (leaveHandler (handlerRule c (enterHandler s))).field g = s.field g :=
    handlerRule_field c (enterHandler s) h.layout g hg
  obtain ⟨htxCap, htxSize⟩ := handlerRule_txFifo c (enterHandler s)
  obtain ⟨hrxCap, hrxSize⟩ := handlerRule_rxFifo c (enterHandler s) h.rxSize
  obtain ⟨_, _, _, _, _, _, _, hr⟩ := handlerRule_frame c (enterHandler s) hc
  have hcfg : (handlerRule c (enterHandler s)).cfg = s.cfg := by rw [hr]; rfl
  have hinit : (handlerRule c (enterHandler s)).serInited = true := by rw [hr]; exact hi
  constructor
  case layout => exact hcfg.symm ▸ h.layout
  case txCap => exact htxCap.trans (h.txCap.trans (congrArg Config.txCap hcfg.symm))
  case rxCap => exact hrxCap.trans (h.rxCap.trans (congrArg Config.rxCap hcfg.symm))
  case txSize => exact htxCap.symm ▸ Nat.le_trans htxSize h.txSize
  case rxSize => exact hrxCap.symm ▸ hrxSize
  case persists => exact (handlerRule_serState c (enterHandler s)).elim .inl fun hs => hs.symm ▸ h.persists
  case masked => rfl
  case quiet => exact fun h0 => Bool.noConfusion (h0.symm.trans hinit)
  case enabled =>
    intro _
    simpa only [State.flag, keeps .spe rfl, keeps .rxneie rfl, keeps .errie rfl] using h.enabled hi

/-! Every turn. -/

theorem exec_serialInv {i : Instr} {s t : State} (h : SerialInv s) (hx : exec i s = .next t) : SerialInv t := by
  have hc := layoutOk_configOk _ h.layout
  cases instrKind i with
  | clock _ hi => exact clockFrame_serialInv h (clockCommand_frame i s t hc hi hx)
  | serInit target =>
    obtain ⟨-, rfl | ⟨k, rfl⟩⟩ := execSerInit_next target s t hx
    · exact serialInv_respond h .configError 0
    · exact serialInv_respond (startSerial_serialInv h k) .ok 0
  | serSend size data =>
    obtain ⟨hi, rfl | rfl⟩ := execSerSend_next size data s t hx
    · exact serialInv_respond h .bufferFull 0
    · exact serialInv_respond (enqueue_serialInv h hi data) .ok 0
  | serRecv =>
    obtain rfl | ⟨b, rest, hq, rfl⟩ := execSerRecv_next s t hx
    · exact serialInv_respond h .bufferEmpty 0
    · have hsize : rest.length ≤ s.rxFifo.cap := by
        have := h.rxSize
        rw [Fifo.size, hq, List.length_cons] at this
        omega
      exact serialInv_respond (s := { s with rxFifo := { s.rxFifo with q := rest } })
        (serialInv_congr h rfl rfl (fun _ _ => rfl) ⟨rfl, h.txSize⟩ ⟨rfl, hsize⟩ h.persists h.masked) .ok _
  | serStat sel =>
    obtain ⟨v, draws, he⟩ := execSerStat_eq sel s
    cases he.symm.trans hx
    exact serialInv_ports h _ _ _ _ _ draws
  | event c => exact event_serialInv h hx

/-- The data latch of the receive side is no field (R36, R125). -/
theorem field_drRx (s : State) (h : configOk s.cfg = true) (b : Byte) (f : Field) :
    { s with ser := { s.ser with drRx := b } }.field f = s.field f := by
  have hne := desc_ne_serDr s.cfg h f
  simp only [State.field, State.desc]
  generalize desc s.cfg f = d at hne ⊢
  congr 1
  revert hne
  cases d.reg <;> simp [State.word]

/-- No hardware step reaches an enable (R220, R224). -/
theorem envStep_field (e : EnvStep) (s : State) (h : configOk s.cfg = true) (g : Field) (hg : enableField g = true) :
    (envStep e s).field g = s.field g := by
  have other (u : State) (hu : u.cfg = s.cfg) (f : Field) (hf : enableField f = false) (v : Word) : (u.hwSet f v).field g = u.field g :=
    field_hwSet_other u (hu ▸ h) f g v (field_ne enableField hg hf).symm
  unfold envStep
  split
  case isFalse => rfl
  case isTrue =>
    cases e with
    | lock => exact other s rfl .pllrdy rfl 1
    | switch => exact other s rfl .sws rfl _
    | txDone => exact other s rfl .txe rfl 1
    | rxByte b =>
      simp only [envEffect]
      split
      · exact (other { s with ser := { s.ser with drRx := b } } rfl .rxne rfl 1).trans (field_drRx s h b g)
      · exact other s rfl .ovr rfl 1
    | fault f => exact other s rfl (lineFaultField f) (by cases f <;> rfl) 1

theorem envStep_serialInv {s : State} (h : SerialInv s) (e : EnvStep) : SerialInv (envStep e s) := by
  have keeps := envStep_field e s (layoutOk_configOk _ h.layout)
  obtain ⟨_, _, he⟩ := envStep_eq e s
  rw [he] at keeps ⊢
  exact serialInv_of_fields h rfl rfl keeps rfl rfl rfl rfl

theorem turn_serialInv {s t : State} {u : Turn} (h : SerialInv s) (ht : TurnTaken s t u) : SerialInv t := by
  cases ht with
  | noCommand _ ht => exact ht ▸ h
  | illegal _ rest _ _ ht => exact ht ▸ serialInv_ports h _ _ _ rest _ _
  | command i rest _ _ ht => exact exec_serialInv (serialInv_ports h _ _ _ rest _ _) ht
  | pllPoll _ ht => exact clockFrame_serialInv h (cfgPllWait_frame s t ht)
  | swPoll _ ht => exact clockFrame_serialInv h (setSysclkWait_frame s t ht)
  | event c ht => exact event_serialInv h ht
  | env e ht => exact ht ▸ envStep_serialInv h e

/-- Settles O22: the placed turns and the draw counter are no part of the serial engine, and every turn keeps the invariants. -/
theorem serialInvariantsKept : Obligations.SerialInvariantsKept := by
  intro s t h hstep
  obtain ⟨-, turns, draws, ht⟩ := step_taken s t hstep
  exact turn_serialInv (serialInv_ports h _ _ _ _ turns draws) ht

end Sys2Proof.Machine
end

section
/-! PROOF. The reset state (R50, R271): what its register words hold, and the invariants of both engines in it. -/
namespace Sys2Proof.Machine

open Sys2Proof.Safety

/-! Reset words. -/

/-- One step of `resetWord`: a field of the register takes its reset value. -/
def resetField (c : Config) (r : Reg) (w : Word) (f : Field) : Word :=
  if (desc c f).reg = r then insertField (desc c f) w (resetValue f) else w

theorem resetWord_eq (c : Config) (r : Reg) (other : Word) : resetWord c r other = allFields.foldl (resetField c r) other := rfl

/-- A bit outside the register's fields is as the launch parameter says. -/
theorem getLsbD_foldl_resetField (c : Config) (r : Reg) (fs : List Field) (w : Word) (i : Nat)
    (h : ∀ f ∈ fs, (desc c f).reg = r → i < (desc c f).offset ∨ (desc c f).offset + (desc c f).width ≤ i) :
    (fs.foldl (resetField c r) w).getLsbD i = w.getLsbD i := by
  induction fs generalizing w with
  | nil => rfl
  | cons f fs ih =>
    rw [List.foldl_cons, ih _ fun g hg => h g (List.mem_cons_of_mem f hg)]
    unfold resetField
    split
    case isTrue hr =>
      have hi := h f List.mem_cons_self hr
      rw [getLsbD_insertField, if_neg (by omega)]
    case isFalse => rfl

/-- The steps of other fields leave a field as it is (R62). -/
theorem extract_foldl_resetField_other (c : Config) (hc : configOk c = true) (r : Reg) (f : Field) (hf : (desc c f).reg = r)
    (fs : List Field) (h : f ∉ fs) (w : Word) : extractField (desc c f) (fs.foldl (resetField c r) w) = extractField (desc c f) w := by
  induction fs generalizing w with
  | nil => rfl
  | cons g gs ih =>
    simp only [List.mem_cons, not_or] at h
    rw [List.foldl_cons, ih h.2]
    unfold resetField
    split
    case isTrue hr => exact extract_insert_apart _ _ _ _ (desc_apart c hc g f (Ne.symm h.1) (hr.trans hf.symm))
    case isFalse => rfl

/-- A field among the steps ends at its reset value. -/
theorem extract_foldl_resetField (c : Config) (hc : configOk c = true) (r : Reg) (f : Field) (hf : (desc c f).reg = r)
    (fs : List Field) (hmem : f ∈ fs) (hnd : fs.Nodup) (w : Word) :
    extractField (desc c f) (fs.foldl (resetField c r) w) = resetValue f &&& mask (desc c f).width := by
  induction fs generalizing w with
  | nil => cases hmem
  | cons g gs ih =>
    rw [List.nodup_cons] at hnd
    rw [List.foldl_cons]
    rcases List.mem_cons.1 hmem with rfl | hlater
    · rw [extract_foldl_resetField_other c hc r f hf gs hnd.1, resetField, if_pos hf]
      exact extract_insert_same _ _ _ (desc_fits c hc f)
    · exact ih hlater hnd.2 _

theorem extract_resetWord (c : Config) (hc : configOk c = true) (f : Field) (other : Word) :
    extractField (desc c f) (resetWord c (desc c f).reg other) = resetValue f &&& mask (desc c f).width :=
  extract_foldl_resetField c hc _ f rfl allFields (mem_allFields f) (by decide) other

/-- Outside the fields the rules put in a register its reset word is the launch parameter (R50). -/
theorem sameOutside_resetWord (c : Config) (h : layoutOk c = true) (r : Reg) (fs : List Field) (hfs : ∀ f, fieldReg f = r → f ∈ fs)
    (other : Word) : SameOutsideFields c fs other (resetWord c r other) := by
  intro i hi
  rw [resetWord_eq, getLsbD_foldl_resetField]
  exact fun f _ hr => hi f (hfs f ((layoutOk_field c h f).1.symm.trans hr))

/-! The reset state. -/

theorem resetValue_fits (f : Field) : (resetValue f).toNat < 2 ^ fieldWidth f := by cases f <;> decide

/-- Every register with fields holds its reset word. -/
theorem word_resetFrom (c : Config) (f : Field) : ∃ other, (State.resetFrom c).word (fieldReg f) = resetWord c (fieldReg f) other := by
  cases f <;> exact ⟨_, rfl⟩

/-- After reset every named field has its reset value (R31 to R36, R50). -/
theorem field_resetFrom (c : Config) (h : layoutOk c = true) (f : Field) : (State.resetFrom c).field f = resetValue f := by
  obtain ⟨other, hw⟩ := word_resetFrom c f
  have hd : (State.resetFrom c).desc f = desc c f := rfl
  rw [← (layoutOk_field c h f).1] at hw
  rw [State.field, hd, hw, extract_resetWord c (layoutOk_configOk c h)]
  exact and_mask_desc (State.resetFrom c) h f _ (resetValue_fits f)

theorem flag_resetFrom (c : Config) (h : layoutOk c = true) (f : Field) : (State.resetFrom c).flag f = (resetValue f == 1) := by
  rw [State.flag, field_resetFrom c h f]

/-- Settles O19: the named fields by their reset values, the other bits by the launch parameters. -/
theorem resetValues : Obligations.ResetValues := by
  intro c s h hs
  subst hs
  have hf := field_resetFrom c h
  have outside (r : Reg) (fs : List Field) (hfs : ∀ f, fieldReg f = r → f ∈ fs) (other : Word) := sameOutside_resetWord c h r fs hfs other
  refine ⟨⟨rfl, rfl, rfl, rfl, rfl, rfl, rfl, rfl, rfl, rfl⟩, rfl, ⟨hf .pllon, hf .pllrdy⟩,
    ⟨hf .pllm, hf .plln, hf .pllp, hf .pllsrc, hf .pllq⟩, ⟨hf .sw, hf .sws, hf .hpre, hf .ppre1, hf .ppre2⟩, ⟨rfl, rfl, rfl, rfl, rfl⟩,
    ⟨hf .br, hf .spe, hf .errie, hf .rxneie, hf .txeie⟩, ⟨hf .rxne, hf .txe, hf .crcerr, hf .modf, hf .ovr⟩,
    ⟨outside .rccCr _ ?_ _, outside .rccPllcfgr _ ?_ _, outside .rccCfgr _ ?_ _, outside .serCr1 _ ?_ _, outside .serCr2 _ ?_ _,
      outside .serSr _ ?_ _⟩, rfl, rfl, rfl, rfl, rfl, rfl⟩
  all_goals
    intro f
    cases f <;> decide

/-- With no division selected the three clocks are the system clock (R144, R145). -/
theorem snapshotOf_undivided (hz : Word) : snapshotOf hz.toNat 0 0 0 = ⟨hz, hz, hz, hz, 0, 0, 0⟩ := by
  simp [snapshotOf]

/-- After reset the snapshot is that of the undivided internal oscillator (R50, R22). -/
theorem snapshotFresh_resetFrom (c : Config) (h : layoutOk c = true) : SnapshotFresh (State.resetFrom c) := by
  have hf := field_resetFrom c h
  refine ⟨c.hsiHz.toNat, ⟨⟨.hsi, ⟨hf .sws, nofun⟩, rfl⟩, c.hsiHz.isLt⟩, ?_⟩
  have hshifts : liveShifts (State.resetFrom c) = (0, 0, 0) := by
    simp only [liveShifts, rdfF_eq_field, hf]
    rfl
  rw [liveSnapshot, hshifts]
  exact (snapshotOf_undivided c.hsiHz).symm

theorem clockInv_resetFrom (c : Config) (h : layoutOk c = true) : ClockInv (State.resetFrom c) := by
  have hf := field_resetFrom c h
  have hflag := flag_resetFrom c h
  constructor
  case layout => exact h
  case pllOff => exact fun _ => hflag .pllrdy
  case settled => exact fun _ => (hf .sw).trans (hf .sws).symm
  case legalSw => rw [hf .sw]; decide
  case legalSws => rw [hf .sws]; decide
  case swReady => rw [hf .sw]; exact fun h2 => absurd h2 (by decide)
  case swsReady => rw [hf .sws]; exact fun h2 => absurd h2 (by decide)
  case configured => exact fun hon => Bool.noConfusion (hon.symm.trans (hflag .pllon))
  case locking => nofun
  case latch => trivial
  case fresh => exact fun _ => snapshotFresh_resetFrom c h
  case ahbLe => exact BitVec.le_refl _
  case apb1Le => exact BitVec.le_refl _
  case apb2Le => exact BitVec.le_refl _

theorem serialInv_resetFrom (c : Config) (h : layoutOk c = true) : SerialInv (State.resetFrom c) where
  layout := h
  txCap := rfl
  rxCap := rfl
  txSize := Nat.zero_le _
  rxSize := Nat.zero_le _
  persists := .inl rfl
  masked := rfl
  quiet := fun _ cause => (flag_resetFrom c h _).trans (by cases cause <;> decide)
  enabled := nofun

/-- Settles O20. -/
theorem resetMeetsInvariants : Obligations.ResetMeetsInvariants :=
  fun c h => ⟨clockInv_resetFrom c h, serialInv_resetFrom c h⟩

end Sys2Proof.Machine
end

section
/-! PROOF. The bus prescaler commands (R154 to R156): a write of the one field, then `SAVE_CLK` with the same source. -/
namespace Sys2Proof.Machine

open Sys2Proof.Safety

/-! The write of a prescaler. -/

theorem prescaler_fieldReg {f : Field} : prescaler f = true → fieldReg f = .rccCfgr := by cases f <;> decide

theorem prescaler_plain {f : Field} : prescaler f = true → plainField f = true := by cases f <;> decide

/-- A prescaler write replaces its field in `RCC_CFGR` and nothing else (R121). -/
theorem wrfF_prescaler (s : State) (h : layoutOk s.cfg = true) (f : Field) (v : Word) (hf : prescaler f = true) :
    wrfF f v s = { s with rcc := { s.rcc with cfgr := insertField (s.desc f) s.rcc.cfgr v } } := by
  rw [wrfF_store s h f v (prescaler_plain hf) (field_ne prescaler hf rfl), State.hwSet, desc_reg s h, prescaler_fieldReg hf]
  rfl

/-- No other field reads differently after it (R123 b). -/
theorem field_wrfF_prescaler_other (s : State) (h : layoutOk s.cfg = true) (f : Field) (v : Word) (hf : prescaler f = true) (g : Field)
    (hne : f ≠ g) : (wrfF f v s).field g = s.field g :=
  field_wrfF_other s h f g v (prescaler_plain hf) hne (disturbs_eq_false (field_ne prescaler hf rfl) g)

theorem sameOutside_insertField (c : Config) (f : Field) (w v : Word) : SameOutsideFields c [f] w (insertField (desc c f) w v) := by
  intro i hi
  have hout := hi f List.mem_cons_self
  rw [getLsbD_insertField, if_neg (by omega)]

/-! `SAVE_CLK` after it. -/

/-- The clock status and the PLL's divisor decide the two faults, before the write as after it (R141, 93 U5, U6). -/
theorem prescaler_faults (s : State) (h : layoutOk s.cfg = true) (f : Field) (v : Word) (hf : prescaler f = true) :
    (2 < (s.field .sws).toNat → saveAndRespond (wrfF f v s) = .fault .reservedClockStatus) ∧
    (s.field .sws = 2 → s.field .pllm = 0 → saveAndRespond (wrfF f v s) = .fault .livePllMZero) := by
  have hsws := field_wrfF_prescaler_other s h f v hf .sws (field_ne prescaler hf rfl)
  have hm := field_wrfF_prescaler_other s h f v hf .pllm (field_ne prescaler hf rfl)
  constructor
  · intro hr
    exact saveAndRespond_error _ _ (systemHz_reserved _ (hsws.symm ▸ hr))
  · intro h2 h0
    exact saveAndRespond_error _ _ (systemHz_mZero _ (hsws.trans h2) (hm.trans h0))

/-- With an active source the command completes with that source's frequency (R141 to R143): exactly the field is written, and besides
the snapshot, the draw counter and the command's completion nothing changes. -/
theorem prescaler_completes (s : State) (h : layoutOk s.cfg = true) (f : Field) (v : Word) (hf : prescaler f = true)
    (hv : v.toNat < 2 ^ fieldWidth f) (src : ClkSrc) (ha : ActiveSource src s) :
    ∃ t, saveAndRespond (wrfF f v s) = .next t ∧ t.field f = v ∧ SameOutsideFields s.cfg [f] s.rcc.cfgr t.rcc.cfgr ∧
      t = { s with
        rcc := { s.rcc with cfgr := t.rcc.cfgr }, snap := t.snap, draws := t.draws, resp := some ⟨.ok, 0⟩, seq := .idle, op := none } ∧
      (sourceHz src s < 2 ^ 32 → t.snap = liveSnapshot (sourceHz src s) (wrfF f v s) ∧ t.draws = s.draws) := by
  have keeps (g : Field) (hg : prescaler g = false) : (wrfF f v s).field g = s.field g :=
    field_wrfF_prescaler_other s h f v hf g (field_ne prescaler hf hg)
  have hactive : ActiveSource src (wrfF f v s) := by
    simpa only [ActiveSource, keeps .sws rfl, keeps .pllm rfl] using ha
  have hhz : sourceHz src (wrfF f v s) = sourceHz src s := by
    cases src <;> simp only [sourceHz, keeps .pllm rfl, keeps .plln rfl, keeps .pllp rfl, wrfF_cfg, wrfF_pllOscHz]
  obtain ⟨snap, draws, hx, hlive⟩ := saveAndRespond_ok _ src hactive
  rw [hhz, wrfF_draws] at hlive
  refine ⟨_, hx, field_wrfF_value s h f v (prescaler_plain hf) hv, ?_, ?_, hlive⟩
  · rw [wrfF_prescaler s h f v hf]
    exact sameOutside_insertField s.cfg f s.rcc.cfgr v
  · rw [wrfF_prescaler s h f v hf]
    rfl

/-! The two APB prescalers. -/

theorem apbPreWord_fits (pre : ApbPre) : (apbPreWord pre).toNat < 2 ^ 3 := by cases pre <;> decide

/-- A setting's register code selects its shift (R145). -/
theorem apbShift_apbPreWord (t : ApbShifts) (pre : ApbPre) : apbShift t (apbPreWord pre).toNat = apbPreShift t pre := by
  cases pre <;> rfl

/-- The live snapshot after a write of `PPRE1`: only that shift is the new setting's. -/
theorem liveSnapshot_ppre1 (s : State) (h : layoutOk s.cfg = true) (pre : ApbPre) (sys : Nat) :
    liveSnapshot sys (wrfF .ppre1 (apbPreWord pre) s) =
      snapshotOf sys (liveShifts s).1 (apbPreShift s.cfg.apbShifts pre) (liveShifts s).2.2 := by
  have keeps := field_wrfF_prescaler_other s h .ppre1 (apbPreWord pre) rfl
  simp only [liveSnapshot, liveShifts, rdfF_eq_field, wrfF_cfg, keeps .hpre (by decide), keeps .ppre2 (by decide),
    field_wrfF_value s h .ppre1 _ rfl (apbPreWord_fits pre), apbShift_apbPreWord]

theorem liveSnapshot_ppre2 (s : State) (h : layoutOk s.cfg = true) (pre : ApbPre) (sys : Nat) :
    liveSnapshot sys (wrfF .ppre2 (apbPreWord pre) s) =
      snapshotOf sys (liveShifts s).1 (liveShifts s).2.1 (apbPreShift s.cfg.apbShifts pre) := by
  have keeps := field_wrfF_prescaler_other s h .ppre2 (apbPreWord pre) rfl
  simp only [liveSnapshot, liveShifts, rdfF_eq_field, wrfF_cfg, keeps .hpre (by decide), keeps .ppre1 (by decide),
    field_wrfF_value s h .ppre2 _ rfl (apbPreWord_fits pre), apbShift_apbPreWord]

/-- A fresh snapshot is the live one at the active source's frequency, which fits a data register. -/
theorem snapshotFresh_active {s : State} (hfresh : SnapshotFresh s) (src : ClkSrc) (ha : ActiveSource src s) :
    sourceHz src s < 2 ^ 32 ∧ s.snap = liveSnapshot (sourceHz src s) s := by
  obtain ⟨sys, ⟨⟨src', ha', rfl⟩, hlt⟩, hs⟩ := hfresh
  cases activeSource_unique s src src' ha ha'
  exact ⟨hlt, hs⟩

/-- Settles O36: with the snapshot fresh, the new one differs from it only by the shift of `PPRE1`. -/
theorem cfgApb1Effect : Obligations.CfgApb1Effect := by
  intro s pre h
  obtain ⟨hreserved, hzero⟩ := prescaler_faults s h .ppre1 (apbPreWord pre) rfl
  refine ⟨hreserved, hzero, fun src ha => ?_⟩
  obtain ⟨t, hx, hfield, hout, hframe, hlive⟩ := prescaler_completes s h .ppre1 _ rfl (apbPreWord_fits pre) src ha
  rw [liveSnapshot_ppre1 s h pre] at hlive
  refine ⟨t, hx, hfield, hout, hframe, hlive, fun hfresh => ?_⟩
  obtain ⟨hlt, hs⟩ := snapshotFresh_active hfresh src ha
  rw [(hlive hlt).1, hs]
  rfl

/-- Settles O37: likewise for the shift of `PPRE2`. -/
theorem cfgApb2Effect : Obligations.CfgApb2Effect := by
  intro s pre h
  obtain ⟨hreserved, hzero⟩ := prescaler_faults s h .ppre2 (apbPreWord pre) rfl
  refine ⟨hreserved, hzero, fun src ha => ?_⟩
  obtain ⟨t, hx, hfield, hout, hframe, hlive⟩ := prescaler_completes s h .ppre2 _ rfl (apbPreWord_fits pre) src ha
  rw [liveSnapshot_ppre2 s h pre] at hlive
  refine ⟨t, hx, hfield, hout, hframe, hlive, fun hfresh => ?_⟩
  obtain ⟨hlt, hs⟩ := snapshotFresh_active hfresh src ha
  rw [(hlive hlt).1, hs]
  rfl

end Sys2Proof.Machine
end

section
/-! PROOF. Bus accesses to the mapped words (20_memory R60 to R70): what a write stores, what a data-register access does besides, and
the address map. -/
namespace Sys2Proof.Machine

open Sys2Proof.Safety

/-! Bits of a field, inside and outside. -/

theorem getLsbD_fieldMask_outside (d : Desc) (i : Nat) (hi : i < d.offset ∨ d.offset + d.width ≤ i) :
    (fieldMask d).getLsbD i = false := by
  simp only [getLsbD_fieldMask, Bool.and_eq_false_iff, decide_eq_false_iff_not]
  omega

/-- Clearing a field clears the bits of its mask. -/
theorem getLsbD_insertField_zero (d : Desc) (w : Word) (i : Nat) :
    (insertField d w 0).getLsbD i = (w.getLsbD i && !(fieldMask d).getLsbD i) := by
  rw [getLsbD_insertField]
  split
  case isTrue hin =>
    by_cases hi : i < 32
    · simp [getLsbD_fieldMask, hin, hi]
    · simp [BitVec.getLsbD_of_ge w i (by omega)]
  case isFalse hout => rw [getLsbD_fieldMask_outside d i (by omega), Bool.not_false, Bool.and_true]

/-- Anding a word with one that is free only inside a field ands just the field. -/
theorem extract_and_or_not_fieldMask (d : Desc) (w v : Word) (hd : d.offset + d.width ≤ 32) :
    extractField d (w &&& (v ||| ~~~(fieldMask d))) = extractField d w &&& extractField d v := by
  apply BitVec.eq_of_getLsbD_eq
  intro i _
  simp only [BitVec.getLsbD_and, BitVec.getLsbD_or, BitVec.getLsbD_not, getLsbD_extractField, getLsbD_fieldMask]
  by_cases hi : i < d.width
  · have hword : d.offset + i < 32 := by omega
    simp [hi, hword]
  · simp [hi]

theorem sameOutside_and_or_not_fieldMask (c : Config) (f : Field) (w v : Word) :
    SameOutsideFields c [f] w (w &&& (v ||| ~~~(fieldMask (desc c f)))) := by
  intro i hi
  have hmask := getLsbD_fieldMask_outside (desc c f) i (hi f List.mem_cons_self)
  rw [BitVec.getLsbD_and, BitVec.getLsbD_or, BitVec.getLsbD_not, hmask]
  by_cases hw : i < 32
  · simp [hw]
  · simp [BitVec.getLsbD_of_ge w i (by omega)]

/-! A field in the register the rules name for it. -/

theorem field_eq_extract (s : State) (h : layoutOk s.cfg = true) (f : Field) :
    s.field f = extractField (s.desc f) (s.word (fieldReg f)) := by rw [State.field, desc_reg s h]

theorem field_setWord_own (s : State) (h : layoutOk s.cfg = true) (f : Field) (v : Word) :
    (s.setWord (fieldReg f) v).field f = extractField (s.desc f) v := by
  rw [field_setWord _ _ _ _ (fieldReg_ne_serDr f), if_pos (desc_reg s h f)]

/-! What a whole-word write stores (R66, R68). -/

/-- Two stores into one register leave the second word. -/
theorem setWord_setWord (s : State) (r : Reg) (v w : Word) : (s.setWord r v).setWord r w = s.setWord r w := by cases r <;> rfl

theorem word_setWord_same (s : State) (r : Reg) (v : Word) (hr : r ≠ .serDr) : (s.setWord r v).word r = v := by
  rw [word_setWord, if_pos ⟨rfl, hr⟩]

/-- Every write but that of the data register is the store of one word; into `RCC_CR` with `PLLON` 0 the word has `PLLRDY` cleared. -/
theorem regWrite_eq_store (r : Reg) (v : Word) (s : State) (h : layoutOk s.cfg = true) (hr : r ≠ .serDr) :
    regWrite r v s = s.setWord r
      (if r = .rccCr ∧ extractField (s.desc .pllon) v = 0 then insertField (s.desc .pllrdy) (writtenWord s.cfg r (s.word r) v) 0
       else writtenWord s.cfg r (s.word r) v) := by
  have hpllon : (s.desc .pllon).reg = r ↔ r = .rccCr := (desc_reg s h .pllon).symm ▸ eq_comm
  simp only [regWrite_of_ne r v s hr, hpllon]
  split
  case isTrue hstop =>
    obtain ⟨rfl, -⟩ := hstop
    rw [State.hwSet, State.desc, setWord_cfg, (layoutOk_field s.cfg h .pllrdy).1, fieldReg, setWord_setWord, word_setWord_same _ _ _ hr]
    rfl
  case isFalse => rfl

/-- The frame of every such write: its own register's word. -/
theorem regWrite_frame (r : Reg) (v : Word) (s : State) (h : layoutOk s.cfg = true) (hr : r ≠ .serDr) :
    regWrite r v s = s.setWord r ((regWrite r v s).word r) := by
  rw [regWrite_eq_store r v s h hr, word_setWord_same _ _ _ hr]

/-- Bit by bit, outside the serial block's status and data registers: the hardware's bits as before, but for a cleared `PLLRDY`, every
other bit as written. -/
theorem getLsbD_word_regWrite (r : Reg) (v : Word) (s : State) (h : layoutOk s.cfg = true) (hd : r ≠ .serDr) (hs : r ≠ .serSr) (i : Nat) :
    ((regWrite r v s).word r).getLsbD i =
      if (hardwareBits s.cfg r).getLsbD i then
        (s.word r).getLsbD i && !decide (r = .rccCr ∧ extractField (s.desc .pllon) v = 0)
      else v.getLsbD i := by
  have hkept : writtenWord s.cfg r (s.word r) v = keepBits (hardwareBits s.cfg r) (s.word r) v :=
    writtenWord_keeps _ _ _ _ ((clearOnlyBits_rules _ h r).trans (if_neg hs))
  rw [regWrite_eq_store r v s h hd, word_setWord_same _ _ _ hd, hkept]
  split
  case isTrue hstop =>
    obtain ⟨rfl, hv⟩ := hstop
    have hbits : hardwareBits s.cfg .rccCr = fieldMask (s.desc .pllrdy) := hardwareBits_rules _ h _
    rw [getLsbD_insertField_zero, getLsbD_keepBits, hbits, decide_eq_true ⟨rfl, hv⟩]
    cases (fieldMask (s.desc .pllrdy)).getLsbD i <;> simp
  case isFalse hgo => rw [getLsbD_keepBits, decide_eq_false hgo, Bool.not_false, Bool.and_true]

/-- Settles O13: the two cases of the bitwise equation, the second without the clearing of `PLLRDY`. -/
theorem wordWriteKeepsHardwareBits : Obligations.WordWriteKeepsHardwareBits := by
  intro s r v i h hd hs
  rw [getLsbD_word_regWrite r v s h hd hs]
  refine ⟨fun hsoft => ?_, fun hhard hon => ?_⟩
  · rw [if_neg (by simp [hsoft])]
  · have hgo : ¬ (r = .rccCr ∧ extractField (s.desc .pllon) v = 0) := fun ⟨hr, hv⟩ => hon hr hv
    rw [if_pos hhard, decide_eq_false hgo, Bool.not_false, Bool.and_true]

/-- Outside the one field whose bits the hardware owns, a write stores the written word. -/
theorem sameOutside_regWrite (r : Reg) (v : Word) (s : State) (h : layoutOk s.cfg = true) (hd : r ≠ .serDr) (hs : r ≠ .serSr) (f : Field)
    (hf : hardwareBits s.cfg r = fieldMask (desc s.cfg f)) : SameOutsideFields s.cfg [f] v ((regWrite r v s).word r) := by
  intro i hi
  have hmask := getLsbD_fieldMask_outside (desc s.cfg f) i (hi f List.mem_cons_self)
  rw [getLsbD_word_regWrite r v s h hd hs, hf, hmask, if_neg Bool.false_ne_true]

/-! The four writes with side effects (R68). -/

/-- A write of the data register loads the transmit latch, clears `TXE` and sends the byte (R68 b). -/
theorem regWrite_serDr (v : Word) (s : State) (h : layoutOk s.cfg = true) :
    regWrite .serDr v s = { s with
      ser := { s.ser with drTx := v.setWidth 8, sr := insertField (s.desc .txe) s.ser.sr 0 }
      txWire := s.txWire ++ [v.setWidth 8] } := by
  rw [regWrite, State.hwSet, State.desc, (layoutOk_field s.cfg h .txe).1]
  rfl

theorem field_regWrite_serDr_txe (v : Word) (s : State) (h : layoutOk s.cfg = true) : (regWrite .serDr v s).field .txe = 0 :=
  field_hwSet_bit { s with ser := { s.ser with drTx := v.setWidth 8 }, txWire := s.txWire ++ [v.setWidth 8] }
    (layoutOk_configOk s.cfg h) .txe 0 (by decide)

/-- A write of `RCC_CR` clears `PLLRDY` with `PLLON`, and keeps it otherwise (R66, R68 a). -/
theorem field_regWrite_rccCr_pllrdy (v : Word) (s : State) (h : layoutOk s.cfg = true) :
    (regWrite .rccCr v s).field .pllrdy = if extractField (s.desc .pllon) v = 0 then 0 else s.field .pllrdy := by
  have hc := layoutOk_configOk s.cfg h
  rw [regWrite_rccCr v s h]
  split
  case isTrue => exact field_hwSet_bit _ ((setWord_cfg ..).symm ▸ hc) .pllrdy 0 (by decide)
  case isFalse =>
    exact (field_setWord_own s h .pllrdy _).trans ((extract_keep_same _ _ _ (desc_fits s.cfg hc .pllrdy)).trans
      (field_eq_extract s h .pllrdy).symm)

/-- A write of `RCC_CFGR` keeps `SWS` (R66, R68 d). -/
theorem field_regWrite_rccCfgr_sws (v : Word) (s : State) (h : layoutOk s.cfg = true) :
    (regWrite .rccCfgr v s).field .sws = s.field .sws := by
  rw [regWrite_rccCfgr v s h, field_eq_extract s h]
  exact (field_setWord_own s h .sws _).trans (extract_keep_same _ _ _ (desc_fits s.cfg (layoutOk_configOk s.cfg h) .sws))

/-- A write of `SER_SR` ands `CRCERR` with the written bit (R68 c). -/
theorem field_regWrite_serSr_crcerr (v : Word) (s : State) (h : layoutOk s.cfg = true) :
    (regWrite .serSr v s).field .crcerr = s.field .crcerr &&& extractField (s.desc .crcerr) v := by
  rw [regWrite_serSr v s h, field_eq_extract s h]
  exact (field_setWord_own s h .crcerr _).trans
    (extract_and_or_not_fieldMask _ _ _ (desc_fits s.cfg (layoutOk_configOk s.cfg h) .crcerr))

theorem sameOutside_regWrite_serSr (v : Word) (s : State) (h : layoutOk s.cfg = true) :
    SameOutsideFields s.cfg [.crcerr] s.ser.sr (regWrite .serSr v s).ser.sr := by
  rw [regWrite_serSr v s h]
  exact sameOutside_and_or_not_fieldMask s.cfg .crcerr s.ser.sr v

/-- Settles O14: per register the value of its field with a side effect, its other bits, and the frame. -/
theorem writeSideEffects : Obligations.WriteSideEffects := by
  intro s v h
  refine ⟨⟨fun hoff => ?_, fun hon => ?_, ?_, ?_⟩, ⟨?_, ?_, ?_, ?_, ?_⟩, ⟨?_, ?_, ?_⟩, ?_, ?_, ?_⟩
  · rw [field_regWrite_rccCr_pllrdy v s h, if_pos hoff]
  · rw [field_regWrite_rccCr_pllrdy v s h, if_neg hon]
  · exact sameOutside_regWrite .rccCr v s h (by decide) (by decide) .pllrdy (hardwareBits_rules s.cfg h _)
  · exact regWrite_frame .rccCr v s h (by decide)
  · rw [regWrite_serDr v s h]
  · exact field_regWrite_serDr_txe v s h
  · rw [regWrite_serDr v s h]
  · rw [regWrite_serDr v s h]
    exact sameOutside_insertField s.cfg .txe s.ser.sr 0
  · rw [regWrite_serDr v s h]
  · exact field_regWrite_serSr_crcerr v s h
  · exact sameOutside_regWrite_serSr v s h
  · exact regWrite_frame .serSr v s h (by decide)
  · exact field_regWrite_rccCfgr_sws v s h
  · exact sameOutside_regWrite .rccCfgr v s h (by decide) (by decide) .sws (hardwareBits_rules s.cfg h _)
  · exact regWrite_frame .rccCfgr v s h (by decide)

/-! Reads (R67). -/

/-- A read of the data register answers the receive latch and clears `RXNE`. -/
theorem regRead_serDr (s : State) (h : layoutOk s.cfg = true) :
    regRead .serDr s =
      (s.ser.drRx.setWidth 32, { s with ser := { s.ser with sr := insertField (s.desc .rxne) s.ser.sr 0 } }) := by
  rw [regRead, State.hwSet, desc_reg s h]
  rfl

/-- Settles O15. -/
theorem readSideEffects : Obligations.ReadSideEffects := by
  intro s h
  refine ⟨⟨rfl, ?_, ?_, ?_⟩, fun r hr => regRead_of_ne r s hr⟩
  · exact field_hwSet_bit s (layoutOk_configOk s.cfg h) .rxne 0 (by decide)
  · rw [regRead_serDr s h]
    exact sameOutside_insertField s.cfg .rxne s.ser.sr 0
  · rw [regRead_serDr s h]

/-! Writing what is there (R70). -/

/-- A word that agrees with the old one wherever the hardware owns no bit stores the old word. -/
theorem writtenWord_of_agrees (c : Config) (r : Reg) (old v : Word)
    (h : ∀ i, (hardwareBits c r).getLsbD i = false → v.getLsbD i = old.getLsbD i) : writtenWord c r old v = old := by
  apply BitVec.eq_of_getLsbD_eq
  intro i _
  rw [getLsbD_writtenWord]
  split
  case isTrue => rfl
  case isFalse hsoft =>
    rw [h i (by simpa using hsoft)]
    cases old.getLsbD i <;> rfl

/-- The hardware writing the value a field has changes nothing. -/
theorem hwSet_field_self (s : State) (f : Field) : s.hwSet f (s.field f) = s := by
  rw [State.hwSet, State.field, insert_extract_self, setWord_word_self]

/-- A word that agrees with `RCC_CR` outside the hardware's bits has its `PLLON`, which lies apart from `PLLRDY`. -/
theorem extract_pllon_of_agrees (s : State) (v : Word) (h : layoutOk s.cfg = true)
    (hv : ∀ i, (hardwareBits s.cfg .rccCr).getLsbD i = false → v.getLsbD i = s.rcc.cr.getLsbD i) :
    extractField (s.desc .pllon) v = s.field .pllon := by
  have hreg (f : Field) := (layoutOk_field s.cfg h f).1
  have hbits : hardwareBits s.cfg .rccCr = fieldMask (desc s.cfg .pllrdy) := hardwareBits_rules _ h _
  have hapart := desc_apart s.cfg (layoutOk_configOk s.cfg h) .pllon .pllrdy (by decide) ((hreg .pllon).trans (hreg .pllrdy).symm)
  rw [field_eq_extract s h]
  apply BitVec.eq_of_getLsbD_eq
  intro i _
  rw [getLsbD_extractField, getLsbD_extractField]
  by_cases hi : i < (s.desc .pllon).width
  · have hmask : (fieldMask (desc s.cfg .pllrdy)).getLsbD ((s.desc .pllon).offset + i) = false :=
      getLsbD_fieldMask_outside _ _ (by simp only [State.desc] at hi ⊢; omega)
    rw [hv _ (hbits ▸ hmask)]
    rfl
  · simp [hi]

/-- Settles O16: the stored word is the old one, and where the write has `PLLON` 0 the PLL was off already, with `PLLRDY` 0. -/
theorem rewriteChangesNothing : Obligations.RewriteChangesNothing := by
  intro s r v h hoff hv
  split
  case isTrue hr =>
    subst hr
    rw [regWrite_serDr v s h]
  case isFalse hr =>
    rw [regWrite_of_ne r v s hr, writtenWord_of_agrees _ _ _ _ hv, setWord_word_self]
    split
    case isTrue hstop =>
      obtain ⟨hpllon, hzero⟩ := hstop
      obtain rfl : fieldReg .pllon = r := (desc_reg s h .pllon).symm.trans hpllon
      rw [extract_pllon_of_agrees s v h hv] at hzero
      have hrdy := (flag_false_iff s h .pllrdy rfl).1 (hoff ((flag_false_iff s h .pllon rfl).2 hzero))
      exact hrdy ▸ hwSet_field_self s .pllrdy
    case isFalse => rfl

/-! The address map (R60, R64). -/

theorem mem_allRegs (r : Reg) : r ∈ allRegs := by cases r <;> decide

/-- In an accepted machine no two registers share an address (R62). -/
theorem regAddr_injective (c : Config) (h : configOk c = true) (r q : Reg) (he : regAddr c r = regAddr c q) : r = q := by
  simp only [configOk, fdOk, addressesOk, Bool.and_eq_true, List.all_eq_true, Bool.or_eq_true, beq_iff_eq, bne_iff_ne] at h
  obtain ⟨-, -, -, hregs⟩ := h
  exact ((hregs r (mem_allRegs r)).2 q (mem_allRegs q)).resolve_right (not_not_intro he)

theorem regAt_regAddr (c : Config) (h : configOk c = true) (r : Reg) : regAt c (regAddr c r) = some r := by
  cases hfound : regAt c (regAddr c r) with
  | none => exact absurd (beq_self_eq_true _) (List.find?_eq_none.1 hfound r (mem_allRegs r))
  | some q =>
    have haddr : regAddr c q = regAddr c r := by simpa using List.find?_some hfound
    rw [regAddr_injective c h q r haddr]

theorem regAt_eq_none (c : Config) (a : Word) (h : ∀ r, a ≠ regAddr c r) : regAt c a = none :=
  List.find?_eq_none.2 fun r _ hr => h r (beq_iff_eq.1 hr).symm

/-- Settles O17. -/
theorem addressMap : Obligations.AddressMap := by
  intro s a v hc
  refine ⟨fun r => ?_, fun hno => ?_⟩
  · simp only [memRead, memWrite, regAt_regAddr s.cfg hc r, Option.map_some, and_self]
  · simp only [memRead, memWrite, regAt_eq_none s.cfg a hno, Option.map_none, and_self]

end Sys2Proof.Machine
end

section
/-! PROOF. Words as concatenations of their fields (30_encoding R92, R93): a word is the layout of a row exactly when it has the row's opcode, no
must-be-zero bit set, and the operands in its slices. -/
namespace Sys2Proof.Encoding

/-- Where a mask is all ones, a word that the mask leaves zero is zero. -/
theorem extract_eq_zero_of_and {w : Nat} {x mask : BitVec w} (h : x &&& mask = 0#w) (start len : Nat)
    (hm : mask.extractLsb' start len = BitVec.allOnes len) : x.extractLsb' start len = 0#len := by
  have hz := congrArg (BitVec.extractLsb' start len) h
  rw [BitVec.extractLsb'_and, hm, BitVec.and_allOnes] at hz
  rw [hz]
  apply BitVec.eq_of_getLsbD_eq
  simp

/-- The rows with one operand in the low bits, zeros above it and the opcode on top. -/
theorem operandWord_iff {n k : Nat} (op : BitVec 8) (c : BitVec k) (cw : BitVec (8 + n + k)) :
    cw = op ++ 0#n ++ c ↔
      cw.extractLsb' (n + k) 8 = op ∧ cw &&& (0#8 ++ BitVec.allOnes n ++ 0#k) = 0 ∧ cw.extractLsb' 0 k = c := by
  constructor
  · rintro rfl
    refine ⟨?_, ?_, ?_⟩
    · rw [BitVec.extractLsb'_append_eq_of_le (by omega), Nat.add_sub_cancel, BitVec.extractLsb'_append_eq_left]
    · simp [BitVec.and_append]
    · exact BitVec.extractLsb'_append_eq_right
  · rintro ⟨rfl, hz, rfl⟩
    have hmid : cw.extractLsb' k n = 0#n := extract_eq_zero_of_and hz k n (by
      rw [BitVec.extractLsb'_append_eq_of_le le_rfl, Nat.sub_self, BitVec.extractLsb'_append_eq_right])
    rw [← hmid, BitVec.extractLsb'_append_extractLsb'_eq_extractLsb' (Nat.add_comm n k),
      BitVec.extractLsb'_append_extractLsb'_eq_extractLsb' (Nat.zero_add k).symm, BitVec.extractLsb'_eq_self]

theorem operandWord_opcode {n k : Nat} (op : BitVec 8) (c : BitVec k) : (op ++ 0#n ++ c).extractLsb' (n + k) 8 = op :=
  ((operandWord_iff op c _).1 rfl).1

/-- The rows of the two clock gates: enable, a zero, bank and bit. -/
theorem gateWord_iff (op : BitVec 8) (en : BitVec 1) (bank : BitVec 2) (bit : BitVec 5) (cw : CmdWord) :
    cw = op ++ 0#47 ++ en ++ 0#1 ++ bank ++ bit ↔
      opcode cw = op ∧ cw &&& 0x00FFFFFFFFFFFE80#64 = 0 ∧ cw.extractLsb' 8 1 = en ∧ cw.extractLsb' 5 2 = bank ∧ cw.extractLsb' 0 5 = bit := by
  constructor
  · rintro rfl
    have hmask : 0x00FFFFFFFFFFFE80#64 = 0#8 ++ BitVec.allOnes 47 ++ 0#1 ++ BitVec.allOnes 1 ++ 0#2 ++ 0#5 := by decide
    refine ⟨?_, ?_, ?_, ?_, ?_⟩
    case refine_2 =>
      rw [hmask, BitVec.and_append, BitVec.and_append, BitVec.and_append, BitVec.and_append, BitVec.and_append]
      simp only [BitVec.and_zero, BitVec.zero_and]
      rfl
    all_goals
      simp (disch := omega) only [opcode, BitVec.extractLsb'_append_eq_of_le, BitVec.extractLsb'_append_eq_of_add_le]
      exact BitVec.extractLsb'_eq_self
  · rintro ⟨rfl, hz, rfl, rfl, rfl⟩
    rw [opcode, ← extract_eq_zero_of_and hz 9 47 (by decide), ← extract_eq_zero_of_and hz 7 1 (by decide)]
    simp (disch := omega) only [BitVec.extractLsb'_append_extractLsb'_eq_extractLsb']
    exact BitVec.extractLsb'_eq_self.symm

/-- The row of `CFG_PLL`. -/
theorem cfgPllWord_iff (src : BitVec 1) (p : BitVec 2) (q : BitVec 4) (n : BitVec 9) (m : BitVec 6) (osc : Word) (cw : CmdWord) :
    cw = 0x01#8 ++ src ++ p ++ q ++ n ++ m ++ 0#2 ++ osc ↔
      opcode cw = 0x01#8 ∧ cw &&& 0x0000000300000000#64 = 0 ∧ cw.extractLsb' 55 1 = src ∧ cw.extractLsb' 53 2 = p ∧
      cw.extractLsb' 49 4 = q ∧ cw.extractLsb' 40 9 = n ∧ cw.extractLsb' 34 6 = m ∧ cw.extractLsb' 0 32 = osc := by
  constructor
  · rintro rfl
    have hmask : 0x0000000300000000#64 = 0#30 ++ BitVec.allOnes 2 ++ 0#32 := by decide
    refine ⟨?_, ?_, ?_, ?_, ?_, ?_, ?_, ?_⟩
    case refine_2 =>
      rw [hmask, BitVec.and_append, BitVec.and_append]
      simp only [BitVec.and_zero, BitVec.zero_and]
      rfl
    all_goals
      simp (disch := omega) only [opcode, BitVec.extractLsb'_append_eq_of_le, BitVec.extractLsb'_append_eq_of_add_le]
      exact BitVec.extractLsb'_eq_self
  · rintro ⟨hop, hz, rfl, rfl, rfl, rfl, rfl, rfl⟩
    rw [← hop, opcode, ← extract_eq_zero_of_and hz 32 2 (by decide)]
    simp (disch := omega) only [BitVec.extractLsb'_append_extractLsb'_eq_extractLsb']
    exact BitVec.extractLsb'_eq_self.symm

end Sys2Proof.Encoding
end

section
/-! PROOF. The one-word commands (30_encoding R92, R93): the decoder of a word and the encoder describe the same rows. -/
namespace Sys2Proof.Encoding

/-- The codes of an operand: `ofCode` reads exactly what `code` writes, and reads nothing from a reserved code. -/
def IsCoding {α : Type} {k : Nat} (code : α → BitVec k) (ofCode : BitVec k → Option α) : Prop :=
  ∀ c a, ofCode c = some a ↔ code a = c

theorem clkSrc_isCoding : IsCoding ClkSrc.code ClkSrc.ofCode :=
  fun c src => ⟨ClkSrc.code_of_ofCode c src, fun h => h ▸ ClkSrc.ofCode_code src⟩

theorem ahbPre_isCoding : IsCoding AhbPre.code AhbPre.ofCode :=
  fun c pre => ⟨AhbPre.code_of_ofCode c pre, fun h => h ▸ AhbPre.ofCode_code pre⟩

theorem apbPre_isCoding : IsCoding ApbPre.code ApbPre.ofCode :=
  fun c pre => ⟨ApbPre.code_of_ofCode c pre, fun h => h ▸ ApbPre.ofCode_code pre⟩

theorem ahbBank_isCoding : IsCoding AhbBank.code AhbBank.ofCode :=
  fun c bank => ⟨AhbBank.code_of_ofCode c bank, fun h => h ▸ AhbBank.ofCode_code bank⟩

theorem apbBank_isCoding : IsCoding ApbBank.code ApbBank.ofCode :=
  fun c bank => ⟨ApbBank.code_of_ofCode c bank, fun h => h ▸ ApbBank.ofCode_code bank⟩

theorem statSel_isCoding : IsCoding StatSel.code StatSel.ofCode :=
  fun c sel => ⟨StatSel.code_of_ofCode c sel, fun h => h ▸ StatSel.ofCode_code sel⟩

/-- An operand whose every code has a meaning. -/
theorem isCoding_of_inverse {α : Type} {k : Nat} {code : α → BitVec k} {ofCode : BitVec k → α} (h : ∀ a, ofCode (code a) = a)
    (h' : ∀ c, code (ofCode c) = c) : IsCoding code (some ∘ ofCode) :=
  fun c a => ⟨fun ha => Option.some.inj ha ▸ h' c, fun hc => congrArg some (hc ▸ h a)⟩

theorem clkSel_isCoding : IsCoding ClkSel.code (some ∘ ClkSel.ofCode) := isCoding_of_inverse ClkSel.ofCode_code ClkSel.code_ofCode

/-- A plain number is its own code. -/
theorem word_isCoding : IsCoding (fun v : Word => v) some := isCoding_of_inverse (fun _ => rfl) fun _ => rfl

theorem checked_eq_ok_iff (cw mbz : CmdWord) (operands : Option Instr) (i : Instr) :
    checked cw mbz operands = .ok i ↔ cw &&& mbz = 0 ∧ operands = some i := by
  unfold checked
  split
  case isTrue h => exact ⟨nofun, fun hok => absurd hok.1 h⟩
  case isFalse h => cases operands <;> simp [not_not.1 h]

/-- A row with one operand `a` in the low bits: the checks pass for exactly the words laid out as the encoder does. -/
theorem checked_operand_iff {α : Type} {n k : Nat} {code : α → BitVec k} {ofCode : BitVec k → Option α} (hcode : IsCoding code ofCode)
    (op : BitVec 8) (f : α → Instr) (cw mbz : BitVec (8 + n + k)) (hmbz : mbz = 0#8 ++ BitVec.allOnes n ++ 0#k)
    (hop : cw.extractLsb' (n + k) 8 = op) (i : Instr) :
    (cw &&& mbz = 0 ∧ (ofCode (cw.extractLsb' 0 k)).map f = some i) ↔ ∃ a, f a = i ∧ cw = op ++ 0#n ++ code a := by
  simp only [operandWord_iff, hop, hmbz, Option.map_eq_some_iff, hcode _ _, true_and, eq_comm (b := code _)]
  constructor
  · rintro ⟨hz, a, ha, hi⟩
    exact ⟨a, hi, hz, ha⟩
  · rintro ⟨a, hi, hz, ha⟩
    exact ⟨hz, a, ha, hi⟩

/-- The rows of the two clock gates. -/
theorem checked_gate_iff {α : Type} {code : α → BitVec 2} {ofCode : BitVec 2 → Option α} (hcode : IsCoding code ofCode)
    (op : BitVec 8) (f : α → BitVec 5 → Bool → Instr) (cw : CmdWord) (hop : opcode cw = op) (i : Instr) :
    (cw &&& 0x00FFFFFFFFFFFE80#64 = 0 ∧
      (ofCode (cw.extractLsb' 5 2)).map (fun a => f a (cw.extractLsb' 0 5) (enOfCode (cw.extractLsb' 8 1))) = some i) ↔
    ∃ a bit en, f a bit en = i ∧ cw = op ++ 0#47 ++ enCode en ++ 0#1 ++ code a ++ bit := by
  simp only [gateWord_iff, hop, Option.map_eq_some_iff, hcode _ _, true_and]
  constructor
  · rintro ⟨hz, a, ha, hi⟩
    exact ⟨a, _, _, hi, hz, (enCode_enOfCode _).symm, ha.symm, rfl⟩
  · rintro ⟨a, _, en, hi, hz, hen, ha, rfl⟩
    rw [hen, enOfCode_enCode]
    exact ⟨hz, a, ha.symm, hi⟩

/-! One lemma per row: what a word with the row's opcode decodes to. -/

section
variable {cw : CmdWord} (i : Instr)

theorem decodeHead_cfgPll_iff (hop : opcode cw = 0x01#8) : decodeHead cw = .ok i ↔ ∃ src osc m n p q,
    .cfgPll src osc m n p q = i ∧ cw = 0x01#8 ++ PllSrc.code src ++ PllP.code p ++ q ++ n ++ m ++ 0#2 ++ osc := by
  simp only [decodeHead, hop, BitVec.toNat_ofNat, Nat.reducePow, Nat.reduceMod, checked_eq_ok_iff, Option.some.injEq, cfgPllWord_iff, true_and]
  constructor
  · rintro ⟨hz, rfl⟩
    exact ⟨_, _, _, _, _, _, rfl, hz, (PllSrc.code_ofCode _).symm, (PllP.code_ofCode _).symm, rfl, rfl, rfl, rfl⟩
  · rintro ⟨src, _, _, _, p, _, rfl, hz, hsrc, hp, rfl, rfl, rfl, rfl⟩
    rw [hsrc, hp, PllSrc.ofCode_code, PllP.ofCode_code]
    exact ⟨hz, rfl⟩

theorem decodeHead_setSysclk_iff (hop : opcode cw = 0x02#8) :
    decodeHead cw = .ok i ↔ ∃ src, .setSysclk src = i ∧ cw = 0x02#8 ++ 0#54 ++ ClkSrc.code src := by
  simp only [decodeHead, hop]
  exact (checked_eq_ok_iff _ _ _ _).trans (checked_operand_iff (n := 54) (k := 2) clkSrc_isCoding 0x02#8 .setSysclk cw _ (by decide) hop i)

theorem decodeHead_cfgAhb_iff (hop : opcode cw = 0x03#8) :
    decodeHead cw = .ok i ↔ ∃ pre, .cfgAhb pre = i ∧ cw = 0x03#8 ++ 0#52 ++ AhbPre.code pre := by
  simp only [decodeHead, hop]
  exact (checked_eq_ok_iff _ _ _ _).trans (checked_operand_iff (n := 52) (k := 4) ahbPre_isCoding 0x03#8 .cfgAhb cw _ (by decide) hop i)

theorem decodeHead_cfgApb1_iff (hop : opcode cw = 0x04#8) :
    decodeHead cw = .ok i ↔ ∃ pre, .cfgApb1 pre = i ∧ cw = 0x04#8 ++ 0#53 ++ ApbPre.code pre := by
  simp only [decodeHead, hop]
  exact (checked_eq_ok_iff _ _ _ _).trans (checked_operand_iff (n := 53) (k := 3) apbPre_isCoding 0x04#8 .cfgApb1 cw _ (by decide) hop i)

theorem decodeHead_cfgApb2_iff (hop : opcode cw = 0x05#8) :
    decodeHead cw = .ok i ↔ ∃ pre, .cfgApb2 pre = i ∧ cw = 0x05#8 ++ 0#53 ++ ApbPre.code pre := by
  simp only [decodeHead, hop]
  exact (checked_eq_ok_iff _ _ _ _).trans (checked_operand_iff (n := 53) (k := 3) apbPre_isCoding 0x05#8 .cfgApb2 cw _ (by decide) hop i)

theorem decodeHead_setAhbClk_iff (hop : opcode cw = 0x06#8) : decodeHead cw = .ok i ↔ ∃ bank bit en,
    .setAhbClk bank bit en = i ∧ cw = 0x06#8 ++ 0#47 ++ enCode en ++ 0#1 ++ AhbBank.code bank ++ bit := by
  simp only [decodeHead, hop]
  exact (checked_eq_ok_iff _ _ _ _).trans (checked_gate_iff ahbBank_isCoding 0x06#8 .setAhbClk cw hop i)

theorem decodeHead_setApbClk_iff (hop : opcode cw = 0x07#8) : decodeHead cw = .ok i ↔ ∃ bank bit en,
    .setApbClk bank bit en = i ∧ cw = 0x07#8 ++ 0#47 ++ enCode en ++ 0#1 ++ ApbBank.code bank ++ bit := by
  simp only [decodeHead, hop]
  exact (checked_eq_ok_iff _ _ _ _).trans (checked_gate_iff apbBank_isCoding 0x07#8 .setApbClk cw hop i)

theorem decodeHead_getClk_iff (hop : opcode cw = 0x08#8) :
    decodeHead cw = .ok i ↔ ∃ which, .getClk which = i ∧ cw = 0x08#8 ++ 0#54 ++ ClkSel.code which := by
  simp only [decodeHead, hop]
  exact (checked_eq_ok_iff _ _ _ _).trans (checked_operand_iff (n := 54) (k := 2) clkSel_isCoding 0x08#8 .getClk cw _ (by decide) hop i)

theorem decodeHead_serInit_iff (hop : opcode cw = 0x10#8) :
    decodeHead cw = .ok i ↔ ∃ target, .serInit target = i ∧ cw = 0x10#8 ++ 0#24 ++ target := by
  simp only [decodeHead, hop]
  exact (checked_eq_ok_iff _ _ _ _).trans (checked_operand_iff (n := 24) (k := 32) word_isCoding 0x10#8 .serInit cw _ (by decide) hop i)

theorem decodeHead_serRecv_iff (hop : opcode cw = 0x12#8) : decodeHead cw = .ok i ↔ .serRecv = i ∧ cw = 0x12#8 ++ 0#56 := by
  have hword : cw = 0x12#8 ++ 0#56 ↔ cw &&& 0x00FFFFFFFFFFFFFF#64 = 0 := by
    simpa [show cw.extractLsb' 56 8 = 0x12#8 from hop] using operandWord_iff (n := 56) (k := 0) 0x12#8 0#0 cw
  simp only [decodeHead, hop]
  exact (checked_eq_ok_iff _ _ _ _).trans (by rw [hword, Option.some.injEq, and_comm])

theorem decodeHead_serStat_iff (hop : opcode cw = 0x13#8) :
    decodeHead cw = .ok i ↔ ∃ sel, .serStat sel = i ∧ cw = 0x13#8 ++ 0#53 ++ StatSel.code sel := by
  simp only [decodeHead, hop]
  exact (checked_eq_ok_iff _ _ _ _).trans (checked_operand_iff (n := 53) (k := 3) statSel_isCoding 0x13#8 .serStat cw _ (by decide) hop i)

end

/-- A word that decodes to a one-word command is its encoding. -/
theorem encode_of_decodeHead (cw : CmdWord) (i : Instr) (h : decodeHead cw = .ok i) : encode i = .command [cw] ∧ i.wf = true := by
  have hcases := h
  unfold decodeHead at hcases
  split at hcases
  case h_1 hop =>
    obtain ⟨_, _, _, _, _, _, rfl, rfl⟩ := (decodeHead_cfgPll_iff i (BitVec.eq_of_toNat_eq hop)).1 h
    exact ⟨rfl, rfl⟩
  case h_2 hop =>
    obtain ⟨_, rfl, rfl⟩ := (decodeHead_setSysclk_iff i (BitVec.eq_of_toNat_eq hop)).1 h
    exact ⟨rfl, rfl⟩
  case h_3 hop =>
    obtain ⟨_, rfl, rfl⟩ := (decodeHead_cfgAhb_iff i (BitVec.eq_of_toNat_eq hop)).1 h
    exact ⟨rfl, rfl⟩
  case h_4 hop =>
    obtain ⟨_, rfl, rfl⟩ := (decodeHead_cfgApb1_iff i (BitVec.eq_of_toNat_eq hop)).1 h
    exact ⟨rfl, rfl⟩
  case h_5 hop =>
    obtain ⟨_, rfl, rfl⟩ := (decodeHead_cfgApb2_iff i (BitVec.eq_of_toNat_eq hop)).1 h
    exact ⟨rfl, rfl⟩
  case h_6 hop =>
    obtain ⟨_, _, _, rfl, rfl⟩ := (decodeHead_setAhbClk_iff i (BitVec.eq_of_toNat_eq hop)).1 h
    exact ⟨rfl, rfl⟩
  case h_7 hop =>
    obtain ⟨_, _, _, rfl, rfl⟩ := (decodeHead_setApbClk_iff i (BitVec.eq_of_toNat_eq hop)).1 h
    exact ⟨rfl, rfl⟩
  case h_8 hop =>
    obtain ⟨_, rfl, rfl⟩ := (decodeHead_getClk_iff i (BitVec.eq_of_toNat_eq hop)).1 h
    exact ⟨rfl, rfl⟩
  case h_9 hop =>
    obtain ⟨_, rfl, rfl⟩ := (decodeHead_serInit_iff i (BitVec.eq_of_toNat_eq hop)).1 h
    exact ⟨rfl, rfl⟩
  case h_10 hop =>
    obtain ⟨rfl, rfl⟩ := (decodeHead_serRecv_iff i (BitVec.eq_of_toNat_eq hop)).1 h
    exact ⟨rfl, rfl⟩
  case h_11 hop =>
    obtain ⟨_, rfl, rfl⟩ := (decodeHead_serStat_iff i (BitVec.eq_of_toNat_eq hop)).1 h
    exact ⟨rfl, rfl⟩
  case h_12 => cases hcases

/-- Every command but `SER_SEND` is one word, and decodes from it. -/
theorem encode_command (i : Instr) (words : List CmdWord) (h : encode i = .command words) :
    (∃ size data, i = .serSend size data) ∨ ∃ cw, words = [cw] ∧ decodeHead cw = .ok i := by
  cases i with
  | cfgPll src osc m n p q =>
    cases h
    exact .inr ⟨_, rfl, (decodeHead_cfgPll_iff _ ((cfgPllWord_iff _ _ _ _ _ _ _).1 rfl).1).2 ⟨src, osc, m, n, p, q, rfl, rfl⟩⟩
  | setSysclk src =>
    cases h
    exact .inr ⟨_, rfl, (decodeHead_setSysclk_iff _ (operandWord_opcode (n := 54) (k := 2) ..)).2 ⟨src, rfl, rfl⟩⟩
  | cfgAhb pre =>
    cases h
    exact .inr ⟨_, rfl, (decodeHead_cfgAhb_iff _ (operandWord_opcode (n := 52) (k := 4) ..)).2 ⟨pre, rfl, rfl⟩⟩
  | cfgApb1 pre =>
    cases h
    exact .inr ⟨_, rfl, (decodeHead_cfgApb1_iff _ (operandWord_opcode (n := 53) (k := 3) ..)).2 ⟨pre, rfl, rfl⟩⟩
  | cfgApb2 pre =>
    cases h
    exact .inr ⟨_, rfl, (decodeHead_cfgApb2_iff _ (operandWord_opcode (n := 53) (k := 3) ..)).2 ⟨pre, rfl, rfl⟩⟩
  | setAhbClk bank bit en =>
    cases h
    exact .inr ⟨_, rfl, (decodeHead_setAhbClk_iff _ ((gateWord_iff _ _ _ _ _).1 rfl).1).2 ⟨bank, bit, en, rfl, rfl⟩⟩
  | setApbClk bank bit en =>
    cases h
    exact .inr ⟨_, rfl, (decodeHead_setApbClk_iff _ ((gateWord_iff _ _ _ _ _).1 rfl).1).2 ⟨bank, bit, en, rfl, rfl⟩⟩
  | getClk which =>
    cases h
    exact .inr ⟨_, rfl, (decodeHead_getClk_iff _ (operandWord_opcode (n := 54) (k := 2) ..)).2 ⟨which, rfl, rfl⟩⟩
  | serInit target =>
    cases h
    exact .inr ⟨_, rfl, (decodeHead_serInit_iff _ (operandWord_opcode (n := 24) (k := 32) ..)).2 ⟨target, rfl, rfl⟩⟩
  | serSend size data => exact .inl ⟨size, data, rfl⟩
  | serRecv =>
    cases h
    exact .inr ⟨_, rfl, rfl⟩
  | serStat sel =>
    cases h
    exact .inr ⟨_, rfl, (decodeHead_serStat_iff _ (operandWord_opcode (n := 53) (k := 3) ..)).2 ⟨sel, rfl, rfl⟩⟩
  | irqTxEmpty | irqRxAvailable | irqOverrun | irqModeFault | irqCrcError => cases h

end Sys2Proof.Encoding
end

section
/-! PROOF. The payload of `SER_SEND` (30_encoding R94): payload words and their bytes determine each other, with zeros in the lanes
that no byte fills. -/
namespace Sys2Proof.Encoding

/-! Bytes and payload words. -/

/-- The first `n` bytes of a list, with zeros where it ends. -/
def padded (n : Nat) (bs : List Byte) : List Byte := (List.range n).map (bs.getD · 0)

theorem padded_add (m n : Nat) (bs : List Byte) : padded (m + n) bs = padded m (bs.take m) ++ padded n (bs.drop m) := by
  rw [padded, List.range_add, List.map_append, List.map_map]
  congr 1
  · exact List.map_congr_left fun j hj => by simp [List.getD_eq_getElem?_getD, List.mem_range.1 hj]
  · exact List.map_congr_left fun j _ => by simp [List.getD_eq_getElem?_getD]

/-- Behind the bytes come zeros and nothing else. -/
theorem padded_eq_append (bs : List Byte) (n : Nat) : padded (bs.length + n) bs = bs ++ List.replicate n 0 := by
  rw [padded_add, List.take_length, List.drop_length]
  congr 1
  · exact List.ext_getElem (by simp [padded]) fun j _ hj => by simp [padded, hj]
  · simp [padded]

theorem padded_eq_iff {data bs : List Byte} (hs : data.length ≤ bs.length) :
    padded bs.length data = bs ↔ bs.take data.length = data ∧ (bs.drop data.length).all (· == 0) = true := by
  obtain ⟨n, hn⟩ := Nat.exists_eq_add_of_le hs
  have hzeros : (bs.drop data.length).all (· == 0) = true ↔ bs.drop data.length = List.replicate n 0 := by
    simp [List.eq_replicate_iff, hn]
  rw [hn, padded_eq_append, hzeros]
  constructor
  · rintro rfl
    simp
  · rintro ⟨htake, hdrop⟩
    rw [← hdrop]
    nth_rw 1 [← htake]
    exact List.take_append_drop ..

/-- A payload word has its bytes in its lanes, in order. -/
theorem wordBytes_payloadWord (bs : List Byte) : wordBytes (payloadWord bs) = padded 8 bs := by
  have lanes (a b c d e f g h : Byte) : wordBytes (h ++ g ++ f ++ e ++ d ++ c ++ b ++ a :) = [a, b, c, d, e, f, g, h] := by
    simp (disch := omega) only [wordBytes, BitVec.extractLsb'_append_eq_of_le, BitVec.extractLsb'_append_eq_of_add_le]
    simp only [Nat.reduceSub, BitVec.extractLsb'_eq_self]
  exact lanes ..

/-- A word is the payload word of its eight lanes. -/
theorem payloadWord_wordBytes (w : CmdWord) : payloadWord (wordBytes w) = w := by
  show (w.extractLsb' 56 8 ++ w.extractLsb' 48 8 ++ w.extractLsb' 40 8 ++ w.extractLsb' 32 8 ++ w.extractLsb' 24 8 ++ w.extractLsb' 16 8
    ++ w.extractLsb' 8 8 ++ w.extractLsb' 0 8 :) = w
  simp (disch := omega) only [BitVec.extractLsb'_append_extractLsb'_eq_extractLsb']
  exact BitVec.extractLsb'_eq_self

theorem bytes_payloadWords (k : Nat) (bs : List Byte) : (payloadWords k bs).flatMap wordBytes = padded (8 * k) bs := by
  induction k generalizing bs with
  | zero => rfl
  | succ k ih => rw [payloadWords, List.flatMap_cons, wordBytes_payloadWord, ih, Nat.mul_succ, Nat.add_comm, ← padded_add]

theorem payloadWords_bytes (ws : List CmdWord) : payloadWords ws.length (ws.flatMap wordBytes) = ws := by
  induction ws with
  | nil => rfl
  | cons w ws ih =>
    have hw : (wordBytes w).length = 8 := rfl
    rw [List.length_cons, payloadWords, List.flatMap_cons, List.take_left' hw, List.drop_left' hw, payloadWord_wordBytes, ih]

theorem bytes_length (ws : List CmdWord) : (ws.flatMap wordBytes).length = 8 * ws.length := by
  induction ws with
  | nil => rfl
  | cons w ws ih => rw [List.flatMap_cons, List.length_append, ih, List.length_cons, Nat.mul_succ, Nat.add_comm]; rfl

/-- Some bytes, spread over as many payload words as there are, give exactly the words whose lanes hold them padded with zeros. -/
theorem payloadWords_eq_iff (ws : List CmdWord) (bs : List Byte) :
    payloadWords ws.length bs = ws ↔ padded (ws.flatMap wordBytes).length bs = ws.flatMap wordBytes := by
  rw [bytes_length, ← bytes_payloadWords]
  refine ⟨fun h => by rw [h], fun h => ?_⟩
  have hlen := Laws.Encoding.payloadWords_length ws.length bs
  calc payloadWords ws.length bs = payloadWords ws.length ((payloadWords ws.length bs).flatMap wordBytes) := by
        conv_lhs => rw [← payloadWords_bytes (payloadWords ws.length bs), hlen]
    _ = ws := by rw [h, payloadWords_bytes]

/-! The decoder of `SER_SEND`. -/

theorem decodeSend_eq_ok_iff (cw : CmdWord) (payload : List CmdWord) (i : Instr) :
    decodeSend cw payload = .ok i ↔
      cw &&& 0x00FFFFFFFFFF0000#64 = 0 ∧
      ((payload.flatMap wordBytes).drop (cw.extractLsb' 0 16).toNat).all (· == 0) = true ∧
      .serSend (cw.extractLsb' 0 16) ((payload.flatMap wordBytes).take (cw.extractLsb' 0 16).toNat) = i := by
  simp only [decodeSend]
  split
  case isTrue h => exact ⟨nofun, fun hok => absurd hok.1 h⟩
  case isFalse h =>
    split
    case isTrue hall => exact ⟨fun hi => ⟨not_not.1 h, hall, Except.ok.inj hi⟩, fun hok => congrArg Except.ok hok.2.2⟩
    case isFalse hall => exact ⟨nofun, fun hok => absurd hok.2.1 hall⟩

/-- A whole `SER_SEND`: with its announced number of payload words, it decodes to exactly the instruction it encodes. -/
theorem decodeSend_iff (cw : CmdWord) (payload : List CmdWord) (size : BitVec 16) (data : List Byte) (hop : opcode cw = 0x11#8)
    (hlen : payload.length = payloadCount (cw.extractLsb' 0 16).toNat) :
    decodeSend cw payload = .ok (.serSend size data) ↔
      encode (.serSend size data) = .command (cw :: payload) ∧ (Instr.serSend size data).wf = true := by
  have hroom : (cw.extractLsb' 0 16).toNat ≤ (payload.flatMap wordBytes).length := by
    rw [bytes_length, hlen, payloadCount]
    omega
  have hlayout := operandWord_iff (n := 40) (k := 16) 0x11#8 size cw
  rw [decodeSend_eq_ok_iff, encode, PortInput.command.injEq, List.cons.injEq, Instr.wf, beq_iff_eq]
  constructor
  · rintro ⟨hz, hall, hi⟩
    obtain ⟨rfl, hdata⟩ := Instr.serSend.inj hi
    have hd : data.length = (cw.extractLsb' 0 16).toNat := by rw [← hdata, List.length_take, min_eq_left hroom]
    refine ⟨⟨(hlayout.2 ⟨hop, hz, rfl⟩).symm, ?_⟩, hd⟩
    rw [← hlen, payloadWords_eq_iff, padded_eq_iff (hd ▸ hroom), hd]
    exact ⟨hdata, hall⟩
  · rintro ⟨⟨hw, hp⟩, hd⟩
    obtain ⟨-, hz, rfl⟩ := hlayout.1 hw.symm
    rw [← hlen, payloadWords_eq_iff, padded_eq_iff (hd ▸ hroom), hd] at hp
    exact ⟨hz, hp.2, congrArg _ hp.1⟩

end Sys2Proof.Encoding
end

section
/-! PROOF. Whole commands on the command port (30_encoding R90, R95): the decoder in one equation, and the statements of both directions. -/
namespace Sys2Proof.Encoding

open Sys2Proof.Machine

/-- A command from its first word and exactly the words that belong to it. -/
def decodeWhole (cw : CmdWord) (payload : List CmdWord) : Except Illegal Instr :=
  if opcode cw = 0x11#8 then decodeSend cw payload else decodeHead cw

/-- How many words follow the first one. -/
theorem commandLength_eq (cw : CmdWord) : commandLength cw = 1 + if opcode cw = 0x11#8 then payloadCount (cw.extractLsb' 0 16).toNat else 0 := by
  rw [commandLength]
  split <;> rfl

/-- The decoder waits for the announced length (R95) and then decodes exactly that many words. -/
theorem decode_cons (cw : CmdWord) (ws : List CmdWord) :
    decode (cw :: ws) = if ws.length + 1 < commandLength cw then .incomplete
      else withRest (decodeWhole cw (ws.take (commandLength cw - 1))) (ws.drop (commandLength cw - 1)) := by
  rw [commandLength_eq, decode, decodeWhole]
  by_cases hop : opcode cw = 0x11#8
  · simp only [if_pos hop, Nat.add_comm ws.length, Nat.add_lt_add_iff_left, Nat.add_sub_cancel_left]
  · simp [if_neg hop]

theorem withRest_ne_incomplete (r : Except Illegal Instr) (ws : List CmdWord) : withRest r ws ≠ .incomplete := by cases r <;> nofun

theorem withRest_eq_ok_iff (r : Except Illegal Instr) (ws rest : List CmdWord) (i : Instr) :
    withRest r ws = .ok i rest ↔ r = .ok i ∧ ws = rest := by
  cases r <;> simp [withRest]

theorem withRest_eq_illegal_iff (r : Except Illegal Instr) (ws rest : List CmdWord) (e : Illegal) :
    withRest r ws = .illegal e rest ↔ r = .error e ∧ ws = rest := by
  cases r <;> simp [withRest]

/-- The words of one whole command decode by themselves, and what follows them is handed back. -/
theorem decode_append (cw : CmdWord) (payload rest : List CmdWord) (h : payload.length + 1 = commandLength cw) :
    decode (cw :: (payload ++ rest)) = withRest (decodeWhole cw payload) rest := by
  rw [decode_cons, if_neg (by simp [← h]), ← h, Nat.add_sub_cancel, List.take_left, List.drop_left]

/-- A whole command of the announced length decodes to exactly the well-formed instruction that it encodes. -/
theorem decodeWhole_iff (cw : CmdWord) (payload : List CmdWord) (i : Instr) (h : payload.length + 1 = commandLength cw) :
    decodeWhole cw payload = .ok i ↔ encode i = .command (cw :: payload) ∧ i.wf = true := by
  rw [commandLength_eq] at h
  unfold decodeWhole
  split
  case isTrue hop =>
    have hlen : payload.length = payloadCount (cw.extractLsb' 0 16).toNat := by
      rw [if_pos hop] at h
      omega
    constructor
    · intro hi
      obtain ⟨-, -, rfl⟩ := (decodeSend_eq_ok_iff cw payload i).1 hi
      exact (decodeSend_iff cw payload _ _ hop hlen).1 hi
    · rintro ⟨henc, hwf⟩
      rcases encode_command i _ henc with ⟨size, data, rfl⟩ | ⟨first, hw, hi⟩
      · exact (decodeSend_iff cw payload size data hop hlen).2 ⟨henc, hwf⟩
      · obtain ⟨rfl, -⟩ := List.cons.inj hw
        simp [decodeHead, hop] at hi
  case isFalse hop =>
    rw [if_neg hop] at h
    obtain rfl : payload = [] := List.length_eq_zero_iff.1 (by omega)
    refine ⟨encode_of_decodeHead cw i, fun ⟨henc, _⟩ => ?_⟩
    rcases encode_command i _ henc with ⟨size, data, rfl⟩ | ⟨first, hw, hi⟩
    · obtain ⟨hw, -⟩ := List.cons.inj (PortInput.command.inj henc)
      exact absurd (hw ▸ operandWord_opcode (n := 40) (k := 16) ..) hop
    · obtain ⟨rfl, -⟩ := List.cons.inj hw
      exact hi

/-- Every instruction's encoding announces its own length, or is a code that is not reserved (Laws/PerInstr.lean). -/
theorem encoding_statement (i : Instr) : Laws.Encoding.Statement i := by
  cases i with
  | cfgPll src osc m n p q => exact Laws.Encoding.cfgPll src osc m n p q
  | setSysclk src => exact Laws.Encoding.setSysclk src
  | cfgAhb pre => exact Laws.Encoding.cfgAhb pre
  | cfgApb1 pre => exact Laws.Encoding.cfgApb1 pre
  | cfgApb2 pre => exact Laws.Encoding.cfgApb2 pre
  | setAhbClk bank bit en => exact Laws.Encoding.setAhbClk bank bit en
  | setApbClk bank bit en => exact Laws.Encoding.setApbClk bank bit en
  | getClk which => exact Laws.Encoding.getClk which
  | serInit target => exact Laws.Encoding.serInit target
  | serSend size data => exact Laws.Encoding.serSend size data
  | serRecv => exact Laws.Encoding.serRecv
  | serStat sel => exact Laws.Encoding.serStat sel
  | irqTxEmpty => exact Laws.Encoding.irqTxEmpty
  | irqRxAvailable => exact Laws.Encoding.irqRxAvailable
  | irqOverrun => exact Laws.Encoding.irqOverrun
  | irqModeFault => exact Laws.Encoding.irqModeFault
  | irqCrcError => exact Laws.Encoding.irqCrcError

theorem encode_instr (c : Cause) : encode c.instr = .event c.code := by cases c <;> rfl

/-- Only the event of a cause has a code on the event port (R99). -/
theorem encode_eq_event (i : Instr) (code : BitVec 3) (h : encode i = .event code) : ∃ c : Cause, i = c.instr ∧ c.code = code := by
  cases i with
  | irqTxEmpty => exact ⟨.txEmpty, rfl, PortInput.event.inj h⟩
  | irqRxAvailable => exact ⟨.rxAvailable, rfl, PortInput.event.inj h⟩
  | irqOverrun => exact ⟨.overrun, rfl, PortInput.event.inj h⟩
  | irqModeFault => exact ⟨.modeFault, rfl, PortInput.event.inj h⟩
  | irqCrcError => exact ⟨.crcError, rfl, PortInput.event.inj h⟩
  | cfgPll | setSysclk | cfgAhb | cfgApb1 | cfgApb2 | setAhbClk | setApbClk | getClk | serInit | serSend | serRecv | serStat => cases h

/-- Settles O4: a command's words have the length that their first word announces, and decode as one whole command. -/
theorem commandStreamStaysInStep : Obligations.CommandStreamStaysInStep := by
  intro i words rest hwf henc
  have hlength := encoding_statement i
  rw [Laws.Encoding.Statement, henc] at hlength
  obtain ⟨cw, payload, rfl, hlen⟩ := hlength
  rw [List.cons_append, decode_append cw payload rest hlen, (decodeWhole_iff cw payload i hlen).2 ⟨henc, hwf⟩]
  rfl

/-- Settles O1: a command by O4 with no words behind it, an event by the codes of the causes. -/
theorem decodeEncodeAgree : Obligations.DecodeEncodeAgree := by
  intro i hwf
  cases henc : encode i with
  | command words =>
    have hd := commandStreamStaysInStep i words [] hwf henc
    rw [List.append_nil] at hd
    rw [decodePort, hd]
  | event code =>
    obtain ⟨c, rfl, rfl⟩ := encode_eq_event i code henc
    rw [decodePort, Cause.ofCode_code, Option.map_some]

/-- Words that decode with none left over are one whole command. -/
theorem encode_of_decode (ws : List CmdWord) (i : Instr) (h : decode ws = .ok i []) : encode i = .command ws ∧ i.wf = true := by
  cases ws with
  | nil => cases h
  | cons cw ws =>
    rw [decode_cons] at h
    split at h
    case isTrue => cases h
    case isFalse hlong =>
      obtain ⟨hi, hrest⟩ := (withRest_eq_ok_iff _ _ _ _).1 h
      have hle := List.drop_eq_nil_iff.1 hrest
      rw [List.take_of_length_le hle] at hi
      have hpos : commandLength cw = 1 + _ := commandLength_eq cw
      exact (decodeWhole_iff cw ws i (by omega)).1 hi

/-- Settles O2: on the command port the words are one whole command, on the event port the code is that of a cause. -/
theorem encodeDecodeAgree : Obligations.EncodeDecodeAgree := by
  intro p i h
  cases p with
  | command ws =>
    rw [decodePort] at h
    split at h
    case h_1 j hd =>
      cases h
      exact encode_of_decode ws i hd
    case h_2 => cases h
  | event code =>
    obtain ⟨c, hc, rfl⟩ := Option.map_eq_some_iff.1 h
    rw [encode_instr, Cause.code_of_ofCode code c hc]
    exact ⟨rfl, by cases c <;> rfl⟩

/-- Settles O3: each outcome of the decoder's one equation, the words behind a command being those behind its length. -/
theorem commandTakesItsLength : Obligations.CommandTakesItsLength := by
  intro cw ws
  have hdrop : (cw :: ws).drop (commandLength cw) = ws.drop (commandLength cw - 1) := by
    rw [commandLength_eq, Nat.add_sub_cancel_left, Nat.add_comm, List.drop_succ_cons]
  rw [decode_cons, hdrop]
  split
  case isTrue hshort => exact ⟨⟨fun _ => hshort, fun _ => rfl⟩, nofun, nofun⟩
  case isFalse hlong =>
    refine ⟨⟨fun h => absurd h (withRest_ne_incomplete _ _), fun h => absurd h hlong⟩, fun i rest h => ?_, fun e rest h => ?_⟩
    · exact ((withRest_eq_ok_iff _ _ _ _).1 h).2.symm
    · exact ((withRest_eq_illegal_iff _ _ _ _).1 h).2.symm

/-- Settles O5 by evaluating the decoder on the five inputs. -/
theorem knownWordsDecode : Obligations.KnownWordsDecode := by
  unfold Obligations.KnownWordsDecode
  decide

end Sys2Proof.Encoding
end

section
/-! PROOF. Placed inputs (30_encoding R90, R99; entry 9): a placed event is delivered to the handler of its cause, and a placed word of the
opcode table is what the next step runs. -/
namespace Sys2Proof.Encoding

open Sys2Proof.Machine Sys2Proof.Safety

/-- Settles O8: the placed turn is taken, and it runs the event of the code's cause. -/
theorem stepDeliversEvent : Obligations.StepDeliversEvent := by
  intro s later code hc ht
  have hturn : step s = eventStep code { s with turns := later } := step_placed s (.event code) later hc ht
  rw [hturn]
  unfold eventStep
  cases Cause.ofCode code <;> rfl

/-! The state in which a cause is deliverable. -/

@[simp] theorem raiseCause_cfg (c : Cause) (s : State) : (raiseCause c s).cfg = s.cfg := by simp [raiseCause]

theorem causeFlag_ne_causeEnable (c : Cause) : causeFlag c ≠ causeEnable c := by cases c <;> decide

theorem causeFlag_block (c : Cause) : regOfSer (fieldReg (causeFlag c)) = true := by cases c <;> rfl

theorem causeEnable_block (c : Cause) : regOfSer (fieldReg (causeEnable c)) = true := by cases c <;> rfl

/-- Setting a field's bit makes its flag true. -/
theorem flag_hwSet_one (s : State) (h : configOk s.cfg = true) (f : Field) : (s.hwSet f 1).flag f = true :=
  (flag_true_iff _ f).2 (field_hwSet_bit s h f 1 (by decide))

/-- The serial engine's clock gate is a bit of a clock register. -/
theorem serGateOn_iff (s : State) : serGateOn s = true ↔ extractField (serGate s.cfg) (s.word (serGate s.cfg).reg) = 1 := by
  rw [serGateOn, tstb, rdf_eq, beq_iff_eq]

theorem serGate_fits (c : Config) : (serGate c).offset + (serGate c).width ≤ 32 := c.serGateBit.isLt

theorem serGate_ne_serDr (c : Config) : (serGate c).reg ≠ .serDr := by
  show apbGateReg c.serGateBank ≠ .serDr
  cases c.serGateBank <;> decide

/-- Only the parameters and the clock block decide whether the serial engine is clocked. -/
theorem serGateOn_congr {s t : State} (hc : t.cfg = s.cfg) (hr : t.rcc = s.rcc) (h : serGateOn s = true) : serGateOn t = true := by
  have hword : t.word (serGate s.cfg).reg = s.word (serGate s.cfg).reg := by
    show t.word (apbGateReg s.cfg.serGateBank) = s.word (apbGateReg s.cfg.serGateBank)
    cases s.cfg.serGateBank <;> simp only [apbGateReg, State.word, hr]
  rw [serGateOn_iff, hc, hword]
  exact (serGateOn_iff s).1 h

/-- The first of `raiseCause`'s writes switches the serial engine's clock on. -/
theorem serGateOn_setWord (s : State) :
    serGateOn (s.setWord (serGate s.cfg).reg (insertField (serGate s.cfg) (s.word (serGate s.cfg).reg) 1)) = true := by
  rw [serGateOn_iff, setWord_cfg, word_setWord_same _ _ _ (serGate_ne_serDr s.cfg), extract_insert_same _ _ _ (serGate_fits s.cfg)]
  exact and_mask_of_lt 1 1 (by decide)

/-- `raiseCause` does what its name says (R250, R252, R283, R287). -/
theorem raiseCause_deliverable (c : Cause) (s : State) (h : configOk s.cfg = true) : Deliverable c (raiseCause c s) := by
  have hset (v : Word) (r : Reg) : configOk (s.setWord r v).cfg = true := by rwa [setWord_cfg]
  refine ⟨rfl, ?_, ?_, rfl, ?_⟩
  · show (((s.setWord _ _).hwSet (causeFlag c) 1).hwSet (causeEnable c) 1).flag (causeFlag c) = true
    rw [flag_hwSet_other _ (by rw [hwSet_cfg]; exact hset _ _) _ _ _ (causeFlag_ne_causeEnable c).symm]
    exact flag_hwSet_one _ (hset _ _) _
  · exact flag_hwSet_one ((s.setWord _ _).hwSet (causeFlag c) 1) (by rw [hwSet_cfg]; exact hset _ _) (causeEnable c)
  · refine serGateOn_congr ?_ ?_ (serGateOn_setWord s)
    · simp
    · show (((s.setWord _ _).hwSet (causeFlag c) 1).hwSet (causeEnable c) 1).rcc = _
      rw [hwSet_rcc _ _ _ (by rw [hwSet_cfg]; exact hset _ _) (causeEnable_block c), hwSet_rcc _ _ _ (hset _ _) (causeFlag_block c)]

/-- Settles O9: the table word is the encoding of its instruction (O2), so the placed words decode to it in front of the others (O4) and the
placed code is delivered (O8). -/
theorem fetchedWordRuns : Obligations.FetchedWordRuns := by
  intro s nbits w i hc hdec
  obtain ⟨p, hp, hi⟩ := Option.bind_eq_some_iff.1 hdec
  obtain ⟨henc, hwf⟩ := encodeDecodeAgree p i hi
  rw [State.withFetchWord, hp]
  constructor
  · intro ws hws
    obtain rfl : p = .command ws := henc.symm.trans hws
    exact stepRunsDecodedCommand _ s.turns i s.cmdIn hc rfl rfl (commandStreamStaysInStep i ws s.cmdIn hwf hws)
  · rintro c rfl
    obtain rfl : p = .event c.code := henc.symm.trans (encode_instr c)
    refine ⟨?_, raiseCause_deliverable c s hc⟩
    have hcfg : configOk (raiseCause c s).cfg = true := by rwa [raiseCause_cfg]
    have hstep := stepDeliversEvent { raiseCause c s with turns := .event c.code :: (raiseCause c s).turns } _ c.code hcfg rfl
    simp only [Cause.ofCode_code] at hstep
    simp only [placeInput, Cause.ofCode_code]
    exact hstep

end Sys2Proof.Encoding
end

section
/-! PROOF. Responses (30_encoding R97, R98; R247): the layout of the response word, and what the first step of each command and an event
leave on the response port. -/
namespace Sys2Proof.Machine

/-- R97's layout: status, zeros, value. -/
theorem toWord_slices (r : Response) :
    r.toWord.extractLsb' 60 4 = r.status.code ∧ r.toWord.extractLsb' 32 28 = 0 ∧ r.toWord.extractLsb' 0 32 = r.value := by
  refine ⟨?_, ?_, ?_⟩
  all_goals
    simp (disch := omega) only [Response.toWord, BitVec.extractLsb'_append_eq_of_le, BitVec.extractLsb'_append_eq_of_add_le]
    exact BitVec.extractLsb'_eq_self

@[simp] theorem startPll_resp (src : PllSrc) (osc : Word) (m : BitVec 6) (n : BitVec 9) (p : PllP) (q : BitVec 4) (s : State) :
    (startPll src osc m n p q s).resp = s.resp := by
  simp only [startPll, wrfF_resp]
  split <;> simp

theorem handlerRule_resp (c : Cause) (s : State) : (handlerRule c s).resp = s.resp := by
  cases c with
  | txEmpty =>
    simp only [handlerRule, handleTxEmpty]
    split <;> simp
  | rxAvailable =>
    simp only [handlerRule, handleRxAvailable]
    split <;> simp
  | overrun => simp [handlerRule, handleOverrun, clearOverrun]
  | modeFault => simp [handlerRule, handleModeFault, clearModeFault]
  | crcError => simp [handlerRule, handleCrcError]

theorem event_resp (c : Cause) (s t : State) (h : exec c.instr s = .next t) : t.resp = s.resp := by
  rcases event_next c s t h with rfl | ⟨-, -, -, -, rfl⟩
  · rfl
  · exact handlerRule_resp c (enterHandler s)

/-- Settles O30: the word by its slices, the statuses by what the first step of each command can do. -/
theorem statusSummary : Obligations.StatusSummary := by
  refine ⟨fun r => ?_, fun i s t h => ?_⟩
  · obtain ⟨hstatus, hzeros, hvalue⟩ := toWord_slices r
    refine ⟨?_, hzeros, hvalue⟩
    rw [hstatus]
    cases r.status <;> rfl
  · cases i with
    | cfgPll src osc m n p q =>
      rcases execCfgPll_next src osc m n p q s t h with rfl | ⟨-, -, -, rfl⟩
      · exact .inr rfl
      · exact .inl ⟨rfl, startPll_resp src osc m n p q s⟩
    | setSysclk src =>
      obtain ⟨-, rfl⟩ := execSetSysclk_next src s t h
      exact ⟨rfl, wrfF_resp ..⟩
    | cfgAhb | cfgApb1 | cfgApb2 => exact (saveAndRespond_completes _ t h).2.2.2
    | setAhbClk | setApbClk =>
      cases h
      rfl
    | getClk =>
      cases h
      exact ⟨_, rfl⟩
    | serStat sel =>
      obtain ⟨v, draws, hs⟩ := execSerStat_eq sel s
      cases hs.symm.trans h
      exact ⟨v, rfl⟩
    | serInit target =>
      rcases execSerInit_next target s t h with ⟨-, rfl | ⟨k, rfl⟩⟩
      · exact .inr rfl
      · exact .inl rfl
    | serSend size data =>
      rcases execSerSend_next size data s t h with ⟨-, rfl | rfl⟩
      · exact .inr rfl
      · exact .inl rfl
    | serRecv =>
      rcases execSerRecv_next s t h with rfl | ⟨b, rest, -, rfl⟩
      · exact .inr rfl
      · exact .inl ⟨_, rfl⟩
    | irqTxEmpty => exact event_resp .txEmpty s t h
    | irqRxAvailable => exact event_resp .rxAvailable s t h
    | irqOverrun => exact event_resp .overrun s t h
    | irqModeFault => exact event_resp .modeFault s t h
    | irqCrcError => exact event_resp .crcError s t h

end Sys2Proof.Machine
end

section
/-! PROOF. Field writes of the Register Access Layer (40_register_access R120 to R123): what a write of a field that software owns stores in
the field's register. -/
namespace Sys2Proof.Machine

open Sys2Proof.Safety

/-- No field of `SER_SR` is one that software owns: each bit there is the hardware's or can only be cleared (R36, R66, R68 c). -/
theorem softwareField_ne_serSr (c : Config) (h : layoutOk c = true) (d : Desc) (hd : SoftwareField c d) : d.reg ≠ .serSr := by
  obtain ⟨hwf, hsoft⟩ := hd
  obtain ⟨hpos, hfits, -⟩ := (desc_wf_iff d).1 hwf
  intro hr
  obtain ⟨hhard, hclear⟩ := softwareField_bit c d hsoft d.offset le_rfl (by omega) (by omega)
  have hbits : hardwareBits c d.reg = ~~~(clearOnlyBits c d.reg) := by
    rw [hardwareBits_rules c h, clearOnlyBits_rules c h, hr, if_pos rfl]
  rw [hbits, BitVec.getLsbD_not, hclear, decide_eq_true (by omega : d.offset < 32)] at hhard
  cases hhard

/-- A field that software owns reads alike in two words that agree wherever the hardware owns no bit. -/
theorem extract_softwareField_congr (c : Config) (d : Desc) (hd : SoftwareField c d) (w w' : Word)
    (hw : ∀ i, (hardwareBits c d.reg).getLsbD i = false → w'.getLsbD i = w.getLsbD i) : extractField d w' = extractField d w := by
  obtain ⟨hwf, hsoft⟩ := hd
  obtain ⟨-, hfits, -⟩ := (desc_wf_iff d).1 hwf
  apply BitVec.eq_of_getLsbD_eq
  intro i _
  rw [getLsbD_extractField, getLsbD_extractField]
  by_cases hi : i < d.width
  · have hbit := softwareField_bit c d hsoft (d.offset + i) (by omega) (by omega) (by omega)
    rw [hw _ hbit.1]
  · simp [hi]

section
variable {s : State} {d : Desc} (h : layoutOk s.cfg = true) (hd : SoftwareField s.cfg d) (v : Word)
include h hd

/-- The write stores the word with the field replaced, wherever the hardware owns no bit (R66, R121). -/
theorem getLsbD_word_wrf (i : Nat) (hi : (hardwareBits s.cfg d.reg).getLsbD i = false) :
    ((wrf d v s).word d.reg).getLsbD i = (insertField d (s.word d.reg) v).getLsbD i := by
  obtain ⟨-, -, hdr⟩ := (desc_wf_iff d).1 hd.1
  rw [wrf_of_ne d v s hdr, getLsbD_word_regWrite _ _ s h hdr (softwareField_ne_serSr s.cfg h d hd), hi, if_neg Bool.false_ne_true]

/-- The write's frame: the word of the field's register. -/
theorem wrf_frame : wrf d v s = s.setWord d.reg ((wrf d v s).word d.reg) := by
  obtain ⟨-, -, hdr⟩ := (desc_wf_iff d).1 hd.1
  rw [wrf_of_ne d v s hdr]
  exact regWrite_frame _ _ s h hdr

/-- A field that software owns reads, in the register written, as in the word with the field replaced. -/
theorem rdf_wrf_same_reg (e : Desc) (he : SoftwareField s.cfg e) (hr : e.reg = d.reg) :
    rdf e (wrf d v s) = extractField e (insertField d (s.word d.reg) v) := by
  rw [rdf_eq, hr]
  exact extract_softwareField_congr s.cfg e he _ _ fun i hi => getLsbD_word_wrf h hd v i (hr ▸ hi)

/-- Another register's fields read as before. -/
theorem rdf_wrf_other_reg (e : Desc) (hr : e.reg ≠ d.reg) : rdf e (wrf d v s) = rdf e s := by
  rw [rdf_eq, rdf_eq, wrf_frame h hd v, word_setWord, if_neg (fun hsame => hr hsame.1)]

/-- R123 a: the field reads back what was written, masked to its width. -/
theorem rdf_wrf_same : rdf d (wrf d v s) = v &&& mask d.width := by
  obtain ⟨-, hfits, -⟩ := (desc_wf_iff d).1 hd.1
  rw [rdf_wrf_same_reg h hd v d hd rfl, extract_insert_same _ _ _ hfits]

/-- R123 b: a field apart from the one written lies in another register, or in this one beside it. -/
theorem rdf_wrf_apart (e : Desc) (he : SoftwareField s.cfg e) (hapart : d.apart e = true) : rdf e (wrf d v s) = rdf e s := by
  by_cases hr : e.reg = d.reg
  · have hbeside : d.offset + d.width ≤ e.offset ∨ e.offset + e.width ≤ d.offset := by simpa [Desc.apart, hr] using hapart
    rw [rdf_wrf_same_reg h hd v e he hr, extract_insert_apart d e _ _ hbeside, rdf_eq, hr]
  · exact rdf_wrf_other_reg h hd v e hr

end

/-- Settles O12: the field reads back and the fields apart from it read as before (R123 a, b), the frame is the register's word, and a bit of
it outside the field is not replaced (R123 c). -/
theorem fieldWriteLaws : Obligations.FieldWriteLaws := by
  intro s d v h hd
  refine ⟨rdf_wrf_same h hd v, rdf_wrf_apart h hd v, wrf_frame h hd v, fun i hout hi => ?_⟩
  rw [getLsbD_word_wrf h hd v i hi, getLsbD_insertField, if_neg (by omega)]

end Sys2Proof.Machine
end

section
/-! PROOF. Clock commands that need no new snapshot (41_clock_tree R144, R145, R157 to R159), and what none of the eight reaches (R140). -/
namespace Sys2Proof.Machine

open Sys2Proof.Safety

/-! The serial side (R140, R259). -/

/-- A clock command's frame has nothing of the serial side in it. -/
theorem ClockFrame.sameSerial {s t : State} (h : ClockFrame s t) : SameSerial s t := by
  obtain ⟨_, _, _, _, _, _, _, rfl⟩ := h
  exact ⟨rfl, rfl, rfl, rfl, rfl, rfl, rfl, rfl, rfl⟩

/-- Settles O29: each of the eight commands and both polls stay in the clock frame. -/
theorem clockCommandsLeaveSerial : Obligations.ClockCommandsLeaveSerial := by
  intro s t hc
  have command (i : Instr) (hi : clockCommand i = true) (h : exec i s = .next t) : SameSerial s t :=
    (clockCommand_frame i s t hc hi h).sameSerial
  exact ⟨fun _ _ _ _ _ _ => command _ rfl, fun _ => command _ rfl, fun _ => command _ rfl, fun _ => command _ rfl,
    fun _ => command _ rfl, fun _ _ _ => command _ rfl, fun _ _ _ => command _ rfl, fun _ => command _ rfl,
    fun h => (cfgPllWait_frame s t h).sameSerial, fun h => (setSysclkWait_frame s t h).sameSerial⟩

/-! Shift tables (R144, R145). -/

/-- The check of R8 on a shift table is that no shift occurs twice, the 0 of `DIV1` among them. -/
theorem injectiveWithZero_iff (shifts : List Nat) : injectiveWithZero shifts = true ↔ (0 :: shifts).Nodup := by
  induction shifts with
  | nil => simp [injectiveWithZero]
  | cons a rest ih =>
    simp only [injectiveWithZero, Bool.and_eq_true, bne_iff_ne, List.all_eq_true, ih, List.nodup_cons, List.mem_cons, not_or]
    constructor
    · rintro ⟨⟨ha, hrest⟩, hzero, hnd⟩
      exact ⟨⟨Ne.symm ha, hzero⟩, fun hmem => hrest a hmem rfl, hnd⟩
    · rintro ⟨⟨ha, hzero⟩, hmem, hnd⟩
      exact ⟨⟨Ne.symm ha, fun b hb hab => hmem (hab ▸ hb)⟩, hzero, hnd⟩

/-- A table that passes the check gives each setting its own shift. -/
theorem shift_injective {α : Type} (shift : α → Nat) (settings : List α) (hall : ∀ p, p ∈ settings) (shifts : List Nat)
    (hmap : settings.map shift = 0 :: shifts) (h : injectiveWithZero shifts = true) (p q : α) (hpq : shift p = shift q) : p = q :=
  List.inj_on_of_nodup_map (hmap ▸ (injectiveWithZero_iff shifts).1 h) (hall p) (hall q) hpq

/-- A setting's register code selects its shift (R144). -/
theorem ahbShift_code (t : AhbShifts) (pre : AhbPre) : ahbShift t pre.code.toNat = ahbPreShift t pre := by cases pre <;> rfl

theorem apbShift_code (t : ApbShifts) (pre : ApbPre) : apbShift t pre.code.toNat = apbPreShift t pre := by cases pre <;> rfl

theorem ahbPreShift_injective (t : AhbShifts) (h : injectiveWithZero (ahbShiftList t) = true) (p q : AhbPre)
    (hpq : ahbPreShift t p = ahbPreShift t q) : p = q :=
  shift_injective (ahbPreShift t) [.div1, .div2, .div4, .div8, .div16, .div64, .div128, .div256, .div512]
    (fun p => by cases p <;> decide) (ahbShiftList t) rfl h p q hpq

theorem apbPreShift_injective (t : ApbShifts) (h : injectiveWithZero (apbShiftList t) = true) (p q : ApbPre)
    (hpq : apbPreShift t p = apbPreShift t q) : p = q :=
  shift_injective (apbPreShift t) [.div1, .div2, .div4, .div8, .div16] (fun p => by cases p <;> decide) (apbShiftList t) rfl h p q hpq

/-- A code with its top bit clear is no division (R144, 93 U14). -/
theorem ahbShift_of_lt (t : AhbShifts) (code : Nat) (h : code < 8) : ahbShift t code = 0 := by
  unfold ahbShift
  split
  case h_9 => exact if_pos h
  all_goals omega

theorem apbShift_of_lt (t : ApbShifts) (code : Nat) (h : code < 4) : apbShift t code = 0 := by
  unfold apbShift
  split
  case h_5 => exact if_pos h
  all_goals omega

theorem configOk_shifts (c : Config) (h : configOk c = true) :
    injectiveWithZero (ahbShiftList c.ahbShifts) = true ∧ injectiveWithZero (apbShiftList c.apbShifts) = true := by
  simp only [configOk, rangesOk, shiftsOk, Bool.and_eq_true] at h
  simp only [h, and_self]

/-- Settles O38: through the shift of a setting, which its code selects. -/
theorem shiftTables : Obligations.ShiftTables := by
  refine ⟨fun c hc => ?_, fun p => by cases p <;> rfl, fun p => by cases p <;> rfl⟩
  obtain ⟨hahb, hapb⟩ := configOk_shifts c hc
  refine ⟨fun p q hpq => ?_, fun p q hpq => ?_, fun code hmsb => ?_, fun code hmsb => ?_⟩
  · rw [ahbShift_code, ahbShift_code] at hpq
    exact ahbPreShift_injective c.ahbShifts hahb p q hpq
  · rw [apbShift_code, apbShift_code] at hpq
    exact apbPreShift_injective c.apbShifts hapb p q hpq
  · exact ahbShift_of_lt _ _ (by have := BitVec.msb_eq_false_iff_two_mul_lt.1 hmsb; omega)
  · exact apbShift_of_lt _ _ (by have := BitVec.msb_eq_false_iff_two_mul_lt.1 hmsb; omega)

/-! Clock gates (R157, R158). -/

/-- What both gate commands do, by enable register: write the one bit, respond `OK`. -/
def setGate (r : Reg) (bit : BitVec 5) (en : Bool) (s : State) : State := respond .ok 0 (wrf (gateDesc r bit) (bitValue en) s)

theorem exec_setAhbClk (bank : AhbBank) (bit : BitVec 5) (en : Bool) (s : State) :
    exec (.setAhbClk bank bit en) s = .next (setGate (ahbGateReg bank) bit en s) := rfl

theorem exec_setApbClk (bank : ApbBank) (bit : BitVec 5) (en : Bool) (s : State) :
    exec (.setApbClk bank bit en) s = .next (setGate (apbGateReg bank) bit en s) := rfl

theorem ahbGateReg_enable (bank : AhbBank) : ahbGateReg bank = .rccAhb1enr ∨ ahbGateReg bank = .rccAhb2enr ∨
    ahbGateReg bank = .rccAhb3enr ∨ ahbGateReg bank = .rccApb1enr ∨ ahbGateReg bank = .rccApb2enr := by
  cases bank <;> simp [ahbGateReg]

theorem apbGateReg_enable (bank : ApbBank) : apbGateReg bank = .rccAhb1enr ∨ apbGateReg bank = .rccAhb2enr ∨
    apbGateReg bank = .rccAhb3enr ∨ apbGateReg bank = .rccApb1enr ∨ apbGateReg bank = .rccApb2enr := by
  cases bank <;> simp [apbGateReg]

/-- Inserting the same value again changes nothing. -/
theorem insertField_insertField_self (d : Desc) (w v : Word) : insertField d (insertField d w v) v = insertField d w v := by
  apply BitVec.eq_of_getLsbD_eq
  intro i _
  simp only [getLsbD_insertField]
  split <;> rfl

/-- A gate field is its one bit. -/
theorem getLsbD_insertField_gate (r : Reg) (bit : BitVec 5) (w : Word) (en : Bool) (i : Nat) :
    (insertField (gateDesc r bit) w (bitValue en)).getLsbD i = if i = bit.toNat then en else w.getLsbD i := by
  have hinside : bit.toNat ≤ i ∧ i < bit.toNat + 1 ↔ i = bit.toNat := by omega
  rw [getLsbD_insertField]
  simp only [gateDesc, hinside]
  split
  case isTrue hbit =>
    rw [hbit, Nat.sub_self, decide_eq_true bit.isLt]
    cases en <;> rfl
  case isFalse => rfl

section
variable {r : Reg} (hr : r = .rccAhb1enr ∨ r = .rccAhb2enr ∨ r = .rccAhb3enr ∨ r = .rccApb1enr ∨ r = .rccApb2enr)
include hr

theorem enable_ne_serDr : r ≠ .serDr := by rcases hr with rfl | rfl | rfl | rfl | rfl <;> decide

variable {s : State} (hc : configOk s.cfg = true) (bit : BitVec 5) (en : Bool)
include hc

/-- An enable register has no side effects: the word with the bit replaced is stored. -/
theorem setGate_eq : setGate r bit en s = respond .ok 0 (s.setWord r (insertField (gateDesc r bit) (s.word r) (bitValue en))) := by
  rw [setGate, wrf_of_ne (gateDesc r bit) _ s (enable_ne_serDr hr)]
  exact congrArg (respond .ok 0) (regWrite_gate r _ s hc hr)

theorem word_setGate : (setGate r bit en s).word r = insertField (gateDesc r bit) (s.word r) (bitValue en) := by
  rw [setGate_eq hr hc]
  exact word_setWord_same s r _ (enable_ne_serDr hr)

theorem setGate_frame :
    setGate r bit en s = { s.setWord r ((setGate r bit en s).word r) with resp := some ⟨.ok, 0⟩, seq := .idle, op := none } := by
  rw [word_setGate hr hc, setGate_eq hr hc]
  rfl

/-- R157: setting a gate twice is setting it once. -/
theorem setGate_setGate : setGate r bit en (setGate r bit en s) = setGate r bit en s := by
  have hc' : configOk (setGate r bit en s).cfg = true := by simpa [setGate] using hc
  rw [setGate_eq hr hc', word_setGate hr hc, insertField_insertField_self, setGate_eq hr hc]
  rcases hr with rfl | rfl | rfl | rfl | rfl <;> rfl

end

/-- Settles O39. -/
theorem setAhbClkEffect : Obligations.SetAhbClkEffect := by
  intro s bank bit en hc
  have hr := ahbGateReg_enable bank
  refine ⟨_, exec_setAhbClk bank bit en s, fun i _ => ?_, setGate_frame hr hc bit en, exec_setAhbClk bank bit en s, ?_⟩
  · rw [word_setGate hr hc, getLsbD_insertField_gate]
  · rw [exec_setAhbClk, setGate_setGate hr hc]

/-- Settles O40. -/
theorem setApbClkEffect : Obligations.SetApbClkEffect := by
  intro s bank bit en hc
  have hr := apbGateReg_enable bank
  refine ⟨_, exec_setApbClk bank bit en s, fun i _ => ?_, setGate_frame hr hc bit en, exec_setApbClk bank bit en s, ?_⟩
  · rw [word_setGate hr hc, getLsbD_insertField_gate]
  · rw [exec_setApbClk, setGate_setGate hr hc]

/-! The cached snapshot (R159). -/

/-- A fresh snapshot holds the shifted frequencies themselves: they fit its registers (R141, R162 b). -/
theorem busSpeedsExact_of_fresh (s : State) (h : SnapshotFresh s) : BusSpeedsExact s := by
  obtain ⟨sys, ⟨-, hlt⟩, hs⟩ := h
  have exact_of_le (n : Nat) (hn : n ≤ sys) : (BitVec.ofNat 32 n).toNat = n := by
    rw [BitVec.toNat_ofNat, Nat.mod_eq_of_lt (Nat.lt_of_le_of_lt hn hlt)]
  have hahb := Nat.shiftRight_le sys (liveShifts s).1
  have hsys := exact_of_le sys le_rfl
  rw [BusSpeedsExact, hs]
  simp only [liveSnapshot, snapshotOf, hsys]
  exact ⟨exact_of_le _ hahb, exact_of_le _ (le_trans (Nat.shiftRight_le _ _) hahb),
    exact_of_le _ (le_trans (Nat.shiftRight_le _ _) hahb)⟩

/-- Settles O41. -/
theorem getClkEffect : Obligations.GetClkEffect := by
  intro s which
  exact ⟨by cases which <;> rfl, busSpeedsExact_of_fresh s⟩

end Sys2Proof.Machine
end

section
/-! PROOF. The first steps of `CFG_PLL` and `SET_SYSCLK` (41_clock_tree R146, R150, R152): what their register writes store. -/
namespace Sys2Proof.Machine

open Sys2Proof.Safety

/-! Bits outside the fields that a register write is about. -/

/-- Setting a field keeps a register's word outside a list of fields, if the field is on the list or lies in another register. -/
theorem sameOutside_hwSet {s : State} (h : layoutOk s.cfg = true) {r : Reg} {fs : List Field} {w : Word}
    (hw : SameOutsideFields s.cfg fs w (s.word r)) (f : Field) (v : Word) (hf : fieldReg f = r → f ∈ fs) :
    SameOutsideFields s.cfg fs w ((s.hwSet f v).word r) := by
  intro i hi
  rw [hw i hi, State.hwSet, word_setWord, desc_reg s h]
  split
  case isTrue hr =>
    have hout := hi f (hf hr.1.symm)
    rw [hr.1, getLsbD_insertField, if_neg (by simp only [State.desc]; omega)]
  case isFalse => rfl

/-- A word that agrees with another outside no field at all is that word. -/
theorem eq_of_sameOutside_nil {c : Config} {w v : Word} (h : SameOutsideFields c [] w v) : v = w :=
  BitVec.eq_of_getLsbD_eq fun i _ => (h i (by simp)).symm

/-- A value that fits a field's legal values reads back as the hardware set it. -/
theorem field_hwSet_value (s : State) (h : layoutOk s.cfg = true) (f : Field) (v : Word) (hv : v.toNat < 2 ^ fieldWidth f) :
    (s.hwSet f v).field f = v := by
  rw [field_hwSet_same s (layoutOk_configOk _ h), and_mask_desc s h f v hv]

/-- Where only the words of `RCC_CR` and `RCC_PLLCFGR` may differ, the clock blocks differ in no other. -/
theorem rcc_eq_of_word {s t : State} (h : ∀ r, r ≠ .rccCr → r ≠ .rccPllcfgr → t.word r = s.word r) :
    t.rcc = { s.rcc with cr := t.rcc.cr, pllcfgr := t.rcc.pllcfgr } := by
  have hcfgr : t.rcc.cfgr = s.rcc.cfgr := h .rccCfgr (by decide) (by decide)
  have hahb1 : t.rcc.ahb1enr = s.rcc.ahb1enr := h .rccAhb1enr (by decide) (by decide)
  have hahb2 : t.rcc.ahb2enr = s.rcc.ahb2enr := h .rccAhb2enr (by decide) (by decide)
  have hahb3 : t.rcc.ahb3enr = s.rcc.ahb3enr := h .rccAhb3enr (by decide) (by decide)
  have hapb1 : t.rcc.apb1enr = s.rcc.apb1enr := h .rccApb1enr (by decide) (by decide)
  have hapb2 : t.rcc.apb2enr = s.rcc.apb2enr := h .rccApb2enr (by decide) (by decide)
  simp only [← hcfgr, ← hahb1, ← hahb2, ← hahb3, ← hapb1, ← hapb2]

/-! `CFG_PLL`. -/

theorem pllField_reg (f : Field) : pllField f = true → fieldReg f = .rccCr ∨ fieldReg f = .rccPllcfgr := by cases f <;> decide

/-- `pll_valid` is the conjunction of R146's ranges. -/
theorem pllValid_iff (c : Config) (osc m n q : Nat) : pllValid c osc m n q = true ↔ PllRanges c osc m n q := by
  simp only [pllValid, PllRanges, Bool.and_eq_true, decide_eq_true_eq, and_assoc]

theorem pllInUse_iff (s : State) : pllInUse s = true ↔ s.field .sw = 2 ∨ s.field .sws = 2 := by
  simp only [pllInUse, rdfF_eq_field, Bool.or_eq_true, beq_iff_eq]

section
variable (src : PllSrc) (osc : Word) (m : BitVec 6) (n : BitVec 9) (p : PllP) (q : BitVec 4) (s : State)

theorem exec_cfgPll_inUse (h : s.field .sw = 2 ∨ s.field .sws = 2) : exec (.cfgPll src osc m n p q) s = .refused .pllInUse :=
  if_pos ((pllInUse_iff s).2 h)

theorem exec_cfgPll_unused (hsw : s.field .sw ≠ 2) (hsws : s.field .sws ≠ 2) :
    exec (.cfgPll src osc m n p q) s =
      if pllValid s.cfg osc.toNat m.toNat n.toNat q.toNat then
        .next (latch (.cfgPll src osc m n p q) .pllWait (startPll src osc m n p q s))
      else .next (raise .configError s) :=
  if_neg fun hu => ((pllInUse_iff s).1 hu).elim hsw hsws

theorem exec_cfgPll_invalid (hsw : s.field .sw ≠ 2) (hsws : s.field .sws ≠ 2)
    (h : ¬ PllRanges s.cfg osc.toNat m.toNat n.toNat q.toNat) :
    exec (.cfgPll src osc m n p q) s = .next (raise .configError s) := by
  rw [exec_cfgPll_unused src osc m n p q s hsw hsws, if_neg (by rwa [pllValid_iff])]

theorem exec_cfgPll_valid (hsw : s.field .sw ≠ 2) (hsws : s.field .sws ≠ 2)
    (h : PllRanges s.cfg osc.toNat m.toNat n.toNat q.toNat) :
    exec (.cfgPll src osc m n p q) s = .next (latch (.cfgPll src osc m n p q) .pllWait (startPll src osc m n p q s)) := by
  rw [exec_cfgPll_unused src osc m n p q s hsw hsws, if_pos ((pllValid_iff ..).2 h)]

/-! The register writes of a valid one, in R150's order. -/

variable (h : layoutOk s.cfg = true)
include h

/-- Stopping the PLL first where it runs: two fields of `RCC_CR` at 0 (R68 a). -/
theorem stopPll_eq :
    (if tstbF .pllon s then wrfF .pllon 0 s else s) =
      if s.flag .pllon then (s.hwSet .pllon 0).hwSet .pllrdy 0 else s := by
  rw [tstbF_eq_flag]
  split
  · rw [wrfF_pllon s h 0, if_pos (by simp)]
  · rfl

/-- Before it is started again the PLL is not ready, if being ready implied being on (R31, R150). -/
theorem field_stopPll_pllrdy (hoff : s.flag .pllon = false → s.flag .pllrdy = false) :
    (if tstbF .pllon s then wrfF .pllon 0 s else s).field .pllrdy = 0 := by
  rw [tstbF_eq_flag]
  split
  case isTrue => exact pllrdy_stop s h
  case isFalse hon => exact (flag_false_iff s h .pllrdy rfl).1 (hoff (by simpa using hon))

/-- The settings but M and N, which `field_writeSettings` gives; `PLLRDY` is none of them. -/
theorem field_writeSettings_rest :
    (writeSettings src m n p q s).field .pllp = pllPWord p ∧ (writeSettings src m n p q s).field .pllq = q.setWidth 32 ∧
    (writeSettings src m n p q s).field .pllsrc = pllSrcWord src ∧
    (writeSettings src m n p q s).field .pllrdy = s.field .pllrdy := by
  have hc := layoutOk_configOk _ h
  have hp : (pllPWord p).toNat < 2 ^ fieldWidth .pllp := by cases p <;> decide
  have hs : (pllSrcWord src).toNat < 2 ^ fieldWidth .pllsrc := by cases src <;> decide
  have hq : (q.setWidth 32).toNat < 2 ^ fieldWidth .pllq := by
    rw [BitVec.toNat_setWidth_of_le (by decide)]
    exact q.isLt
  have other (u : State) (hu : u.cfg = s.cfg) (f g : Field) (hne : f ≠ g) (v : Word) : (u.hwSet f v).field g = u.field g :=
    field_hwSet_other u (hu ▸ hc) f g v hne
  have value (u : State) (hu : u.cfg = s.cfg) (f : Field) (v : Word) (hv : v.toNat < 2 ^ fieldWidth f) : (u.hwSet f v).field f = v :=
    field_hwSet_value u (hu ▸ h) f v hv
  rw [writeSettings_eq_hwSet _ _ _ _ _ _ h]
  refine ⟨?_, ?_, value _ (by simp) .pllsrc _ hs, ?_⟩
  · rw [other _ (by simp) .pllsrc .pllp (by decide), other _ (by simp) .pllq .pllp (by decide), value _ (by simp) .pllp _ hp]
  · rw [other _ (by simp) .pllsrc .pllq (by decide), value _ (by simp) .pllq _ hq]
  · simp [field_hwSet_other, hc]

/-- The fields of a started PLL that `field_startPll` leaves open: P, Q and the source as written; not ready yet (R150). -/
theorem field_startPll_rest :
    (startPll src osc m n p q s).field .pllp = pllPWord p ∧ (startPll src osc m n p q s).field .pllq = q.setWidth 32 ∧
    (startPll src osc m n p q s).field .pllsrc = pllSrcWord src ∧
    ((s.flag .pllon = false → s.flag .pllrdy = false) → (startPll src osc m n p q s).field .pllrdy = 0) := by
  have stopped := field_stopPll_pllrdy s h
  have hcfg : layoutOk (if tstbF .pllon s then wrfF .pllon 0 s else s).cfg = true := by split <;> simpa using h
  rw [startPll_eq_writeSettings]
  generalize (if tstbF .pllon s then wrfF .pllon 0 s else s) = u at stopped hcfg ⊢
  obtain ⟨hp, hq, hsrc, hrdy⟩ := field_writeSettings_rest src m n p q u hcfg
  rw [← writeSettings_cfg src m n p q u] at hcfg
  generalize writeSettings src m n p q u = w at hp hq hsrc hrdy hcfg ⊢
  have start (g : Field) (hne : Field.pllon ≠ g) (hd : disturbs .pllon g = false) :
      (wrfF .pllon 1 { w with pllOscHz := osc }).field g = w.field g :=
    field_wrfF_other { w with pllOscHz := osc } hcfg .pllon g 1 rfl hne hd
  refine ⟨(start .pllp (by decide) rfl).trans hp, (start .pllq (by decide) rfl).trans hq, (start .pllsrc (by decide) rfl).trans hsrc,
    fun hoff => ?_⟩
  exact (pllrdy_start { w with pllOscHz := osc } hcfg).trans (hrdy.trans (stopped hoff))

/-- Starting the PLL keeps every register outside the PLL's fields. -/
theorem sameOutside_startPll (r : Reg) (fs : List Field) (hfs : ∀ f, pllField f = true → fieldReg f = r → f ∈ fs) :
    SameOutsideFields s.cfg fs (s.word r) ((startPll src osc m n p q s).word r) := by
  have set {u : State} (hu : u.cfg = s.cfg) (hw : SameOutsideFields s.cfg fs (s.word r) (u.word r)) (f : Field) (v : Word)
      (hf : pllField f = true) : SameOutsideFields s.cfg fs (s.word r) ((u.hwSet f v).word r) :=
    hu ▸ sameOutside_hwSet (hu ▸ h) (hu.symm ▸ hw) f v (hfs f hf)
  have refl : SameOutsideFields s.cfg fs (s.word r) (s.word r) := fun _ _ => rfl
  rw [startPll_eq_writeSettings, stopPll_eq s h]
  have stopped : SameOutsideFields s.cfg fs (s.word r) ((if s.flag .pllon then (s.hwSet .pllon 0).hwSet .pllrdy 0 else s).word r) := by
    split
    · exact set (by simp) (set rfl refl .pllon 0 rfl) .pllrdy 0 rfl
    · exact refl
  have hcfg : (if s.flag .pllon then (s.hwSet .pllon 0).hwSet .pllrdy 0 else s).cfg = s.cfg := by split <;> simp
  generalize (if s.flag .pllon then (s.hwSet .pllon 0).hwSet .pllrdy 0 else s) = u at stopped hcfg ⊢
  have settings : SameOutsideFields s.cfg fs (s.word r) ((writeSettings src m n p q u).word r) := by
    rw [writeSettings_eq_hwSet src m n p q u (hcfg.symm ▸ h)]
    exact set (by simp [hcfg]) (set (by simp [hcfg]) (set (by simp [hcfg]) (set (by simp [hcfg]) (set hcfg stopped .pllm _ rfl)
      .plln _ rfl) .pllp _ rfl) .pllq _ rfl) .pllsrc _ rfl
  have hw : (writeSettings src m n p q u).cfg = s.cfg := (writeSettings_cfg src m n p q u).trans hcfg
  rw [wrfF_pllon _ (hw.symm ▸ h), if_neg (by simp [mask])]
  refine set (u := { writeSettings src m n p q u with pllOscHz := osc }) hw ?_ .pllon 1 rfl
  cases r <;> exact settings

/-- The frame of a started PLL: two words of the clock block and `x[7]` (R150). -/
theorem startPll_frame :
    startPll src osc m n p q s = { s with
      rcc := { s.rcc with cr := (startPll src osc m n p q s).rcc.cr, pllcfgr := (startPll src osc m n p q s).rcc.pllcfgr }
      pllOscHz := osc } := by
  have hrcc : (startPll src osc m n p q s).rcc = _ := rcc_eq_of_word fun r hcr hcfgr => by
    refine eq_of_sameOutside_nil (sameOutside_startPll src osc m n p q s h r [] fun f hf hr => ?_)
    rcases pllField_reg f hf with hf | hf
    · exact absurd (hr.symm.trans hf) hcr
    · exact absurd (hr.symm.trans hf) hcfgr
  obtain ⟨rcc, hr⟩ := startPll_eq src osc m n p q s (layoutOk_configOk _ h)
  exact hr.trans (congrArg (fun rcc => { s with rcc := rcc, pllOscHz := osc }) ((congrArg State.rcc hr).symm.trans hrcc))

end

/-- Settles O31: the three outcomes of the first step, the last through the fields, the words and the frame of the started PLL. -/
theorem cfgPllEffect : Obligations.CfgPllEffect := by
  intro s src osc m n p q h
  refine ⟨exec_cfgPll_inUse src osc m n p q s, exec_cfgPll_invalid src osc m n p q s, fun hsw hsws hranges => ?_⟩
  obtain ⟨hon, hm, hn, -⟩ := field_startPll src osc m n p q s h
  obtain ⟨hp, hq, hsrc, hrdy⟩ := field_startPll_rest src osc m n p q s h
  refine ⟨_, exec_cfgPll_valid src osc m n p q s hsw hsws hranges, hm, hn, hp, hq, hsrc, hon, hrdy, ?_, ?_, ?_⟩
  · exact sameOutside_startPll src osc m n p q s h .rccPllcfgr _ (by intro f; cases f <;> decide)
  · exact sameOutside_startPll src osc m n p q s h .rccCr _ (by intro f; cases f <;> decide)
  · exact congrArg (latch (.cfgPll src osc m n p q) .pllWait) (startPll_frame src osc m n p q s h)

/-! `SET_SYSCLK`. -/

theorem exec_setSysclk_notReady (s : State) (h : s.flag .pllrdy = false) : exec (.setSysclk .pll) s = .fault .pllNotReady := by
  simp [exec, execSetSysclk, tstbF_eq_flag, h]

theorem exec_setSysclk_ready (s : State) (src : ClkSrc) (h : src = .pll → s.flag .pllrdy = true) :
    exec (.setSysclk src) s = .next (latch (.setSysclk src) .swWait (wrfF .sw (srcWord src) s)) := by
  refine if_neg fun hf => ?_
  rw [Bool.and_eq_true, beq_iff_eq, Bool.not_eq_true', tstbF_eq_flag] at hf
  exact Bool.noConfusion ((h hf.1).symm.trans hf.2)

/-- A write of `SW` replaces its field in `RCC_CFGR` and nothing else (R121, R152). -/
theorem wrfF_sw (s : State) (h : layoutOk s.cfg = true) (v : Word) :
    wrfF .sw v s = { s with rcc := { s.rcc with cfgr := insertField (s.desc .sw) s.rcc.cfgr v } } := by
  rw [wrfF_store s h .sw v rfl (by decide), State.hwSet, desc_reg s h]
  rfl

theorem field_wrfF_sw (s : State) (h : layoutOk s.cfg = true) (src : ClkSrc) : (wrfF .sw (srcWord src) s).field .sw = srcWord src :=
  field_wrfF_value s h .sw _ rfl (Nat.lt_of_lt_of_le (srcWord_toNat src) (by decide))

/-- Settles O33. -/
theorem setSysclkEffect : Obligations.SetSysclkEffect := by
  intro s src h
  refine ⟨fun hpll hrdy => hpll ▸ exec_setSysclk_notReady s hrdy, fun hrdy => ?_⟩
  refine ⟨_, exec_setSysclk_ready s src hrdy, field_wrfF_sw s h src, ?_, ?_⟩
  · rw [wrfF_sw s h]
    exact sameOutside_insertField s.cfg .sw s.rcc.cfgr _
  · rw [wrfF_sw s h]
    rfl

end Sys2Proof.Machine
end

section
/-! PROOF. Clock steps that end in `SAVE_CLK` (41_clock_tree R141, R151, R153, R154): the two polls and `CFG_AHB`. -/
namespace Sys2Proof.Machine

open Sys2Proof.Safety

/-! The polls. -/

theorem cfgPllWait_notReady (s : State) (h : s.flag .pllrdy = false) : cfgPllWait s = .next s := by
  simp [cfgPllWait, tstbF_eq_flag, h]

theorem cfgPllWait_ready (s : State) (h : s.flag .pllrdy = true) : cfgPllWait s = saveAndRespond s := by
  simp [cfgPllWait, tstbF_eq_flag, h]

theorem setSysclkWait_elsewhere (s : State) (src : ClkSrc) (hop : s.op = some (.setSysclk src)) (h : s.field .sws ≠ srcWord src) :
    setSysclkWait s = .next s := by
  simp [setSysclkWait, opTarget, hop, rdfF_eq_field, h]

theorem setSysclkWait_arrived (s : State) (src : ClkSrc) (hop : s.op = some (.setSysclk src)) (h : s.field .sws = srcWord src) :
    setSysclkWait s = saveAndRespond s := by
  simp [setSysclkWait, opTarget, hop, rdfF_eq_field, h]

theorem appStep_pllWait (s : State) (hq : s.seq = .pllWait) : appStep s = cfgPllWait s := by simp only [appStep, hq]

theorem appStep_swWait (s : State) (hq : s.seq = .swWait) : appStep s = setSysclkWait s := by simp only [appStep, hq]

section
variable (s : State) (later : List Turn) (hc : configOk s.cfg = true) (ht : s.turns = .app :: later)
include hc ht

/-- With the application's turn next in a wait state, the step is the poll (R24, R25). -/
theorem step_app_pllWait (hq : s.seq = .pllWait) : step s = cfgPllWait { s with turns := later } :=
  (step_placed s .app later hc ht).trans (appStep_pllWait { s with turns := later } hq)

theorem step_app_swWait (hq : s.seq = .swWait) : step s = setSysclkWait { s with turns := later } :=
  (step_placed s .app later hc ht).trans (appStep_swWait { s with turns := later } hq)

end

/-- The end of a poll with an active source: frequencies and shifts do not depend on the placed turns, so they are those of the state
before the step. -/
theorem saveAndRespond_poll (s : State) (later : List Turn) (src : ClkSrc) (ha : ActiveSource src s) : ∃ snap draws,
    saveAndRespond { s with turns := later } =
      .next { s with turns := later, snap := snap, draws := draws, resp := some ⟨.ok, 0⟩, seq := .idle, op := none } ∧
    (sourceHz src s < 2 ^ 32 → snap = liveSnapshot (sourceHz src s) s ∧ draws = s.draws) := by
  obtain ⟨snap, draws, hx, hlive⟩ := saveAndRespond_ok { s with turns := later } src ha
  rw [sourceHz_congr s { s with turns := later } src rfl rfl rfl rfl,
    liveSnapshot_congr s { s with turns := later } _ rfl rfl rfl] at hlive
  exact ⟨snap, draws, hx, hlive⟩

/-- Settles O32: no field depends on the placed turns, so each of the poll's cases is one of the state before the step. -/
theorem cfgPllWaitEffect : Obligations.CfgPllWaitEffect := by
  intro s later h hq ht
  have hstep := step_app_pllWait s later (layoutOk_configOk _ h) ht hq
  have hready (hrdy : s.flag .pllrdy = true) : step s = saveAndRespond { s with turns := later } :=
    hstep.trans (cfgPllWait_ready _ hrdy)
  refine ⟨fun hrdy => hstep.trans (cfgPllWait_notReady _ hrdy), fun hrdy hsws => ?_, fun hrdy hsws hm => ?_, fun src hrdy ha => ?_⟩
  · exact (hready hrdy).trans (saveAndRespond_error _ _ (systemHz_reserved _ hsws))
  · exact (hready hrdy).trans (saveAndRespond_error _ _ (systemHz_mZero _ hsws hm))
  · rw [hready hrdy]
    exact saveAndRespond_poll s later src ha

/-- Settles O34. -/
theorem setSysclkWaitEffect : Obligations.SetSysclkWaitEffect := by
  intro s later src h hq ht hop
  have hstep := step_app_swWait s later (layoutOk_configOk _ h) ht hq
  have harrived (hsws : s.field .sws = srcWord src) : step s = saveAndRespond { s with turns := later } :=
    hstep.trans (setSysclkWait_arrived _ src hop hsws)
  refine ⟨fun hsws => hstep.trans (setSysclkWait_elsewhere _ src hop hsws), fun hpll hsws hm => ?_, fun ha => ?_⟩
  · subst hpll
    exact (harrived hsws).trans (saveAndRespond_error _ _ (systemHz_mZero _ hsws hm))
  · rw [harrived ha.1]
    exact saveAndRespond_poll s later src ha

/-! `CFG_AHB`. -/

theorem ahbPreWord_fits (pre : AhbPre) : (ahbPreWord pre).toNat < 2 ^ 4 := by cases pre <;> decide

theorem ahbShift_ahbPreWord (t : AhbShifts) (pre : AhbPre) : ahbShift t (ahbPreWord pre).toNat = ahbPreShift t pre := by
  rw [ahbPreWord, BitVec.toNat_setWidth_of_le (by decide), ahbShift_code]

/-- The live snapshot after a write of `HPRE`: only that shift is the new setting's. -/
theorem liveSnapshot_hpre (s : State) (h : layoutOk s.cfg = true) (pre : AhbPre) (sys : Nat) :
    liveSnapshot sys (wrfF .hpre (ahbPreWord pre) s) =
      snapshotOf sys (ahbPreShift s.cfg.ahbShifts pre) (liveShifts s).2.1 (liveShifts s).2.2 := by
  have keeps := field_wrfF_prescaler_other s h .hpre (ahbPreWord pre) rfl
  simp only [liveSnapshot, liveShifts, rdfF_eq_field, wrfF_cfg, keeps .ppre1 (by decide), keeps .ppre2 (by decide),
    field_wrfF_value s h .hpre _ rfl (ahbPreWord_fits pre), ahbShift_ahbPreWord]

/-- Settles O35. -/
theorem cfgAhbEffect : Obligations.CfgAhbEffect := by
  intro s pre h
  obtain ⟨hreserved, hzero⟩ := prescaler_faults s h .hpre (ahbPreWord pre) rfl
  refine ⟨hreserved, hzero, fun src ha => ?_⟩
  obtain ⟨t, hx, hfield, hout, hframe, hlive⟩ := prescaler_completes s h .hpre _ rfl (ahbPreWord_fits pre) src ha
  rw [liveSnapshot_hpre s h pre] at hlive
  exact ⟨t, hx, hfield, hout, hframe, hlive⟩

end Sys2Proof.Machine
end

section
/-! PROOF. Bringing up the PLL (41_clock_tree R150 to R153, R162 a; 44 R221, R222): `CFG_PLL`, the lock, its poll, `SET_SYSCLK PLL`, the
switch, its poll and `GET_CLK SYSTEM`. -/
namespace Sys2Proof.Machine

open Sys2Proof.Safety

theorem envStep_of_enabled (e : EnvStep) (s : State) (h : envEnabled e s = true) : envStep e s = envEffect e s := if_pos h

/-! The lock and the poll after it. -/

/-- A PLL that is on, not ready, and fed by a running oscillator can lock (R221). -/
theorem lock_enabled (s : State) (hon : s.field .pllon = 1) (hrdy : s.field .pllrdy = 0) (hosc : oscReady s = true) :
    envEnabled .lock s = true := by
  simp [envEnabled, State.flag, hon, hrdy, hosc]

/-- The internal oscillator runs always, the external one where the launch says so (R220). -/
theorem oscReady_of_source (s : State) (src : PllSrc) (hsrc : s.field .pllsrc = pllSrcWord src) (h : src = .hsi ∨ s.cfg.hseReady = true) :
    oscReady s = true := by
  cases src with
  | hsi => simp [oscReady, hsrc, pllSrcWord, PllSrc.code]
  | hse =>
    have hhse : s.cfg.hseReady = true := h.resolve_left nofun
    simp [oscReady, hsrc, pllSrcWord, PllSrc.code, hhse]

/-- An oscillator as the live source always has a frequency (R141, R142). -/
theorem activeSource_of_oscillator (s : State) (hlt : (s.field .sws).toNat < 3) (hne : s.field .sws ≠ 2) :
    ∃ src, ActiveSource src s := by
  have h2 : (s.field .sws).toNat ≠ 2 := fun h2 => hne (BitVec.eq_of_toNat_eq h2)
  by_cases h0 : (s.field .sws).toNat = 0
  · exact ⟨.hsi, BitVec.eq_of_toNat_eq h0, nofun⟩
  · exact ⟨.hse, BitVec.eq_of_toNat_eq (by change _ = 1; omega), nofun⟩

/-- The lock, then the poll of `CFG_PLL`, which completes (R151, R221). -/
theorem lock_then_poll (s : State) (h : layoutOk s.cfg = true) (hlock : envEnabled .lock s = true) (hlt : (s.field .sws).toNat < 3)
    (hne : s.field .sws ≠ 2) : ∃ snap draws,
    cfgPllWait (envStep .lock s) = .next (respond .ok 0 { s.hwSet .pllrdy 1 with snap := snap, draws := draws }) := by
  have hc := layoutOk_configOk _ h
  have hsws : (s.hwSet .pllrdy 1).field .sws = s.field .sws := field_hwSet_other s hc .pllrdy .sws 1 (by decide)
  have hrdy : (s.hwSet .pllrdy 1).flag .pllrdy = true := Encoding.flag_hwSet_one s hc .pllrdy
  obtain ⟨src, ha⟩ := activeSource_of_oscillator (s.hwSet .pllrdy 1) (hsws.symm ▸ hlt) (hsws.symm ▸ hne)
  obtain ⟨snap, draws, hx, -⟩ := saveAndRespond_ok _ src ha
  refine ⟨snap, draws, ?_⟩
  rw [envStep_of_enabled .lock s hlock]
  exact (cfgPllWait_ready _ hrdy).trans hx

/-! The switch and the poll after it. -/

theorem switch_to_pll_enabled (s : State) (hsw : s.field .sw = 2) (hsws : s.field .sws ≠ 2) (hrdy : s.flag .pllrdy = true) :
    envEnabled .switch s = true := by
  simpa [envEnabled, srcReady, hsw, hrdy] using Ne.symm hsws

/-- The switch to a ready PLL, then the poll of `SET_SYSCLK PLL`, which completes with the PLL's frequency in `x[0]` (R153, R222). -/
theorem switch_then_poll (s : State) (h : layoutOk s.cfg = true) (hop : s.op = some (.setSysclk .pll)) (hsw : s.field .sw = 2)
    (hsws : s.field .sws ≠ 2) (hrdy : s.flag .pllrdy = true) (hm : s.field .pllm ≠ 0) (hlt : sourceHz .pll s < 2 ^ 32) : ∃ t,
    setSysclkWait (envStep .switch s) = .next t ∧ t.snap.systemClock = BitVec.ofNat 32 (sourceHz .pll s) := by
  have hc := layoutOk_configOk _ h
  have keeps (g : Field) (hg : Field.sws ≠ g) : (s.hwSet .sws (srcWord .pll)).field g = s.field g :=
    field_hwSet_other s hc .sws g _ hg
  have harrived : (s.hwSet .sws (srcWord .pll)).field .sws = srcWord .pll := field_hwSet_value s h .sws _ (by decide)
  have ha : ActiveSource .pll (s.hwSet .sws (srcWord .pll)) := ⟨harrived, fun _ => (keeps .pllm (by decide)).symm ▸ hm⟩
  have hhz : sourceHz .pll (s.hwSet .sws (srcWord .pll)) = sourceHz .pll s := by
    simp only [sourceHz, hwSet_pllOscHz, keeps .pllm (by decide), keeps .plln (by decide), keeps .pllp (by decide)]
  obtain ⟨snap, draws, hx, hlive⟩ := saveAndRespond_ok _ .pll ha
  obtain ⟨rfl, -⟩ := hlive (hhz.symm ▸ hlt)
  rw [hhz] at hx
  have hswitch : envStep .switch s = s.hwSet .sws (srcWord .pll) :=
    (envStep_of_enabled .switch s (switch_to_pll_enabled s hsw hsws hrdy)).trans (congrArg (s.hwSet .sws) hsw)
  rw [hswitch]
  exact ⟨_, (setSysclkWait_arrived _ .pll ((hwSet_op ..).trans hop) harrived).trans hx, rfl⟩

/-! The frequency. -/

/-- The PLL is set up with an oscillator's frequency, M, N and P (R150). -/
structure PllSetUp (osc : Word) (m : BitVec 6) (n : BitVec 9) (p : PllP) (s : State) : Prop where
  oscHz : s.pllOscHz = osc
  pllm : s.field .pllm = m.setWidth 32
  plln : s.field .plln = n.setWidth 32
  pllp : s.field .pllp = pllPWord p

theorem PllSetUp.congr {osc : Word} {m : BitVec 6} {n : BitVec 9} {p : PllP} {s t : State} (h : PllSetUp osc m n p s)
    (hx : t.pllOscHz = s.pllOscHz) (hm : t.field .pllm = s.field .pllm) (hn : t.field .plln = s.field .plln)
    (hp : t.field .pllp = s.field .pllp) : PllSetUp osc m n p t :=
  ⟨hx.trans h.oscHz, hm.trans h.pllm, hn.trans h.plln, hp.trans h.pllp⟩

/-- Its frequency is R143's. -/
theorem PllSetUp.sourceHz {osc : Word} {m : BitVec 6} {n : BitVec 9} {p : PllP} {s : State} (h : PllSetUp osc m n p s) :
    sourceHz .pll s = osc.toNat / m.toNat * n.toNat / pDivisor p := by
  have hdiv : 2 * ((pllPWord p).toNat + 1) = pDivisor p := by cases p <;> rfl
  simp only [Safety.sourceHz, h.oscHz, h.pllm, h.plln, h.pllp, hdiv, BitVec.toNat_setWidth_of_le (show 6 ≤ 32 by decide),
    BitVec.toNat_setWidth_of_le (show 9 ≤ 32 by decide)]

/-- Within R146's ranges M is not 0 and the frequency fits 32 bits (R8). -/
theorem pllRanges_bounds (c : Config) (hc : configOk c = true) (osc m n q : Nat) (h : PllRanges c osc m n q) :
    m ≠ 0 ∧ osc / m * n < 2 ^ 32 := by
  obtain ⟨⟨hm, -⟩, -, -, -, -, hvco⟩ := h
  simp only [configOk, rangesOk, Bool.and_eq_true, decide_eq_true_eq] at hc
  omega

/-! The sequence. -/

theorem startPll_cfg (src : PllSrc) (osc : Word) (m : BitVec 6) (n : BitVec 9) (p : PllP) (q : BitVec 4) (s : State)
    (hc : configOk s.cfg = true) : (startPll src osc m n p q s).cfg = s.cfg := by
  obtain ⟨_, hr⟩ := startPll_eq src osc m n p q s hc
  rw [hr]

theorem startPll_pllOscHz (src : PllSrc) (osc : Word) (m : BitVec 6) (n : BitVec 9) (p : PllP) (q : BitVec 4) (s : State)
    (hc : configOk s.cfg = true) : (startPll src osc m n p q s).pllOscHz = osc := by
  obtain ⟨_, hr⟩ := startPll_eq src osc m n p q s hc
  rw [hr]

/-- A valid `CFG_PLL` from a settled oscillator, the lock and the poll: the PLL is set up and ready, the source still the oscillator. -/
theorem cfgPll_sets_up (s : State) (src : PllSrc) (osc : Word) (m : BitVec 6) (n : BitVec 9) (p : PllP) (q : BitVec 4)
    (h : layoutOk s.cfg = true) (hsw : s.field .sw ≠ 2) (hsws : s.field .sws ≠ 2) (hlt : (s.field .sws).toNat < 3)
    (hoff : s.flag .pllon = false → s.flag .pllrdy = false) (hosc : src = .hsi ∨ s.cfg.hseReady = true)
    (hranges : PllRanges s.cfg osc.toNat m.toNat n.toNat q.toNat) : ∃ t u,
    exec (.cfgPll src osc m n p q) s = .next t ∧ cfgPllWait (envStep .lock t) = .next u ∧
    PllSetUp osc m n p u ∧ u.cfg = s.cfg ∧ u.flag .pllrdy = true ∧ u.field .sws ≠ 2 := by
  have hc := layoutOk_configOk _ h
  obtain ⟨hon, hm, hn, hkept⟩ := field_startPll src osc m n p q s h
  obtain ⟨hp, -, hsrc, hrdy⟩ := field_startPll_rest src osc m n p q s h
  have hcfg := startPll_cfg src osc m n p q s hc
  have hx := startPll_pllOscHz src osc m n p q s hc
  have hnsws := hkept .sws rfl
  have hexec := exec_cfgPll_valid src osc m n p q s hsw hsws hranges
  generalize startPll src osc m n p q s = u at hon hm hn hp hsrc hrdy hcfg hx hnsws hexec
  have hlock : envEnabled .lock (latch (.cfgPll src osc m n p q) .pllWait u) = true :=
    lock_enabled _ hon (hrdy hoff) (oscReady_of_source _ src hsrc (hcfg.symm ▸ hosc))
  obtain ⟨snap, draws, hpoll⟩ := lock_then_poll _ (hcfg.symm ▸ h) hlock (hnsws.symm ▸ hlt) (hnsws.symm ▸ hsws)
  have keeps (g : Field) (hg : Field.pllrdy ≠ g) : ((latch (.cfgPll src osc m n p q) .pllWait u).hwSet .pllrdy 1).field g = u.field g :=
    field_hwSet_other (latch _ _ u) (hcfg.symm ▸ hc) .pllrdy g 1 hg
  refine ⟨_, _, hexec, hpoll, ⟨(hwSet_pllOscHz ..).trans hx, ?_, ?_, ?_⟩, (hwSet_cfg ..).trans hcfg, ?_, ?_⟩
  · exact (keeps .pllm (by decide)).trans hm
  · exact (keeps .plln (by decide)).trans hn
  · exact (keeps .pllp (by decide)).trans hp
  · exact Encoding.flag_hwSet_one (latch _ _ u) (hcfg.symm ▸ hc) .pllrdy
  · exact fun h2 => hsws (hnsws.symm.trans ((keeps .sws (by decide)).symm.trans h2))

/-- `SET_SYSCLK PLL` on a PLL set up and ready, the switch and the poll: `x[0]` holds the PLL's frequency. -/
theorem setSysclk_switches (s : State) (osc : Word) (m : BitVec 6) (n : BitVec 9) (p : PllP) (h : layoutOk s.cfg = true)
    (hset : PllSetUp osc m n p s) (hrdy : s.flag .pllrdy = true) (hsws : s.field .sws ≠ 2) (hm : m.toNat ≠ 0)
    (hlt : osc.toNat / m.toNat * n.toNat < 2 ^ 32) : ∃ t u,
    exec (.setSysclk .pll) s = .next t ∧ setSysclkWait (envStep .switch t) = .next u ∧
    u.snap.systemClock = BitVec.ofNat 32 (osc.toNat / m.toNat * n.toNat / pDivisor p) := by
  have hexec := exec_setSysclk_ready s .pll fun _ => hrdy
  have keeps (g : Field) (hg : Field.sw ≠ g) : (wrfF .sw (srcWord .pll) s).field g = s.field g :=
    field_wrfF_other s h .sw g _ rfl hg rfl
  have hset' : PllSetUp osc m n p (latch (.setSysclk .pll) .swWait (wrfF .sw (srcWord .pll) s)) :=
    hset.congr (wrfF_pllOscHz ..) (keeps .pllm (by decide)) (keeps .plln (by decide)) (keeps .pllp (by decide))
  have hpllm : (latch (.setSysclk .pll) .swWait (wrfF .sw (srcWord .pll) s)).field .pllm ≠ 0 := by
    rw [hset'.pllm]
    refine fun h0 => hm ?_
    rw [← BitVec.toNat_setWidth_of_le (show 6 ≤ 32 by decide), h0]
    rfl
  obtain ⟨u, hpoll, hu⟩ := switch_then_poll (latch (.setSysclk .pll) .swWait (wrfF .sw (srcWord .pll) s)) ((wrfF_cfg ..).symm ▸ h) rfl
    (field_wrfF_sw s h .pll) (fun h2 => hsws ((keeps .sws (by decide)).symm.trans h2))
    ((congrArg (· == 1) (keeps .pllrdy (by decide))).trans hrdy) hpllm (hset'.sourceHz ▸ Nat.lt_of_le_of_lt (Nat.div_le_self _ _) hlt)
  exact ⟨_, u, hexec, hpoll, hset'.sourceHz ▸ hu⟩

/-- Settles O42: `GET_CLK SYSTEM` reports `x[0]`, which the poll of `SET_SYSCLK` set to the PLL's frequency. -/
theorem pllBringUp : Obligations.PllBringUp := by
  intro s src osc m n p q h hsw hsettled hlt hoff hosc hranges
  obtain ⟨hm, hvco⟩ := pllRanges_bounds s.cfg (layoutOk_configOk _ h) _ _ _ _ hranges
  obtain ⟨t1, t3, hcfgPll, hlock, hset, hcfg, hrdy, hsws⟩ :=
    cfgPll_sets_up s src osc m n p q h hsw (hsettled ▸ hsw) hlt hoff hosc hranges
  obtain ⟨t4, t6, hsetSysclk, hswitch, hhz⟩ := setSysclk_switches t3 osc m n p (hcfg.symm ▸ h) hset hrdy hsws hm hvco
  refine ⟨t1, t3, t4, t6, respond .ok t6.snap.systemClock t6, hcfgPll, hlock, hsetSysclk, hswitch, rfl, rfl, ?_⟩
  rw [PllSpeedExact, respond_snap, hhz, BitVec.toNat_ofNat, Nat.mod_eq_of_lt (Nat.lt_of_le_of_lt (Nat.div_le_self _ _) hvco)]

end Sys2Proof.Machine
end

section
/-! PROOF. Completion under fairness (41_clock_tree R151, R153; 44 R221, R222, R232): a waiting command's clock becomes ready by a fair
hardware step and stays ready, and then a fair poll completes the command. -/
namespace Sys2Proof.Machine

open Sys2Proof.Safety

/-- The command in flight has ended with `OK`, value 0. -/
def Completed (s : State) : Prop := s.seq = .idle ∧ s.resp = some ⟨.ok, 0⟩

/-! The argument, for any wait. -/

/-- On a run in which a waiting state waits on until it completes, a fair turn makes the awaited condition true, it stays true, and the
application's poll completes then, the command completes. -/
theorem completes_fairly {r : Nat → State} {k : Nat} {Waiting Ready enabled : State → Prop} {u : Turn} (hrun : IsRun r)
    (hfair : Fair r enabled u) (happ : AApp r) (hwait : ∀ s, Waiting s → s.seq ≠ .idle)
    (hkeep : ∀ s t, Waiting s → step s = .next t → Completed t ∨ (Waiting t ∧ (Ready s → Ready t)))
    (henabled : ∀ s, Waiting s → ¬ Ready s → enabled s)
    (hready : ∀ s t, Waiting s → ¬ Ready s → step s = .next t → turnAt s = u → Ready t)
    (hpoll : ∀ s t, Waiting s → Ready s → step s = .next t → turnAt s = .app → Completed t) (hk : Waiting (r k)) :
    ∃ j, k ≤ j ∧ Completed (r j) := by
  by_contra hnever
  have incomplete (j : Nat) (hj : k ≤ j) : ¬ Completed (r j) := fun hdone => hnever ⟨j, hj, hdone⟩
  have waiting (j : Nat) (hj : k ≤ j) : Waiting (r j) := by
    induction j, hj using Nat.le_induction with
    | base => exact hk
    | succ j hj ih => exact ((hkeep _ _ ih (hrun j)).resolve_left (incomplete _ (by omega))).1
  have becomesReady : ∃ j, k ≤ j ∧ Ready (r j) := by
    by_contra hunready
    have unready (j : Nat) (hj : k ≤ j) : ¬ Ready (r j) := fun hr => hunready ⟨j, hj, hr⟩
    obtain ⟨j, hj, hu⟩ := hfair k fun j hj => henabled _ (waiting j hj) (unready j hj)
    exact unready (j + 1) (by omega) (hready _ _ (waiting j hj) (unready j hj) (hrun j) hu)
  obtain ⟨l, hl, hrl⟩ := becomesReady
  have staysReady (j : Nat) (hj : l ≤ j) : Ready (r j) := by
    induction j, hj using Nat.le_induction with
    | base => exact hrl
    | succ j hj ih => exact ((hkeep _ _ (waiting j (by omega)) (hrun j)).resolve_left (incomplete _ (by omega))).2 ih
  obtain ⟨j, hj, hu⟩ := happ l fun j hj => hwait _ (waiting j (by omega))
  exact incomplete (j + 1) (by omega) (hpoll _ _ (waiting j (by omega)) (staysReady j hj) (hrun j) hu)

/-! What a step of a waiting machine keeps. -/

/-- A step that leaves a command waiting moves `PLLRDY` up only and `SWS` to the selected source only, and no other field of the clock
block (R221, R222, R255). -/
structure KeepsWaiting (s t : State) : Prop where
  cfg : t.cfg = s.cfg
  seq : t.seq = s.seq
  field : ∀ f, regOfSer (fieldReg f) = false → f ≠ .pllrdy → f ≠ .sws → t.field f = s.field f
  pllrdy : s.flag .pllrdy = true → t.flag .pllrdy = true
  sws : t.field .sws = s.field .sws ∨ t.field .sws = s.field .sw

theorem KeepsWaiting.of_rcc {s t : State} (hok : configOk s.cfg = true) (hc : t.cfg = s.cfg) (hq : t.seq = s.seq) (hr : t.rcc = s.rcc) :
    KeepsWaiting s t where
  cfg := hc
  seq := hq
  field := fun f hf _ _ => field_of_rcc hok hc hr f hf
  pllrdy := (congrArg (· == 1) (field_of_rcc hok hc hr .pllrdy rfl)).trans
  sws := .inl (field_of_rcc hok hc hr .sws rfl)

theorem KeepsWaiting.lock {s : State} (hc : configOk s.cfg = true) : KeepsWaiting s (s.hwSet .pllrdy 1) where
  cfg := hwSet_cfg ..
  seq := hwSet_seq ..
  field := fun f _ hf _ => field_hwSet_other s hc .pllrdy f 1 hf.symm
  pllrdy := fun _ => Encoding.flag_hwSet_one s hc .pllrdy
  sws := .inl (field_hwSet_other s hc .pllrdy .sws 1 (by decide))

theorem KeepsWaiting.switch {s : State} (h : layoutOk s.cfg = true) (hsw : (s.field .sw).toNat < 3) :
    KeepsWaiting s (s.hwSet .sws (s.field .sw)) where
  cfg := hwSet_cfg ..
  seq := hwSet_seq ..
  field := fun f _ _ hf => field_hwSet_other s (layoutOk_configOk _ h) .sws f _ hf.symm
  pllrdy := (flag_hwSet_other s (layoutOk_configOk _ h) .sws .pllrdy _ (by decide)).trans
  sws := .inr (field_hwSet_value s h .sws _ (Nat.lt_trans hsw (by decide)))

theorem envStep_keepsWaiting {s : State} (h : ClockInv s) (e : EnvStep) : KeepsWaiting s (envStep e s) := by
  have hc := layoutOk_configOk _ h.layout
  have serial (u : State) (hcu : u.cfg = s.cfg) (hq : u.seq = s.seq) (hr : u.rcc = s.rcc) (f : Field) (v : Word)
      (hf : regOfSer (fieldReg f) = true) : KeepsWaiting s (u.hwSet f v) :=
    .of_rcc hc ((hwSet_cfg ..).trans hcu) ((hwSet_seq ..).trans hq) ((hwSet_rcc f v u (hcu.symm ▸ hc) hf).trans hr)
  unfold envStep
  split
  case isFalse => exact .of_rcc hc rfl rfl rfl
  case isTrue =>
    cases e with
    | lock => exact .lock hc
    | switch => exact .switch h.layout h.legalSw
    | txDone => exact serial s rfl rfl rfl .txe 1 rfl
    | rxByte b =>
      simp only [envEffect]
      split
      · exact serial { s with ser := { s.ser with drRx := b } } rfl rfl rfl .rxne 1 rfl
      · exact serial s rfl rfl rfl .ovr 1 rfl
    | fault f => exact serial s rfl rfl rfl (lineFaultField f) 1 (by cases f <;> rfl)

theorem saveAndRespond_completed {s t : State} (h : saveAndRespond s = .next t) : Completed t := by
  obtain ⟨-, hq, -, hr⟩ := saveAndRespond_completes s t h
  exact ⟨hq, hr⟩

theorem turn_keepsWaiting {s t : State} {u : Turn} (h : ClockInv s) (hw : s.seq ≠ .idle) (ht : TurnTaken s t u) :
    Completed t ∨ KeepsWaiting s t := by
  have hc := layoutOk_configOk _ h.layout
  cases ht with
  | noCommand hq | illegal _ _ hq | command _ _ hq => exact absurd hq hw
  | pllPoll _ ht =>
    rcases cfgPllWait_next s t ht with rfl | ⟨-, ht⟩
    · exact .inr (.of_rcc hc rfl rfl rfl)
    · exact .inl (saveAndRespond_completed ht)
  | swPoll _ ht =>
    rcases setSysclkWait_next s t ht with rfl | ⟨-, ht⟩
    · exact .inr (.of_rcc hc rfl rfl rfl)
    · exact .inl (saveAndRespond_completed ht)
  | event c ht =>
    obtain ⟨_, _, _, _, _, _, _, rfl⟩ := event_frame c s t hc ht
    exact .inr (.of_rcc hc rfl rfl rfl)
  | env e ht => exact .inr (ht ▸ envStep_keepsWaiting h e)

theorem step_keepsWaiting {s t : State} (h : ClockInv s) (hw : s.seq ≠ .idle) (hs : step s = .next t) :
    Completed t ∨ KeepsWaiting s t := by
  obtain ⟨-, turns, draws, ht⟩ := step_taken s t hs
  have h' : ClockInv { s with turns := turns, draws := draws } := clockInv_serialSide h _ rfl rfl rfl rfl rfl rfl
  exact (turn_keepsWaiting h' hw ht).imp_right fun hk => ⟨hk.cfg, hk.seq, hk.field, hk.pllrdy, hk.sws⟩

/-! The turns that fairness grants. -/

theorem step_env {s t : State} {e : EnvStep} (hs : step s = .next t) (hu : turnAt s = .env e) :
    ∃ turns draws, t = envStep e { s with turns := turns, draws := draws } := by
  obtain ⟨-, turns, draws, ht⟩ := step_next s t hs
  rw [hu] at ht
  cases ht
  exact ⟨turns, draws, rfl⟩

theorem step_app {s t : State} (hs : step s = .next t) (hu : turnAt s = .app) :
    ∃ turns draws, appStep { s with turns := turns, draws := draws } = .next t := by
  obtain ⟨-, turns, draws, ht⟩ := step_next s t hs
  rw [hu] at ht
  exact ⟨turns, draws, ht⟩

/-! `CFG_PLL`. -/

/-- A `CFG_PLL` waits for a lock that its oscillator allows. -/
structure WaitingForLock (s : State) : Prop where
  inv : ClockInv s
  seq : s.seq = .pllWait
  osc : oscReady s = true

/-- A one-bit `PLLSRC` names one of the two oscillators (R220). -/
theorem oscReady_of_layout (s : State) (h : layoutOk s.cfg = true) (hosc : s.field .pllsrc = 0 ∨ s.cfg.hseReady = true) :
    oscReady s = true := by
  cases hsrc : s.flag .pllsrc with
  | false => exact oscReady_of_source s .hsi ((flag_false_iff s h .pllsrc rfl).1 hsrc) (.inl rfl)
  | true =>
    have h1 := (flag_true_iff s .pllsrc).1 hsrc
    exact oscReady_of_source s .hse h1 (.inr (hosc.resolve_left fun h0 => absurd (h0.symm.trans h1) (by decide)))

theorem WaitingForLock.step {s t : State} (h : WaitingForLock s) (hs : step s = .next t) :
    Completed t ∨ (WaitingForLock t ∧ (s.flag .pllrdy = true → t.flag .pllrdy = true)) := by
  refine (step_keepsWaiting h.inv (by simp [h.seq]) hs).imp_right fun hk => ⟨⟨?_, hk.seq.trans h.seq, ?_⟩, hk.pllrdy⟩
  · exact clockInvariantsKept s t h.inv hs
  · simpa only [oscReady, hk.cfg, hk.field .pllsrc rfl (by decide) (by decide)] using h.osc

theorem WaitingForLock.lockEnabled {s : State} (h : WaitingForLock s) (hrdy : ¬ s.flag .pllrdy = true) : envEnabled .lock s = true :=
  lock_enabled s ((flag_true_iff _ _).1 (h.inv.locking h.seq).1)
    ((flag_false_iff s h.inv.layout .pllrdy rfl).1 (Bool.not_eq_true _ ▸ hrdy)) h.osc

theorem WaitingForLock.locks {s t : State} (h : WaitingForLock s) (hrdy : ¬ s.flag .pllrdy = true) (hs : Machine.step s = .next t)
    (hu : turnAt s = .env .lock) : t.flag .pllrdy = true := by
  obtain ⟨turns, draws, rfl⟩ := step_env hs hu
  rw [envStep_of_enabled .lock { s with turns := turns, draws := draws } (h.lockEnabled hrdy)]
  exact Encoding.flag_hwSet_one { s with turns := turns, draws := draws } (layoutOk_configOk _ h.inv.layout) .pllrdy

theorem WaitingForLock.poll {s t : State} (h : WaitingForLock s) (hrdy : s.flag .pllrdy = true) (hs : Machine.step s = .next t)
    (hu : turnAt s = .app) : Completed t := by
  obtain ⟨turns, draws, ht⟩ := step_app hs hu
  rw [appStep_pllWait { s with turns := turns, draws := draws } h.seq,
    cfgPllWait_ready { s with turns := turns, draws := draws } hrdy] at ht
  exact saveAndRespond_completed ht

/-- Settles O59: the condition awaited is `PLLRDY`. -/
theorem cfgPllCompletesFairly : Obligations.CfgPllCompletesFairly := by
  intro r k hrun hlock happ hinv hq hosc
  exact completes_fairly (Waiting := WaitingForLock) (Ready := fun s => s.flag .pllrdy = true) hrun hlock happ
    (fun s h => by simp [h.seq]) (fun _ _ h => h.step) (fun _ h => h.lockEnabled) (fun _ _ h => h.locks) (fun _ _ h => h.poll)
    ⟨hinv, hq, oscReady_of_layout _ hinv.layout hosc⟩

/-! `SET_SYSCLK`. -/

/-- A `SET_SYSCLK` waits for a switch to a source that can run; that a selected PLL is ready is an invariant. -/
structure WaitingForSwitch (s : State) : Prop where
  inv : ClockInv s
  seq : s.seq = .swWait
  hse : s.field .sw = 1 → s.cfg.hseReady = true

theorem WaitingForSwitch.srcReady {s : State} (h : WaitingForSwitch s) : srcReady s = true := by
  have hlt := h.inv.legalSw
  have hcases : (s.field .sw).toNat = 0 ∨ (s.field .sw).toNat = 1 ∨ (s.field .sw).toNat = 2 := by omega
  rcases hcases with h0 | h1 | h2
  · simp [Machine.srcReady, h0]
  · simpa [Machine.srcReady, h1] using h.hse (BitVec.eq_of_toNat_eq h1)
  · simpa [Machine.srcReady, h2] using h.inv.swReady (BitVec.eq_of_toNat_eq h2)

theorem WaitingForSwitch.step {s t : State} (h : WaitingForSwitch s) (hs : step s = .next t) :
    Completed t ∨ (WaitingForSwitch t ∧ (s.field .sws = s.field .sw → t.field .sws = t.field .sw)) := by
  refine (step_keepsWaiting h.inv (by simp [h.seq]) hs).imp_right fun hk => ?_
  have hsw := hk.field .sw rfl (by decide) (by decide)
  refine ⟨⟨clockInvariantsKept s t h.inv hs, hk.seq.trans h.seq, ?_⟩, fun hsettled => ?_⟩
  · simpa only [hk.cfg, hsw] using h.hse
  · rw [hsw]
    exact hk.sws.elim (·.trans hsettled) id

theorem WaitingForSwitch.switchEnabled {s : State} (h : WaitingForSwitch s) (hsws : ¬ s.field .sws = s.field .sw) :
    envEnabled .switch s = true := by
  simpa [envEnabled, h.srcReady] using Ne.symm hsws

theorem WaitingForSwitch.switches {s t : State} (h : WaitingForSwitch s) (hsws : ¬ s.field .sws = s.field .sw)
    (hs : Machine.step s = .next t) (hu : turnAt s = .env .switch) : t.field .sws = t.field .sw := by
  obtain ⟨turns, draws, rfl⟩ := step_env hs hu
  rw [envStep_of_enabled .switch { s with turns := turns, draws := draws } (h.switchEnabled hsws)]
  have hsw : ({ s with turns := turns, draws := draws }.hwSet .sws (s.field .sw)).field .sw = s.field .sw :=
    field_hwSet_other { s with turns := turns, draws := draws } (layoutOk_configOk _ h.inv.layout) .sws .sw _ (by decide)
  exact (field_hwSet_value { s with turns := turns, draws := draws } h.inv.layout .sws _
    (Nat.lt_trans h.inv.legalSw (by decide))).trans hsw.symm

theorem WaitingForSwitch.poll {s t : State} (h : WaitingForSwitch s) (hsws : s.field .sws = s.field .sw)
    (hs : Machine.step s = .next t) (hu : turnAt s = .app) : Completed t := by
  obtain ⟨src, hop, hsw⟩ := latchOk_swWait h.inv.latch h.seq
  obtain ⟨turns, draws, ht⟩ := step_app hs hu
  rw [appStep_swWait { s with turns := turns, draws := draws } h.seq,
    setSysclkWait_arrived { s with turns := turns, draws := draws } src hop (hsws.trans hsw)] at ht
  exact saveAndRespond_completed ht

/-- Settles O60: the condition awaited is that `SWS` is what `SW` selects. -/
theorem setSysclkCompletesFairly : Obligations.SetSysclkCompletesFairly := by
  intro r k hrun hswitch happ hinv hq hhse
  exact completes_fairly (Waiting := WaitingForSwitch) (Ready := fun s => s.field .sws = s.field .sw) hrun hswitch happ
    (fun s h => by simp [h.seq]) (fun _ _ h => h.step) (fun _ h => h.switchEnabled) (fun _ _ h => h.switches) (fun _ _ h => h.poll)
    ⟨hinv, hq, hhse⟩

end Sys2Proof.Machine
end

section
/-! PROOF. The order of bytes over every step (42_serial R183, R184, R191, R192, R197): what leaves and enters the two buffers and
the wire. -/
namespace Sys2Proof.Machine

open Sys2Proof.Safety

/-- The byte written to the data register is the one its word was made from (R68 b). -/
theorem setWidth_byte (b : Byte) : (b.setWidth 32).setWidth 8 = b := BitVec.setWidth_setWidth_of_le b (by decide)

/-! `SER_SEND`: what it accepts. -/

/-- A decoded command is well formed: a `SER_SEND` carries exactly `size` bytes (R94, R95). -/
theorem wf_of_decode (ws : List CmdWord) (i : Instr) (rest : List CmdWord) (h : decode ws = .ok i rest) : i.wf = true := by
  cases ws with
  | nil => cases h
  | cons cw ws =>
    rw [Encoding.decode_cons] at h
    split at h
    case isTrue => cases h
    case isFalse hlong =>
      obtain ⟨hi, -⟩ := (Encoding.withRest_eq_ok_iff _ _ _ _).1 h
      have hpos := Encoding.commandLength_eq cw
      have hlen : (ws.take (commandLength cw - 1)).length + 1 = commandLength cw := by
        rw [List.length_take]
        omega
      exact ((Encoding.decodeWhole_iff cw _ i hlen).1 hi).2

theorem serSend_length (ws : List CmdWord) (size : BitVec 16) (data : List Byte) (rest : List CmdWord)
    (h : decode ws = .ok (.serSend size data) rest) : data.length = size.toNat := by
  simpa [Instr.wf] using wf_of_decode ws _ rest h

/-- Bytes for which the buffer has room are appended in order. A buffer over its capacity has room for none. -/
theorem pushAll_of_room (b : Fifo) (vs : List Byte) (h : vs.length ≤ b.cap - b.size) : b.pushAll vs = { b with q := b.q ++ vs } := by
  cases vs with
  | nil => simp [Fifo.pushAll]
  | cons v vs =>
    rw [List.length_cons] at h
    exact pushAll_of_fits (v :: vs) b (by rw [List.length_cons]; omega)

/-- A `SER_SEND` of well-formed data responds `BUFFER_FULL`, or `OK` with all its data appended and nothing sent (R183). -/
theorem execSerSend_accepts (size : BitVec 16) (data : List Byte) (s t : State) (hc : configOk s.cfg = true)
    (hlen : data.length = size.toNat) (h : execSerSend size data s = .next t) :
    t = raise .bufferFull s ∨
    (t.resp = some ⟨.ok, 0⟩ ∧ t.txWire = s.txWire ∧ t.txFifo.q = s.txFifo.q ++ data) := by
  unfold execSerSend at h
  split at h
  case isTrue => cases h
  case isFalse =>
    split at h
    case isTrue => cases h
    case isFalse =>
      split at h
      case isTrue =>
        cases h
        exact .inl rfl
      case isFalse hroom =>
        cases h
        obtain ⟨ser, he⟩ := enqueue_eq data s hc
        rw [he, pushAll_of_room s.txFifo data (by omega)]
        exact .inr ⟨rfl, rfl, rfl⟩

/-! Bytes sent (R48, R197). -/

/-- Nothing is accepted and nothing is sent. -/
def SendsNone (s t : State) : Prop := t.txWire = s.txWire ∧ t.txFifo.q = s.txFifo.q

/-- The oldest queued byte goes to the wire. -/
def SendsHead (s t : State) : Prop := ∃ b, s.txFifo.q = b :: t.txFifo.q ∧ t.txWire = s.txWire ++ [b]

theorem SendsNone.accepted {s t : State} (h : SendsNone s t) : accepted t = accepted s := by
  rw [Safety.accepted, h.1, h.2, Safety.accepted]

/-- A byte sent moves from the head of the buffer to the end of the wire. -/
theorem SendsHead.accepted {s t : State} (h : SendsHead s t) : accepted t = accepted s := by
  obtain ⟨b, hq, hw⟩ := h
  rw [Safety.accepted, Safety.accepted, hq, hw, List.append_assoc, List.singleton_append]

theorem ClockFrame.sendsNone {s t : State} (h : ClockFrame s t) : SendsNone s t := by
  obtain ⟨_, _, _, _, _, _, _, rfl⟩ := h
  exact ⟨rfl, rfl⟩

theorem OnlySer.sendsNone {s t : State} (h : OnlySer s t) : SendsNone s t := by
  obtain ⟨_, rfl⟩ := h
  exact ⟨rfl, rfl⟩

/-- Only the rule of `TX_EMPTY` sends (R191). -/
theorem handlerRule_sends (c : Cause) (s : State) (hc : configOk s.cfg = true) :
    SendsNone s (handlerRule c s) ∨ SendsHead s (handlerRule c s) := by
  cases c with
  | txEmpty =>
    simp only [handlerRule, handleTxEmpty]
    cases hq : s.txFifo.q with
    | nil =>
      simp only [Fifo.pop, hq]
      exact .inl ((OnlySer.refl s).wrfF hc .txeie 0 rfl).sendsNone
    | cons b rest =>
      obtain ⟨ser, hw⟩ := regWrite_serDr_eq (b.setWidth 32) { s with txFifo := { s.txFifo with q := rest } } hc
      simp only [Fifo.pop, hq, hw, setWidth_byte]
      exact .inr ⟨b, hq, rfl⟩
  | rxAvailable =>
    obtain ⟨ser, hr⟩ := (OnlySer.refl (setSerState .receiving s)).regRead hc .serDr
    simp only [handlerRule, handleRxAvailable, hr]
    split
    · exact .inl ⟨rfl, rfl⟩
    · exact .inl ⟨rfl, rfl⟩
  | overrun => exact .inl (onlySer_clearOverrun (setSerState .error s) hc).sendsNone
  | modeFault => exact .inl (onlySer_clearModeFault (setSerState .error s) hc).sendsNone
  | crcError => exact .inl ((OnlySer.refl (setSerState .error s)).wrfF hc .crcerr 0 rfl).sendsNone

theorem event_sends (c : Cause) (s t : State) (hc : configOk s.cfg = true) (h : exec c.instr s = .next t) :
    SendsNone s t ∨ SendsHead s t := by
  rcases event_next c s t h with rfl | ⟨-, -, -, -, rfl⟩
  · exact .inl ⟨rfl, rfl⟩
  · exact handlerRule_sends c (enterHandler s) hc

/-- No command sends, and only a `SER_SEND` that responds `OK` accepts (R183). -/
theorem command_sends (i : Instr) (s t : State) (hc : configOk s.cfg = true) (hi : isEvent i = false) (hwf : i.wf = true)
    (h : exec i s = .next t) :
    SendsNone s t ∨ ∃ size data, i = .serSend size data ∧
      t.resp = some ⟨.ok, 0⟩ ∧ t.txWire = s.txWire ∧ t.txFifo.q = s.txFifo.q ++ data := by
  cases instrKind i with
  | clock _ hi => exact .inl (clockCommand_frame i s t hc hi h).sendsNone
  | serInit target =>
    obtain ⟨-, rfl | ⟨k, rfl⟩⟩ := execSerInit_next target s t h
    · exact .inl ⟨rfl, rfl⟩
    · obtain ⟨_, he⟩ := startSerial_eq k s hc
      rw [he]
      exact .inl ⟨rfl, rfl⟩
  | serSend size data =>
    rcases execSerSend_accepts size data s t hc (by simpa [Instr.wf] using hwf) h with rfl | haccepts
    · exact .inl ⟨rfl, rfl⟩
    · exact .inr ⟨size, data, rfl, haccepts⟩
  | serRecv =>
    obtain rfl | ⟨_, _, -, rfl⟩ := execSerRecv_next s t h
    · exact .inl ⟨rfl, rfl⟩
    · exact .inl ⟨rfl, rfl⟩
  | serStat sel =>
    obtain ⟨_, _, he⟩ := execSerStat_eq sel s
    cases he.symm.trans h
    exact .inl ⟨rfl, rfl⟩
  | event c => exact absurd hi (by simp)

/-- A turn sends nothing, sends the oldest byte, or is a `SER_SEND` that accepts its data. -/
theorem turn_sends (s t : State) (u : Turn) (h : TurnTaken s t u) (hc : configOk s.cfg = true) :
    SendsNone s t ∨ SendsHead s t ∨
    ∃ size data rest, u = .app ∧ s.seq = .idle ∧ decode s.cmdIn = .ok (.serSend size data) rest ∧
      t.resp = some ⟨.ok, 0⟩ ∧ t.txWire = s.txWire ∧ t.txFifo.q = s.txFifo.q ++ data := by
  cases h with
  | noCommand _ ht | illegal _ _ _ _ ht => exact .inl (ht ▸ ⟨rfl, rfl⟩)
  | command i rest hq hd ht =>
    rcases command_sends i { s with cmdIn := rest } t hc (decode_not_event _ i rest hd) (wf_of_decode _ i rest hd) ht with
      hnone | ⟨size, data, rfl, haccepts⟩
    · exact .inl hnone
    · exact .inr (.inr ⟨size, data, rest, rfl, hq, hd, haccepts⟩)
  | pllPoll _ ht => exact .inl (cfgPllWait_frame s t ht).sendsNone
  | swPoll _ ht => exact .inl (setSysclkWait_frame s t ht).sendsNone
  | event c ht => exact (event_sends c s t hc ht).imp_right .inl
  | env e ht =>
    obtain ⟨_, _, he⟩ := envStep_eq e s
    exact .inl (by rw [ht, he]; exact ⟨rfl, rfl⟩)

/-- Settles O23: the placed turns and the draw counter are no part of what is queued or sent. -/
theorem bytesSentInOrder : Obligations.BytesSentInOrder := by
  intro s t h
  obtain ⟨hc, _, _, ht⟩ := step_taken s t h
  rcases turn_sends _ t _ ht hc with hnone | hhead | ⟨size, data, rest, haccepts⟩
  · exact ⟨.inl hnone.accepted, .inl hnone.1⟩
  · exact ⟨.inl hhead.accepted, .inr hhead⟩
  · obtain ⟨hu, hq, hd, hresp, hwire, hqueue⟩ := haccepts
    exact ⟨.inr ⟨size, data, rest, hu, hq, hd, hresp, hwire, hqueue⟩, .inl hwire⟩

/-! Bytes received (R192, R197). -/

/-- Only the rule of `RX_AVAILABLE` queues, and what it queues is the received byte, at the end (R192). -/
theorem handlerRule_receives (c : Cause) (s : State) :
    (handlerRule c s).rxFifo.q = s.rxFifo.q ∨ (c = .rxAvailable ∧ (handlerRule c s).rxFifo.q = s.rxFifo.q ++ [s.ser.drRx]) := by
  cases c with
  | txEmpty =>
    simp only [handlerRule, handleTxEmpty]
    split <;> simp
  | rxAvailable =>
    have hbyte : (s.word .serDr).setWidth 8 = s.ser.drRx := setWidth_byte s.ser.drRx
    simp only [handlerRule, handleRxAvailable, regRead_rxFifo, setSerState_rxFifo]
    by_cases hroom : s.rxFifo.size < s.rxFifo.cap
    · rw [push_eq_some _ _ hroom]
      exact .inr ⟨trivial, congrArg (fun b => s.rxFifo.q ++ [b]) hbyte⟩
    · simp [push_eq_none _ _ hroom]
  | overrun => simp [handlerRule, handleOverrun, clearOverrun]
  | modeFault => simp [handlerRule, handleModeFault, clearModeFault]
  | crcError => simp [handlerRule, handleCrcError]

/-- No command but `SER_RECV` reaches the receive buffer, and it takes the byte it reports from the front (R184). -/
theorem command_receives (i : Instr) (s t : State) (hc : configOk s.cfg = true) (hi : isEvent i = false) (h : exec i s = .next t) :
    t.rxFifo.q = s.rxFifo.q ∨
    ∃ b, i = .serRecv ∧ s.rxFifo.q = b :: t.rxFifo.q ∧ t.resp = some ⟨.ok, b.setWidth 32⟩ := by
  cases instrKind i with
  | clock _ hi =>
    obtain ⟨_, _, _, _, _, _, _, rfl⟩ := clockCommand_frame i s t hc hi h
    exact .inl rfl
  | serInit target =>
    obtain ⟨-, rfl | ⟨k, rfl⟩⟩ := execSerInit_next target s t h
    · exact .inl rfl
    · obtain ⟨_, he⟩ := startSerial_eq k s hc
      rw [he]
      exact .inl rfl
  | serSend size data =>
    obtain ⟨-, rfl | rfl⟩ := execSerSend_next size data s t h
    · exact .inl rfl
    · obtain ⟨_, he⟩ := enqueue_eq data s hc
      rw [he]
      exact .inl rfl
  | serRecv =>
    obtain rfl | ⟨b, rest, hq, rfl⟩ := execSerRecv_next s t h
    · exact .inl rfl
    · exact .inr ⟨b, rfl, hq, rfl⟩
  | serStat sel =>
    obtain ⟨_, _, he⟩ := execSerStat_eq sel s
    cases he.symm.trans h
    exact .inl rfl
  | event c => exact absurd hi (by simp)

/-- A turn leaves the receive buffer, or is an event or a `SER_RECV`. -/
theorem turn_receives (s t : State) (u : Turn) (h : TurnTaken s t u) (hc : configOk s.cfg = true) :
    t.rxFifo.q = s.rxFifo.q ∨
    (u = .event Cause.rxAvailable.code ∧ s.flag .rxne = true ∧ t.rxFifo.q = s.rxFifo.q ++ [s.ser.drRx]) ∨
    (∃ b rest, u = .app ∧ s.seq = .idle ∧ decode s.cmdIn = .ok .serRecv rest ∧
      s.rxFifo.q = b :: t.rxFifo.q ∧ t.resp = some ⟨.ok, b.setWidth 32⟩) := by
  cases h with
  | noCommand _ ht | illegal _ _ _ _ ht => exact .inl (ht ▸ rfl)
  | command i rest hq hd ht =>
    rcases command_receives i { s with cmdIn := rest } t hc (decode_not_event _ i rest hd) ht with hsame | ⟨b, rfl, htaken⟩
    · exact .inl hsame
    · exact .inr (.inr ⟨b, rest, rfl, hq, hd, htaken⟩)
  | pllPoll _ ht =>
    obtain ⟨_, _, _, _, _, _, _, rfl⟩ := cfgPllWait_frame s t ht
    exact .inl rfl
  | swPoll _ ht =>
    obtain ⟨_, _, _, _, _, _, _, rfl⟩ := setSysclkWait_frame s t ht
    exact .inl rfl
  | event c ht =>
    rcases event_next c s t ht with rfl | ⟨-, hp, -, -, rfl⟩
    · exact .inl rfl
    rcases handlerRule_receives c (enterHandler s) with hsame | ⟨rfl, hqueued⟩
    · exact .inl hsame
    · exact .inr (.inl ⟨rfl, (Bool.and_eq_true_iff.1 hp).1, hqueued⟩)
  | env e ht =>
    obtain ⟨_, _, he⟩ := envStep_eq e s
    exact .inl (by rw [ht, he])

/-- Settles O24: neither the received byte nor the receive buffer depends on the placed turns or the draw counter. -/
theorem bytesReceivedInOrder : Obligations.BytesReceivedInOrder := by
  intro s t h
  obtain ⟨hc, _, _, ht⟩ := step_taken s t h
  exact (turn_receives _ t _ ht hc :)

end Sys2Proof.Machine
end

section
/-! PROOF. The serial commands (42_serial R181 to R185): the prescaler choice, and each command's outcomes with what it writes. -/
namespace Sys2Proof.Machine

open Sys2Proof.Safety

/-! The prescaler (R181). -/

/-- The eight candidates are tried in ascending order. -/
theorem baudSelect_eq (f t : Nat) : baudSelect f t = (List.range' 1 8).find? fun k => decide (f ≤ t * 2 ^ k) := rfl

/-- Settles O43: the first candidate found in ascending order is the least. -/
theorem baudSelectLeast : Obligations.BaudSelectLeast := by
  intro f t
  refine ⟨fun k => ?_, ?_⟩
  · rw [baudSelect_eq, List.find?_range'_eq_some]
    simp only [decide_eq_true_eq, List.mem_range'_1, Bool.not_eq_true', decide_eq_false_iff_not, not_le]
    constructor
    · rintro ⟨hk, hin, hleast⟩
      exact ⟨hin.1, by omega, hk, hleast⟩
    · rintro ⟨hlow, hhigh, hk, hleast⟩
      exact ⟨hk, ⟨hlow, by omega⟩, hleast⟩
  · rw [baudSelect_eq, List.find?_range'_eq_none]
    simp only [Bool.not_eq_true', decide_eq_false_iff_not, not_le]
    exact forall_congr' fun k => imp_congr_right fun _ => imp_congr_left (by omega)

/-- A hardware write stores one word, in the register the rules name for the field (R31 to R36). -/
theorem hwSet_eq_setWord (s : State) (h : layoutOk s.cfg = true) (f : Field) (v : Word) :
    s.hwSet f v = s.setWord (fieldReg f) (insertField (s.desc f) (s.word (fieldReg f)) v) := by
  rw [State.hwSet, desc_reg s h]

/-! Bits outside the fields that are set. -/

theorem sameOutside_refl (c : Config) (fs : List Field) (w : Word) : SameOutsideFields c fs w w := fun _ _ => rfl

/-- Setting one of the fields keeps the bits outside them all. -/
theorem sameOutside_insertField_of_mem {c : Config} {fs : List Field} {w w' : Word} (hw : SameOutsideFields c fs w w') (f : Field)
    (hf : f ∈ fs) (v : Word) : SameOutsideFields c fs w (insertField (desc c f) w' v) := by
  intro i hi
  have hout := hi f hf
  rw [getLsbD_insertField, if_neg (by omega)]
  exact hw i hi

/-! `SER_INIT` (R182). -/

section
variable (s : State) (target : Word)

theorem exec_serInit_again (hi : s.serInited = true) : exec (.serInit target) s = .refused .serAlreadyInitialised := if_pos hi

theorem exec_serInit_gatedOff (hi : s.serInited = false) (hg : serGateOn s = false) :
    exec (.serInit target) s = .fault .serClockGatedOff := by
  simp [exec, execSerInit, hi, hg]

theorem exec_serInit_noPrescaler (hi : s.serInited = false) (hg : serGateOn s = true)
    (hk : baudSelect (serBusHz s).toNat target.toNat = none) : exec (.serInit target) s = .next (raise .configError s) := by
  simp [exec, execSerInit, hi, hg, hk]

theorem exec_serInit_starts (hi : s.serInited = false) (hg : serGateOn s = true) (k : Nat)
    (hk : baudSelect (serBusHz s).toNat target.toNat = some k) : exec (.serInit target) s = .next (respond .ok 0 (startSerial k s)) := by
  simp [exec, execSerInit, hi, hg, hk]

end

/-- The bus frequency is that of the peripheral bus the parameters name (R8, R182). -/
theorem serBusHz_eq (s : State) : serBusHz s = if s.cfg.serBus = .apb1 then s.snap.apb1 else s.snap.apb2 := by
  rw [serBusHz]
  cases s.cfg.serBus <;> rfl

theorem baudSelect_range {f t k : Nat} (hk : baudSelect f t = some k) : 1 ≤ k ∧ k ≤ 8 :=
  have ⟨hlow, hhigh, _⟩ := ((baudSelectLeast f t).1 k).1 hk
  ⟨hlow, hhigh⟩

/-- The four fields of a started serial engine: `BR` holds one less than the exponent, which fits its three bits (R35, R182). -/
theorem field_startSerial (k : Nat) (s : State) (h : layoutOk s.cfg = true) (hk : 1 ≤ k ∧ k ≤ 8) :
    ((startSerial k s).field .br).toNat + 1 = k ∧ (startSerial k s).field .rxneie = 1 ∧ (startSerial k s).field .errie = 1 ∧
    (startSerial k s).field .spe = 1 := by
  have hc := layoutOk_configOk _ h
  obtain ⟨hspe, hrxneie, herrie⟩ := flag_startSerial k s h
  refine ⟨?_, (flag_true_iff _ _).1 hrxneie, (flag_true_iff _ _).1 herrie, (flag_true_iff _ _).1 hspe⟩
  have hnat : (BitVec.ofNat 32 (k - 1)).toNat = k - 1 := by
    rw [BitVec.toNat_ofNat]
    omega
  have hfits : (BitVec.ofNat 32 (k - 1)).toNat < 2 ^ fieldWidth .br := by
    rw [hnat]
    show k - 1 < 8
    omega
  have hbr : (startSerial k s).field .br = BitVec.ofNat 32 (k - 1) := by
    have other (u : State) (hu : u.cfg = s.cfg) (f : Field) (hne : f ≠ .br) (v : Word) : (u.hwSet f v).field .br = u.field .br :=
      field_hwSet_other u (hu ▸ hc) f .br v hne
    rw [startSerial_eq_hwSet k s h]
    exact (other _ (by simp) .spe (by decide) 1).trans ((other _ (by simp) .errie (by decide) 1).trans
      ((other _ (by simp) .rxneie (by decide) 1).trans (field_hwSet_value s h .br _ hfits)))
  rw [hbr, hnat]
  omega

/-- Starting the serial engine replaces the prescaler and three enables in two words of its block (R182). -/
theorem startSerial_store (k : Nat) (s : State) (h : layoutOk s.cfg = true) :
    startSerial k s = { s with
      ser := { s.ser with
        cr1 := insertField (s.desc .spe) (insertField (s.desc .br) s.ser.cr1 (BitVec.ofNat 32 (k - 1))) 1
        cr2 := insertField (s.desc .errie) (insertField (s.desc .rxneie) s.ser.cr2 1) 1 }
      serInited := true, serState := .idle } := by
  rw [startSerial_eq_hwSet k s h, hwSet_eq_setWord s h .br _, hwSet_eq_setWord _ ?_ .rxneie 1, hwSet_eq_setWord _ ?_ .errie 1,
    hwSet_eq_setWord _ ?_ .spe 1]
  · rfl
  all_goals exact h

/-- Settles O44: the three outcomes without a start, and the started engine by its fields, its words and its frame. -/
theorem serInitEffect : Obligations.SerInitEffect := by
  intro s target f h hf
  obtain rfl : f = serBusHz s := hf.trans (serBusHz_eq s).symm
  refine ⟨exec_serInit_again s target, exec_serInit_gatedOff s target, exec_serInit_noPrescaler s target, fun k hi hg hk => ?_⟩
  obtain ⟨hbr, hrxneie, herrie, hspe⟩ := field_startSerial k s h (baudSelect_range hk)
  refine ⟨_, exec_serInit_starts s target hi hg k hk, hbr, hrxneie, herrie, hspe, ?_, ?_, ?_⟩
  · rw [startSerial_store k s h]
    exact sameOutside_insertField_of_mem (sameOutside_insertField_of_mem (sameOutside_refl _ _ _) .br (by decide) _) .spe (by decide) 1
  · rw [startSerial_store k s h]
    exact sameOutside_insertField_of_mem (sameOutside_insertField_of_mem (sameOutside_refl _ _ _) .rxneie (by decide) _) .errie (by decide) 1
  · rw [startSerial_store k s h]
    rfl

/-! `SER_SEND` (R183). -/

section
variable (s : State) (size : BitVec 16) (data : List Byte)

theorem exec_serSend_uninitialised (hi : s.serInited = false) : exec (.serSend size data) s = .refused .serNotInitialised := by
  simp [exec, execSerSend, hi]

theorem exec_serSend_gatedOff (hi : s.serInited = true) (hg : serGateOn s = false) :
    exec (.serSend size data) s = .fault .serClockGatedOff := by
  simp [exec, execSerSend, hi, hg]

theorem exec_serSend_gatedOn (hi : s.serInited = true) (hg : serGateOn s = true) :
    exec (.serSend size data) s =
      if s.txFifo.cap - s.txFifo.size < size.toNat then .next (raise .bufferFull s) else .next (respond .ok 0 (enqueue data s)) := by
  simp only [exec, execSerSend, hi, hg, Bool.not_true, Bool.false_eq_true, if_false]

end

/-- Enqueueing bytes that fit appends them, sets `TXEIE` and leaves the engine transmitting (R183). -/
theorem enqueue_store (data : List Byte) (s : State) (h : layoutOk s.cfg = true) (hroom : s.txFifo.size + data.length ≤ s.txFifo.cap) :
    enqueue data s = { s with
      ser := { s.ser with cr2 := insertField (s.desc .txeie) s.ser.cr2 1 }
      txFifo := { s.txFifo with q := s.txFifo.q ++ data }, serState := .transmitting } := by
  rw [enqueue, pushAll_of_fits data s.txFifo hroom, wrfF_store _ ?_ .txeie 1 rfl (by decide), hwSet_eq_setWord _ ?_ .txeie 1]
  · rfl
  all_goals exact h

theorem field_enqueue_txeie (data : List Byte) (s : State) (h : layoutOk s.cfg = true) : (enqueue data s).field .txeie = 1 :=
  field_wrfF_value { s with txFifo := s.txFifo.pushAll data } h .txeie 1 rfl (by decide)

/-- Settles O45: within its capacity a buffer has room exactly for what `SER_SEND` does not refuse. -/
theorem serSendEffect : Obligations.SerSendEffect := by
  intro s size data h hlen hsize
  refine ⟨exec_serSend_uninitialised s size data, exec_serSend_gatedOff s size data, fun hi hg hfull => ?_, fun hi hg hroom => ?_⟩
  · rw [exec_serSend_gatedOn s size data hi hg, if_pos (by omega)]
    rfl
  · have hx : exec (.serSend size data) s = .next (respond .ok 0 (enqueue data s)) := by
      rw [exec_serSend_gatedOn s size data hi hg, if_neg (by omega)]
    have hstore := enqueue_store data s h (hlen ▸ hroom)
    refine ⟨_, hx, field_enqueue_txeie data s h, ?_, ?_⟩
    · rw [hstore]
      exact sameOutside_insertField s.cfg .txeie s.ser.cr2 1
    · rw [hstore]
      rfl

/-! `SER_RECV` (R184) and `SER_STAT` (R185). -/

/-- Settles O46. -/
theorem serRecvEffect : Obligations.SerRecvEffect := by
  intro s
  refine ⟨fun hi => ?_, fun hi hq => ?_, fun b rest hi hq => ?_⟩
  · simp [exec, execSerRecv, hi]
  · simp [exec, execSerRecv, hi, Fifo.pop, hq, raise, respond]
  · simp [exec, execSerRecv, hi, Fifo.pop, hq, respond]

/-- A number that fits 32 bits is responded as it is, and no value is drawn (R10, R185). -/
theorem execSerStat_of_lt (sel : StatSel) (s : State) (h : statValue sel s < 2 ^ 32) :
    execSerStat sel s = .next (respond .ok (BitVec.ofNat 32 (statValue sel s)) s) := by
  rw [execSerStat, zext32_of_lt _ s h]

/-- Settles O47: a counter and a code are words already, and a buffer's size fits one. -/
theorem serStatEffect : Obligations.SerStatEffect := by
  intro s sel htx hrx
  have hfits : statValue sel s < 2 ^ 32 := by
    cases sel with
    | faults => exact s.faultCount.isLt
    | overruns => exact s.overrunCount.isLt
    | txSize => exact Nat.lt_of_le_of_lt htx (by decide)
    | rxSize => exact Nat.lt_of_le_of_lt hrx (by decide)
    | state => exact (serStateCode s.serState).isLt
  have word (w : Word) : BitVec.ofNat 32 w.toNat = w := by rw [BitVec.ofNat_toNat, BitVec.setWidth_eq]
  refine (execSerStat_of_lt sel s hfits).trans (congrArg (fun v => Host.Outcome.next (respond .ok v s)) ?_)
  cases sel with
  | faults => exact word s.faultCount
  | overruns => exact word s.overrunCount
  | txSize | rxSize => rfl
  | state =>
    refine (word (serStateCode s.serState)).trans ?_
    cases s.serState <;> rfl

end Sys2Proof.Machine
end

section
/-! PROOF. The events (42_serial R190 to R195): what the handler of each deliverable cause does. -/
namespace Sys2Proof.Machine

open Sys2Proof.Safety

/-! Delivery (R190, R255, R256). -/

/-- A deliverable cause is serviced: `in_handler`, set on entry, is 0 again on return, and the handler rule says the rest. -/
theorem exec_event_of_rule {c : Cause} {s t : State} (hd : Deliverable c s) (ht : t.inHandler = false)
    (hrule : handlerRule c (enterHandler s) = enterHandler t) : exec c.instr s = .next t := by
  obtain ⟨hmasked, hflag, henable, hinited, hgate⟩ := hd
  have hpending : pending c s = true := by rw [pending, hflag, henable, Bool.and_true]
  have hleave : leaveHandler (enterHandler t) = t := by
    rw [leaveHandler, ← ht]
    rfl
  rw [exec_event, takeInterrupt_runs c _ s hmasked hpending hinited hgate, hrule, hleave]

/-- The hardware's writes are the same inside a handler as outside, and in every `ser_state`. -/
theorem hwSet_in_handler (s : State) (st : SerState) (f : Field) (v : Word) :
    (setSerState st (enterHandler s)).hwSet f v = setSerState st (enterHandler (s.hwSet f v)) := by
  have hword (r : Reg) : (setSerState st (enterHandler s)).word r = s.word r := by cases r <;> rfl
  have hstore (r : Reg) (w : Word) : (setSerState st (enterHandler s)).setWord r w = setSerState st (enterHandler (s.setWord r w)) := by
    cases r <;> rfl
  rw [State.hwSet, hword, hstore]
  rfl

/-! `IRQ.TX_EMPTY` (R191). -/

/-- With nothing to send the rule disables the interrupt and goes idle. -/
theorem execIrqTxEmpty_empty {s : State} (h : layoutOk s.cfg = true) (hd : Deliverable .txEmpty s) (hq : s.txFifo.q = []) :
    exec .irqTxEmpty s = .next (setSerState .idle (s.hwSet .txeie 0)) := by
  refine exec_event_of_rule hd (by simpa using hd.1) ?_
  have hpop : (enterHandler s).txFifo.pop = none := by simp [Fifo.pop, hq]
  simp only [handlerRule, handleTxEmpty, hpop]
  rw [wrfF_store _ ?_ .txeie 0 rfl (by decide), hwSet_eq_setWord _ ?_ .txeie 0, hwSet_eq_setWord s h .txeie 0]
  · rfl
  all_goals exact h

/-- With a byte queued the rule writes the oldest one to the data register. -/
theorem execIrqTxEmpty_sends {s : State} (h : layoutOk s.cfg = true) (hd : Deliverable .txEmpty s) {b : Byte} {rest : List Byte}
    (hq : s.txFifo.q = b :: rest) :
    exec .irqTxEmpty s = .next (regWrite .serDr (b.setWidth 32) { s with txFifo := { s.txFifo with q := rest } }) := by
  refine exec_event_of_rule hd (by simpa using hd.1) ?_
  have hpop : (enterHandler s).txFifo.pop = some (b, { s.txFifo with q := rest }) := by simp [Fifo.pop, hq]
  simp only [handlerRule, handleTxEmpty, hpop]
  rw [regWrite_serDr _ _ ?_, regWrite_serDr _ _ ?_]
  · rfl
  all_goals exact h

/-- Settles O49: the interrupt disabled, or a write of the data register. -/
theorem irqTxEmptyEffect : Obligations.IrqTxEmptyEffect := by
  intro s h hd
  refine ⟨fun hq => ?_, fun b rest hq => ?_⟩
  · refine ⟨_, execIrqTxEmpty_empty h hd hq, field_hwSet_bit s (layoutOk_configOk _ h) .txeie 0 (by decide), ?_, ?_⟩
    · rw [hwSet_eq_setWord s h .txeie 0]
      exact sameOutside_insertField s.cfg .txeie s.ser.cr2 0
    · rw [hwSet_eq_setWord s h .txeie 0]
      rfl
  · have hwrite := regWrite_serDr (b.setWidth 32) { s with txFifo := { s.txFifo with q := rest } } h
    refine ⟨_, execIrqTxEmpty_sends h hd hq, field_regWrite_serDr_txe _ _ h, ?_, ?_⟩
    · rw [hwrite]
      exact sameOutside_insertField s.cfg .txe s.ser.sr 0
    · rw [hwrite, setWidth_byte]

/-! `IRQ.RX_AVAILABLE` (R192). -/

/-- The rule clears `RXNE` and queues the byte, or drops and counts it; `ser_state` is as it was. -/
theorem execIrqRxAvailable_eq {s : State} (h : layoutOk s.cfg = true) (hd : Deliverable .rxAvailable s) :
    exec .irqRxAvailable s = .next { s with
      ser := { s.ser with sr := insertField (s.desc .rxne) s.ser.sr 0 }
      rxFifo := if s.rxFifo.size < s.rxFifo.cap then { s.rxFifo with q := s.rxFifo.q ++ [s.ser.drRx] } else s.rxFifo
      overrunCount := if s.rxFifo.size < s.rxFifo.cap then s.overrunCount else s.overrunCount + 1 } := by
  refine exec_event_of_rule hd hd.1 ?_
  have hread : regRead .serDr (setSerState .receiving (enterHandler s)) =
      (s.ser.drRx.setWidth 32, setSerState .receiving (enterHandler (s.hwSet .rxne 0))) :=
    Prod.ext rfl (hwSet_in_handler s .receiving .rxne 0)
  rw [hwSet_eq_setWord s h .rxne 0] at hread
  simp only [handlerRule, handleRxAvailable, hread, setWidth_byte, setSerState_rxFifo, enterHandler_rxFifo, setWord_rxFifo]
  by_cases hroom : s.rxFifo.size < s.rxFifo.cap
  · simp only [push_eq_some _ _ hroom, if_pos hroom]
    rfl
  · simp only [push_eq_none _ _ hroom, if_neg hroom]
    rfl

/-- Settles O50. -/
theorem irqRxAvailableEffect : Obligations.IrqRxAvailableEffect := by
  intro s h hd
  have hclear := field_hwSet_bit s (layoutOk_configOk _ h) .rxne 0 (by decide)
  rw [hwSet_eq_setWord s h .rxne 0] at hclear
  exact ⟨_, execIrqRxAvailable_eq h hd, hclear, sameOutside_insertField s.cfg .rxne s.ser.sr 0, rfl⟩

/-! The three fault causes (R193 to R195). -/

/-- Each ends alike: between entry and return the flags are cleared, then the fault is counted and the state is idle. -/
theorem exec_faultEvent {c : Cause} {s t : State} (hd : Deliverable c s) (ht : t.inHandler = s.inHandler)
    (hrule : handlerRule c (enterHandler s) = setSerState .idle (countFault (setSerState .error (enterHandler t)))) :
    exec c.instr s = .next (setSerState .idle (countFault t)) :=
  exec_event_of_rule hd (ht.trans hd.1) hrule

theorem execIrqOverrun_eq {s : State} (hd : Deliverable .overrun s) :
    exec .irqOverrun s = .next (setSerState .idle (countFault ((s.hwSet .rxne 0).hwSet .ovr 0))) := by
  refine exec_faultEvent hd (by simp) ?_
  rw [handlerRule, handleOverrun, clearOverrun_eq, hwSet_in_handler, hwSet_in_handler]

theorem execIrqModeFault_eq {s : State} (h : layoutOk s.cfg = true) (hd : Deliverable .modeFault s) :
    exec .irqModeFault s = .next (setSerState .idle (countFault (s.hwSet .modf 0))) := by
  refine exec_faultEvent hd (by simp) ?_
  rw [handlerRule, handleModeFault, clearModeFault_eq (setSerState .error (enterHandler s)) h, hwSet_in_handler]

theorem execIrqCrcError_eq {s : State} (h : layoutOk s.cfg = true) (hd : Deliverable .crcError s) :
    exec .irqCrcError s = .next (setSerState .idle (countFault (s.hwSet .crcerr 0))) := by
  refine exec_faultEvent hd (by simp) ?_
  rw [handlerRule, handleCrcError, wrfF_crcerr_clear (setSerState .error (enterHandler s)) h, hwSet_in_handler]

/-- Clearing one flag, counting and going idle: the flag reads 0, the rest of `SER_SR` and of the state is as before. -/
theorem countFault_hwSet_effect {s t : State} (h : layoutOk s.cfg = true) (f : Field) (hf : fieldReg f = .serSr)
    (ht : t = setSerState .idle (countFault (s.hwSet f 0))) :
    t.field f = 0 ∧ SameOutsideFields s.cfg [f] s.ser.sr t.ser.sr ∧
      t = { s with ser := { s.ser with sr := t.ser.sr }, faultCount := s.faultCount + 1, serState := .idle } := by
  subst ht
  refine ⟨field_hwSet_bit s (layoutOk_configOk _ h) f 0 (by decide), ?_, ?_⟩
  · rw [hwSet_eq_setWord s h f 0, hf]
    exact sameOutside_insertField s.cfg f s.ser.sr 0
  · rw [hwSet_eq_setWord s h f 0, hf]
    rfl

/-- Settles O51: the flag of the waiting byte is cleared first, by the read of the data register. -/
theorem irqOverrunEffect : Obligations.IrqOverrunEffect := by
  intro s h hd
  have hc := layoutOk_configOk _ h
  have hset : (s.hwSet .rxne 0).hwSet .ovr 0 =
      { s with ser := { s.ser with sr := insertField (s.desc .ovr) (insertField (s.desc .rxne) s.ser.sr 0) 0 } } := by
    rw [hwSet_eq_setWord s h .rxne 0, hwSet_eq_setWord _ ?_ .ovr 0]
    · rfl
    · exact h
  have hcfg : configOk (s.hwSet .rxne 0).cfg = true := by rwa [hwSet_cfg]
  refine ⟨_, execIrqOverrun_eq hd, field_hwSet_bit _ hcfg .ovr 0 (by decide), ?_, ?_, ?_⟩
  · exact (field_hwSet_other _ hcfg .ovr .rxne 0 (by decide)).trans (field_hwSet_bit s hc .rxne 0 (by decide))
  · rw [hset]
    exact sameOutside_insertField_of_mem (sameOutside_insertField_of_mem (sameOutside_refl _ _ _) .rxne (by decide) 0) .ovr (by decide) 0
  · rw [hset]
    rfl

/-- Settles O52. -/
theorem irqModeFaultEffect : Obligations.IrqModeFaultEffect := fun _ h hd =>
  ⟨_, execIrqModeFault_eq h hd, countFault_hwSet_effect h .modf rfl rfl⟩

/-- Settles O53. -/
theorem irqCrcErrorEffect : Obligations.IrqCrcErrorEffect := fun _ h hd =>
  ⟨_, execIrqCrcError_eq h hd, countFault_hwSet_effect h .crcerr rfl rfl⟩

end Sys2Proof.Machine
end

section
/-! PROOF. The steps of the hardware agents (44_hardware_environment R221, R222, R225 to R227), and the switch that never comes
(R222, R246). -/
namespace Sys2Proof.Machine

open Sys2Proof.Safety

/-! When a step is enabled, and what it then does. -/

/-- A step that is not enabled makes no move (entry 7). -/
theorem envStep_of_disabled {e : EnvStep} {s : State} (h : ¬ envEnabled e s = true) : envStep e s = s := if_neg h

/-- Setting a field by hardware: the field holds the value, the other bits of its register are kept, and so is all else. -/
theorem hwSet_effect (s : State) (h : layoutOk s.cfg = true) (f : Field) (v : Word) (hv : v.toNat < 2 ^ fieldWidth f) :
    (s.hwSet f v).field f = v ∧
      SameOutsideFields s.cfg [f] (s.word (fieldReg f)) ((s.hwSet f v).word (fieldReg f)) ∧
      s.hwSet f v = s.setWord (fieldReg f) ((s.hwSet f v).word (fieldReg f)) := by
  refine ⟨field_hwSet_value s h f v hv, sameOutside_hwSet h (sameOutside_refl _ _ _) f v fun _ => List.mem_cons_self, ?_⟩
  rw [hwSet_eq_setWord s h, word_setWord_same _ _ _ (fieldReg_ne_serDr f)]

/-! `E_LOCK` (R221). -/

theorem lock_enabled_iff (s : State) (h : layoutOk s.cfg = true) :
    envEnabled .lock s = true ↔
      s.field .pllon = 1 ∧ s.field .pllrdy = 0 ∧ (s.field .pllsrc = 0 ∨ s.cfg.hseReady = true) := by
  have hosc : oscReady s = true ↔ s.field .pllsrc = 0 ∨ s.cfg.hseReady = true := by
    refine ⟨fun hready => ?_, oscReady_of_layout s h⟩
    simp only [oscReady, Bool.or_eq_true, beq_iff_eq, Bool.and_eq_true] at hready
    exact hready.imp_right And.right
  simp only [envEnabled, Bool.and_eq_true, beq_iff_eq, flag_true_iff, hosc, and_assoc]

/-- Settles O55. -/
theorem lockStep : Obligations.LockStep := by
  intro s h
  rw [← lock_enabled_iff s h]
  refine ⟨fun he => ?_, envStep_of_disabled⟩
  rw [envStep_of_enabled _ _ he]
  exact hwSet_effect s h .pllrdy 1 (by decide)

/-! `E_SWITCH` (R222). -/

/-- `src_ready` by the code of `SW`: HSI, HSE, the PLL, and no other (R222; entry 29). -/
theorem srcReady_iff (s : State) :
    srcReady s = true ↔
      s.field .sw = 0 ∨ (s.field .sw = 1 ∧ s.cfg.hseReady = true) ∨ (s.field .sw = 2 ∧ s.field .pllrdy = 1) := by
  have hcode (n : Word) : s.field .sw = n ↔ (s.field .sw).toNat = n.toNat := BitVec.toNat_inj.symm
  simp only [hcode, srcReady]
  split <;> simp_all [flag_true_iff]

theorem switch_enabled_iff (s : State) : envEnabled .switch s = true ↔ s.field .sw ≠ s.field .sws ∧ srcReady s = true := by
  simp only [envEnabled, Bool.and_eq_true, bne_iff_ne]

/-- A source that can be ready has a code of two bits, which the status field holds whole. -/
theorem sw_lt_of_srcReady {s : State} (h : srcReady s = true) : (s.field .sw).toNat < 2 ^ fieldWidth .sws := by
  rcases (srcReady_iff s).1 h with hsw | ⟨hsw, -⟩ | ⟨hsw, -⟩ <;> rw [hsw] <;> decide

/-- Settles O56. -/
theorem switchStep : Obligations.SwitchStep := by
  intro s h
  rw [← srcReady_iff s]
  refine ⟨fun hne hready => ?_, fun hoff => envStep_of_disabled fun he => ?_⟩
  · rw [envStep_of_enabled _ _ ((switch_enabled_iff s).2 ⟨hne, hready⟩)]
    exact hwSet_effect s h .sws (s.field .sw) (sw_lt_of_srcReady hready)
  · obtain ⟨hne, hready⟩ := (switch_enabled_iff s).1 he
    exact hoff.elim hne (· hready)

/-! The steps of the serial hardware (R225 to R227). -/

theorem txDone_enabled_iff (s : State) : envEnabled .txDone s = true ↔ s.field .spe = 1 ∧ s.field .txe = 0 := by
  simp only [envEnabled, Bool.and_eq_true, beq_iff_eq, flag_true_iff]

theorem rxByte_enabled_iff (s : State) (b : Byte) : envEnabled (.rxByte b) s = true ↔ s.field .spe = 1 := flag_true_iff s .spe

theorem fault_enabled_iff (s : State) (f : LineFault) : envEnabled (.fault f) s = true ↔ s.field .spe = 1 := flag_true_iff s .spe

/-- Into an empty data register: the byte is latched and announced. -/
theorem envStep_rxByte_empty (s : State) (b : Byte) (hspe : s.field .spe = 1) (hrxne : s.field .rxne = 0) :
    envStep (.rxByte b) s = { s with ser := { s.ser with drRx := b } }.hwSet .rxne 1 :=
  (envStep_of_enabled _ _ ((rxByte_enabled_iff s b).2 hspe)).trans (if_pos hrxne)

/-- Onto a byte not read yet: an overrun. -/
theorem envStep_rxByte_full (s : State) (b : Byte) (hspe : s.field .spe = 1) (hrxne : s.field .rxne = 1) :
    envStep (.rxByte b) s = s.hwSet .ovr 1 :=
  (envStep_of_enabled _ _ ((rxByte_enabled_iff s b).2 hspe)).trans (if_neg (by rw [hrxne]; decide))

/-- A line fault's flag lies in `SER_SR`, one bit wide (R36). -/
theorem lineFaultField_layout (f : LineFault) : fieldReg (lineFaultField f) = .serSr ∧ fieldWidth (lineFaultField f) = 1 := by
  cases f <;> decide

/-- Settles O57. -/
theorem serialHardwareSteps : Obligations.SerialHardwareSteps := by
  intro s b f h
  refine ⟨fun hspe => ?_, fun htxe => ?_, fun hspe htxe => ?_, fun hspe hrxne => ?_, fun hspe hrxne => ?_, fun hspe => ?_⟩
  · have hoff : ¬ s.field .spe = 1 := by rw [hspe]; decide
    exact ⟨envStep_of_disabled fun he => hoff ((txDone_enabled_iff s).1 he).1,
      envStep_of_disabled fun he => hoff ((rxByte_enabled_iff s b).1 he), envStep_of_disabled fun he => hoff ((fault_enabled_iff s f).1 he)⟩
  · have hset : ¬ s.field .txe = 0 := by rw [htxe]; decide
    exact envStep_of_disabled fun he => hset ((txDone_enabled_iff s).1 he).2
  · rw [envStep_of_enabled _ _ ((txDone_enabled_iff s).2 ⟨hspe, htxe⟩)]
    exact hwSet_effect s h .txe 1 (by decide)
  · rw [envStep_rxByte_empty s b hspe hrxne]
    exact hwSet_effect { s with ser := { s.ser with drRx := b } } h .rxne 1 (by decide)
  · rw [envStep_rxByte_full s b hspe hrxne]
    exact hwSet_effect s h .ovr 1 (by decide)
  · rw [envStep_of_enabled _ _ ((fault_enabled_iff s f).2 hspe)]
    obtain ⟨hreg, hwidth⟩ := lineFaultField_layout f
    have heffect := hwSet_effect s h (lineFaultField f) 1 (by rw [hwidth]; decide)
    rw [hreg] at heffect
    exact heffect

/-! The hang (R246). -/

/-- No hardware step but the lock and the switch reaches a field of the clock block, and the lock reaches `PLLRDY` only (R221 to R227). -/
theorem envStep_field_clock (e : EnvStep) (s : State) (hc : configOk s.cfg = true) (he : e ≠ .switch) (g : Field)
    (hg : regOfSer (fieldReg g) = false) (hrdy : g ≠ .pllrdy) : (envStep e s).field g = s.field g := by
  have serial (u : State) (hu : u.cfg = s.cfg) (f : Field) (hf : regOfSer (fieldReg f) = true) : (u.hwSet f 1).field g = u.field g :=
    field_hwSet_other u (hu ▸ hc) f g 1 (field_ne (fun f => regOfSer (fieldReg f)) hf hg)
  unfold envStep
  split
  case isFalse => rfl
  case isTrue =>
    cases e with
    | lock => exact field_hwSet_other s hc .pllrdy g 1 hrdy.symm
    | switch => exact absurd rfl he
    | txDone => exact serial s rfl .txe rfl
    | rxByte b =>
      simp only [envEffect]
      split
      · exact (serial { s with ser := { s.ser with drRx := b } } rfl .rxne rfl).trans (field_drRx s hc b g)
      · exact serial s rfl .ovr rfl
    | fault f => exact serial s rfl (lineFaultField f) (congrArg regOfSer (lineFaultField_layout f).1)

/-- The selected source does not run, so the switch is never enabled. -/
theorem switch_disabled_of_hung {s : State} (h : HungOnHse s) : ¬ envEnabled .switch s = true := by
  intro he
  have hready := (srcReady_iff s).1 ((switch_enabled_iff s).1 he).2
  simp [h.selected, h.stopped] at hready

/-- The hang depends on the wait, on `SW` and on `SWS` only. -/
theorem hungOnHse_congr {s t : State} (h : HungOnHse s) (hc : t.cfg = s.cfg) (hw : StillWaiting s t)
    (hsw : t.field .sw = s.field .sw) (hsws : t.field .sws = s.field .sws) : HungOnHse t := by
  obtain ⟨-, hseq, hop, -⟩ := hw
  exact ⟨hc ▸ h.stopped, hseq.trans h.waiting, hop.trans h.target, hsw.trans h.selected, hsws ▸ h.elsewhere⟩

theorem envStep_hung (e : EnvStep) {s : State} (h : HungOnHse s) (hc : configOk s.cfg = true) : HungOnHse (envStep e s) := by
  by_cases he : e = .switch
  · rw [he, envStep_of_disabled (switch_disabled_of_hung h)]
    exact h
  · have hcfg : (envStep e s).cfg = s.cfg := by
      obtain ⟨_, _, heq⟩ := envStep_eq e s
      rw [heq]
    exact hungOnHse_congr h hcfg (envStep_stillWaiting e s) (envStep_field_clock e s hc he .sw rfl (by decide))
      (envStep_field_clock e s hc he .sws rfl (by decide))

theorem event_hung {c : Cause} {s t : State} (h : HungOnHse s) (hc : configOk s.cfg = true) (hx : exec c.instr s = .next t) :
    HungOnHse t := by
  obtain ⟨hcfg, hrcc⟩ : t.cfg = s.cfg ∧ t.rcc = s.rcc := by
    obtain ⟨_, _, _, _, _, _, _, rfl⟩ := event_frame c s t hc hx
    exact ⟨rfl, rfl⟩
  exact hungOnHse_congr h hcfg (event_stillWaiting c s t hc hx) (field_of_rcc hc hcfg hrcc .sw rfl) (field_of_rcc hc hcfg hrcc .sws rfl)

/-- Every turn that a hung machine completes leaves it waiting: a poll finds another source active, an event stays in the serial engine,
and no hardware step reaches `SW` or `SWS`. -/
theorem turn_hung {s t : State} {u : Turn} (h : HungOnHse s) (hc : configOk s.cfg = true) (ht : TurnTaken s t u) :
    HungOnHse t ∧ StillWaiting s t := by
  cases ht with
  | noCommand hq | illegal _ _ hq | command _ _ hq | pllPoll hq => exact Seq.noConfusion (hq.symm.trans h.waiting)
  | swPoll _ ht =>
    rw [setSysclkWait_elsewhere s .hse h.target h.elsewhere] at ht
    cases ht
    exact ⟨h, rfl, rfl, rfl, rfl⟩
  | event c ht => exact ⟨event_hung h hc ht, event_stillWaiting c s t hc ht⟩
  | env e ht => exact ht ▸ ⟨envStep_hung e h hc, envStep_stillWaiting e s⟩

/-- Settles O58: the hang does not depend on the placed turns or the draw counter, and every turn keeps it. -/
theorem unreadyOscillatorHangs : Obligations.UnreadyOscillatorHangs := by
  intro s t h hstep
  obtain ⟨hc, turns, draws, ht⟩ := step_taken s t hstep
  have h' : HungOnHse { s with turns := turns, draws := draws } := hungOnHse_congr h rfl ⟨rfl, rfl, rfl, rfl⟩ rfl rfl
  obtain ⟨hhung, hcmd, -, -, hresp⟩ := turn_hung h' hc ht
  exact ⟨hhung, hresp, hcmd⟩

end Sys2Proof.Machine
end

section
/-! PROOF. Exceptions (60_exceptions R244, R250 to R259): an illegal command reaches the response port only, a handler step leaves the
application's context alone, an event that cannot be delivered makes no move or stops by name, and the order of two deliveries can
matter. -/
namespace Sys2Proof.Machine

open Sys2Proof.Safety

/-! The synchronous exception (R240, R244). -/

/-- Accepting an illegal command raises `ILLEGAL_COMMAND`, with its words taken from the command port. -/
theorem acceptCommand_illegal (s : State) (e : Illegal) (rest : List CmdWord) (hd : decode s.cmdIn = .illegal e rest) :
    acceptCommand s = .next (raise .illegalCommand { s with cmdIn := rest }) := by
  simp only [acceptCommand, hd]

/-- With no command in flight there is none to end, so raising reaches the response port only. -/
theorem raise_of_idle (s : State) (st : Status) (hq : s.seq = .idle) (ho : s.op = none) :
    raise st s = { s with resp := some ⟨st, 0⟩ } := by
  rw [raise, respond, ← hq, ← ho]

/-- Settles O7: acceptance raises before any other effect, in a state with nothing latched. -/
theorem illegalCommandRaises : Obligations.IllegalCommandRaises := by
  intro s later e rest hc ht hq ho hd
  rw [step_app_idle s later hc ht hq, acceptCommand_illegal { s with turns := later } e rest hd]
  exact congrArg Host.Outcome.next (raise_of_idle { s with turns := later, cmdIn := rest } .illegalCommand hq ho)

/-! Handler steps and the application (R255, R256, R259). -/

/-- Settles O28: the frame of an event holds neither the application's context nor `in_handler`, `ser_inited` or the ports. -/
theorem handlerLeavesApplication : Obligations.HandlerLeavesApplication := by
  intro c s t hc hx
  obtain ⟨_, _, _, _, _, _, _, rfl⟩ := event_frame c s t hc hx
  exact ⟨⟨rfl, rfl, rfl, rfl, rfl, rfl⟩, rfl, rfl, rfl, rfl, rfl⟩

/-! Events that are not delivered (R250, R252, R283, R287). -/

theorem pending_eq_false_iff (c : Cause) (s : State) :
    pending c s = false ↔ s.flag (causeFlag c) = false ∨ s.flag (causeEnable c) = false := Bool.and_eq_false_iff

theorem pending_eq_true_iff (c : Cause) (s : State) :
    pending c s = true ↔ s.flag (causeFlag c) = true ∧ s.flag (causeEnable c) = true := Bool.and_eq_true_iff

/-- A cause that is not pending, and any cause inside the handler, makes no move (R252; entry 7). -/
theorem exec_event_noMove {c : Cause} {s : State} (h : pending c s = false ∨ s.inHandler = true) : exec c.instr s = .next s := by
  rw [exec_event, takeInterrupt, if_pos]
  simpa [or_comm] using h

section
variable {c : Cause} {s : State} (hp : pending c s = true) (hm : s.inHandler = false)
include hp hm

/-- A pending cause before a successful `SER_INIT` is refused (R287, 93 U8). -/
theorem exec_event_uninitialised (hi : s.serInited = false) : exec c.instr s = .refused .serNotInitialised := by
  simp [exec_event, takeInterrupt, hp, hm, hi]

/-- A pending cause of an engine with its clock gate off faults (R283, 93 U9). -/
theorem exec_event_gatedOff (hi : s.serInited = true) (hg : serGateOn s = false) : exec c.instr s = .fault .serClockGatedOff := by
  simp [exec_event, takeInterrupt, hp, hm, hi, hg]

end

/-- Settles O48: the tests of `takeInterrupt`, in their order. -/
theorem undeliverableEvents : Obligations.UndeliverableEvents := by
  intro c s
  refine ⟨fun h => exec_event_noMove ?_, fun hflag henable hm hi => ?_, fun hflag henable hm hi hg => ?_⟩
  · rwa [pending_eq_false_iff, or_assoc]
  · exact exec_event_uninitialised ((pending_eq_true_iff c s).2 ⟨hflag, henable⟩) hm hi
  · exact exec_event_gatedOff ((pending_eq_true_iff c s).2 ⟨hflag, henable⟩) hm hi hg

/-! The order of delivery (R253). -/

/-- A cause stays deliverable when the hardware writes another field of the serial block. -/
theorem deliverable_hwSet_other {c : Cause} {s : State} (hc : configOk s.cfg = true) (hd : Deliverable c s) (f : Field) (v : Word)
    (hf : regOfSer (fieldReg f) = true) (hflag : f ≠ causeFlag c) (henable : f ≠ causeEnable c) : Deliverable c (s.hwSet f v) := by
  obtain ⟨hmasked, hset, henabled, hinited, hgate⟩ := hd
  exact ⟨(hwSet_inHandler s f v).trans hmasked, (flag_hwSet_other s hc f _ v hflag).trans hset,
    (flag_hwSet_other s hc f _ v henable).trans henabled, (hwSet_serInited s f v).trans hinited,
    Encoding.serGateOn_congr (hwSet_cfg s f v) (hwSet_rcc f v s hc hf) hgate⟩

/-- Delivery does not look at the receive buffer (R252). -/
theorem deliverable_rxFifo {c : Cause} {s : State} (hd : Deliverable c s) (b : Fifo) : Deliverable c { s with rxFifo := b } := by
  obtain ⟨hmasked, hset, henabled, hinited, hgate⟩ := hd
  exact ⟨hmasked, hset, henabled, hinited, Encoding.serGateOn_congr (s := s) rfl rfl hgate⟩

/-- With room in the buffer the waiting byte is queued, and nothing else but `RXNE` changes (R192). -/
theorem execIrqRxAvailable_queues {s : State} (h : layoutOk s.cfg = true) (hd : Deliverable .rxAvailable s)
    (hroom : s.rxFifo.size < s.rxFifo.cap) :
    exec .irqRxAvailable s =
      .next { s.hwSet .rxne 0 with rxFifo := { s.rxFifo with q := s.rxFifo.q ++ [s.ser.drRx] } } := by
  rw [execIrqRxAvailable_eq h hd, if_pos hroom, if_pos hroom, hwSet_eq_setWord s h .rxne 0]
  rfl

/-- Settles O54: queueing the byte leaves the overrun deliverable, while the overrun clears `RXNE`; the overrun's own effect (O51) is the
same in both orders. -/
theorem overrunOrderMatters : Obligations.OverrunOrderMatters := by
  intro s h hrx hov hroom
  have ht := execIrqRxAvailable_queues h hrx hroom
  have hovt : Deliverable .overrun (s.hwSet .rxne 0) :=
    deliverable_hwSet_other (layoutOk_configOk _ h) hov .rxne 0 rfl (by decide) (by decide)
  have hcfg : layoutOk (s.hwSet .rxne 0).cfg = true := by rwa [hwSet_cfg]
  obtain ⟨u, hu, -, -, -, huEq⟩ :=
    irqOverrunEffect { s.hwSet .rxne 0 with rxFifo := { s.rxFifo with q := s.rxFifo.q ++ [s.ser.drRx] } } hcfg (deliverable_rxFifo hovt _)
  obtain ⟨v, hv, -, hrxne, -, hvEq⟩ := irqOverrunEffect s h hov
  refine ⟨_, u, v, ht, hu, hv, ?_, ?_, ?_, ?_, ?_⟩
  · rw [huEq]
  · rw [hvEq]
  · refine (pending_eq_false_iff .rxAvailable v).2 (.inl ?_)
    exact (flag_false_iff v (hvEq ▸ h) .rxne rfl).2 hrxne
  · rw [huEq]
    exact congrArg (· + 1) (hwSet_faultCount s .rxne 0)
  · rw [hvEq]

end Sys2Proof.Machine
end

section
/-! PROOF. Reset and parameters (70_reset_and_hazards R274): no instruction and no turn of any agent writes a parameter. -/
namespace Sys2Proof.Machine

theorem ClockFrame.cfg_eq {s t : State} (h : ClockFrame s t) : t.cfg = s.cfg := by
  obtain ⟨_, _, _, _, _, _, _, rfl⟩ := h
  rfl

theorem HandlerFrame.cfg_eq {s t : State} (h : HandlerFrame s t) : t.cfg = s.cfg := by
  obtain ⟨_, _, _, _, _, _, _, rfl⟩ := h
  rfl

/-- A hardware step writes register blocks only, and the parameters are in neither. -/
theorem envStep_cfg (e : EnvStep) (s : State) : (envStep e s).cfg = s.cfg := by
  obtain ⟨_, _, he⟩ := envStep_eq e s
  rw [he]

/-- A completed instruction, command or event, leaves the parameters. -/
theorem exec_cfg (i : Instr) (s t : State) (hc : configOk s.cfg = true) (h : exec i s = .next t) : t.cfg = s.cfg := by
  cases instrKind i with
  | clock _ hi => exact (clockCommand_frame i s t hc hi h).cfg_eq
  | serInit target =>
    obtain ⟨-, rfl | ⟨k, rfl⟩⟩ := execSerInit_next target s t h
    · exact raise_cfg s .configError
    · obtain ⟨_, he⟩ := startSerial_eq k s hc
      rw [respond_cfg, he]
  | serSend size data =>
    obtain ⟨-, rfl | rfl⟩ := execSerSend_next size data s t h
    · exact raise_cfg s .bufferFull
    · obtain ⟨_, he⟩ := enqueue_eq data s hc
      rw [respond_cfg, he]
  | serRecv =>
    obtain rfl | ⟨_, _, -, rfl⟩ := execSerRecv_next s t h
    · exact raise_cfg s .bufferEmpty
    · exact respond_cfg ..
  | serStat sel =>
    obtain ⟨_, _, he⟩ := execSerStat_eq sel s
    cases he.symm.trans h
    exact respond_cfg ..
  | event c => exact (event_frame c s t hc h).cfg_eq

/-- No agent's turn writes the parameters: taking words from the command port does not, nor does the first step, poll, event or hardware
step that follows. -/
theorem turn_cfg {s t : State} {u : Turn} (hc : configOk s.cfg = true) (h : TurnTaken s t u) : t.cfg = s.cfg := by
  cases h with
  | noCommand _ ht | illegal _ _ _ _ ht => exact ht ▸ rfl
  | command i rest _ _ ht => exact exec_cfg i { s with cmdIn := rest } t hc ht
  | pllPoll _ ht => exact (cfgPllWait_frame s t ht).cfg_eq
  | swPoll _ ht => exact (setSysclkWait_frame s t ht).cfg_eq
  | event c ht => exact (event_frame c s t hc ht).cfg_eq
  | env e ht => exact ht ▸ envStep_cfg e s

/-- Settles O11: a completed step is a turn of an accepted machine, and choosing the turn touches only the placed turns and the draw
counter. -/
theorem parametersNeverChange : Obligations.ParametersNeverChange := by
  intro s t h
  obtain ⟨hc, turns, draws, ht⟩ := step_taken s t h
  exact turn_cfg (s := { s with turns := turns, draws := draws }) hc ht

end Sys2Proof.Machine
end
